-- ==== Sys2Proof/Word.lean ====
section
/-! DEFINITION. The two kinds of value of the block: a 32-bit command word (spec R80) and a number `Num`
(spec R12), with the plainest arithmetic of numbers. Everything built from these (floors, moduli, clamps,
`sin`) is in Machine/Numeric.lean. -/

namespace Sys2Proof

/-- A command word: 32 bits, bit 31 the most significant (R10, R80). -/
abbrev CmdWord := BitVec 32

/-- `Num`, the type of samples, coefficients and parameter values (R12).
DESIGN CHOICE (log 1): the open number format `NUMFMT` is the exact rationals plus one value that is not a number. -/
inductive Num where
  /-- An exact number. -/
  | val (q : Rat)
  /-- Not a number: it fails every range test (R12), and arithmetic on it gives it back (R269). -/
  | nan
deriving DecidableEq, Repr, Inhabited

namespace Num

/-- The number zero: what allocation writes to every cell (R102) and what registers hold after reset (R41). -/
abbrev zero : Num := .val 0

def add : Num → Num → Num
  | .val a, .val b => .val (a + b)
  | .val _, .nan => .nan
  | .nan, _ => .nan

def sub : Num → Num → Num
  | .val a, .val b => .val (a - b)
  | .val _, .nan => .nan
  | .nan, _ => .nan

def mul : Num → Num → Num
  | .val a, .val b => .val (a * b)
  | .val _, .nan => .nan
  | .nan, _ => .nan

/-- A stored coefficient times a sample: the `g * d`, `dry * x` of the tick rules. -/
def scale (q : Rat) (x : Num) : Num := (Num.val q).mul x

/-- A range test on a number; a value that is not a number fails it (R12). -/
def passes (v : Num) (ok : Rat → Bool) : Bool :=
  match v with
  | .val q => ok q
  | .nan => false

end Num

end Sys2Proof
end

