-- ==== Sys2Proof/Syntax.lean ====
section
/-! DEFINITION. The commands of the block: one constructor per row of spec/opcode_table.json (R85), with the
operands of R82, R83 as typed fields, and the mode class of each (R292, R293). -/

namespace Sys2Proof

/-- Instance and register numbers (R8, R83). -/
abbrev DbNum := Fin 8
abbrev ModNum := Fin 3
abbrev FuNum := Fin 7
abbrev PNum := Fin 32
abbrev TapNum := Fin 3
abbrev TapCount := Fin 4

/-- The `S` bit: where the input sample X comes from (R84). -/
inductive Src where
  /-- `S = 0`: the value on `DIN`. -/
  | din
  /-- `S = 1`: the result register `R`. -/
  | r
deriving DecidableEq, Repr

/-- The commands (R85). -/
inductive Instr where
  | nop
  | reset
  | pld (k : PNum)
  | pmv (k : PNum)
  | ctxSet
  | start
  | stop
  | dbAlloc (b : DbNum) (nt : TapCount)
  | dbWr (b : DbNum) (src : Src)
  | dbRd (b : DbNum) (t : TapNum)
  | dbAdv (b : DbNum)
  | dbPeek (b : DbNum)
  | dbMpos (b : DbNum) (t : TapNum)
  | ipCfg
  | ipLin (b : DbNum)
  | ipBl (b : DbNum)
  | ipRd (b : DbNum)
  | modCfg (m : ModNum)
  | modNext (m : ModNum)
  | apCfg (u : FuNum)
  | cbCfg (u : FuNum)
  | lpcCfg (u : FuNum)
  | apTick (u : FuNum) (src : Src)
  | cbTick (u : FuNum) (src : Src)
  | lpcTick (u : FuNum) (src : Src)
  | serTick (a : FuNum) (b : FuNum) (src : Src)
  | parTick (a : FuNum) (b : FuNum) (src : Src) (clamp : Bool)
  | mixSet
  | mix (k : PNum) (src : Src)
  | cfgSd
  | cfgDd
  | cfgFd
  | cfgMc
  | cfgFc
  | cfgRv1
  | cfgRv2
  | cfgRv3
  | tick (src : Src)
  | block (n : BitVec 16)
deriving DecidableEq, Repr

/-- In which mode a command is legal: `any` in both, `cfg` only STOPPED, `data` only RUNNING (R85). -/
inductive CmdClass where
  | any | cfg | data
deriving DecidableEq, Repr

/-- The class column of R85. -/
def Instr.cls : Instr → CmdClass
  | .nop | .reset | .pld _ | .pmv _ | .start | .stop | .dbPeek _ => .any
  | .ctxSet | .dbAlloc _ _ | .ipCfg | .modCfg _ | .apCfg _ | .cbCfg _ | .lpcCfg _ | .mixSet => .cfg
  | .cfgSd | .cfgDd | .cfgFd | .cfgMc | .cfgFc | .cfgRv1 | .cfgRv2 | .cfgRv3 => .cfg
  | .dbWr _ _ | .dbRd _ _ | .dbAdv _ | .dbMpos _ _ | .ipLin _ | .ipBl _ | .ipRd _ | .modNext _ => .data
  | .apTick _ _ | .cbTick _ _ | .lpcTick _ _ | .serTick _ _ _ | .parTick _ _ _ _ | .mix _ _ => .data
  | .tick _ | .block _ => .data

end Sys2Proof
end

