-- ==== Sys2Proof/WellFormed.lean ====
section
/-! DEFINITION. Which commands have a word. Every bound on one field is in its type (Syntax.lean); the one
relation between fields is the order of an engine's range (R86: `A > B` in `SER.TICK` or `PAR.TICK` is illegal). -/

namespace Sys2Proof

/-- The command has a legal word (R86). -/
def Instr.wf : Instr → Bool
  | .serTick a b _ => decide (a ≤ b)
  | .parTick a b _ _ => decide (a ≤ b)
  | .nop | .reset | .pld _ | .pmv _ | .ctxSet | .start | .stop => true
  | .dbAlloc _ _ | .dbWr _ _ | .dbRd _ _ | .dbAdv _ | .dbPeek _ | .dbMpos _ _ => true
  | .ipCfg | .ipLin _ | .ipBl _ | .ipRd _ | .modCfg _ | .modNext _ => true
  | .apCfg _ | .cbCfg _ | .lpcCfg _ | .apTick _ _ | .cbTick _ _ | .lpcTick _ _ => true
  | .mixSet | .mix _ _ | .cfgSd | .cfgDd | .cfgFd | .cfgMc | .cfgFc | .cfgRv1 | .cfgRv2 | .cfgRv3 => true
  | .tick _ | .block _ => true

end Sys2Proof
end

