-- ==== Sys2Proof/Decode.lean ====
section
/-! DEFINITION. Decoding a command word (R80 to R87): a function of the word alone, total, that answers the
command or the reason the word is illegal (R86); then the encoder, written from the same tables. -/

namespace Sys2Proof

/-- Why a word is illegal (R86). All of them raise the one cause ILLEGAL_CMD. -/
inductive Illegal where
  /-- `OPC` is not in the table of R85. -/
  | undefinedOpcode
  /-- A must-be-zero bit of the format is 1. -/
  | mustBeZero
  /-- An instance number is outside its file. -/
  | noSuchInstance
  /-- A tap number above 2. -/
  | noSuchTap
  /-- A tap count above 3. -/
  | tapCountTooLarge
  /-- `A > B` in an engine command. -/
  | emptyRange
  /-- A `CFG` kind of 0 or above 8. -/
  | noSuchKind
deriving DecidableEq, Repr

/-! ### Fields (R81, R83) -/

def opcField (w : CmdWord) : BitVec 8 := w.extractLsb' 24 8
def aField (w : CmdWord) : BitVec 4 := w.extractLsb' 20 4
def bField (w : CmdWord) : BitVec 4 := w.extractLsb' 16 4
def immField (w : CmdWord) : BitVec 16 := w.extractLsb' 0 16
/-- `K = w[20:16]`. -/
def kField (w : CmdWord) : BitVec 5 := w.extractLsb' 16 5
/-- Bits 23:21, must be zero in the K formats. -/
def kPad (w : CmdWord) : BitVec 3 := w.extractLsb' 21 3

/-- `S = w[0]`. -/
def srcField (w : CmdWord) : Src := if w.getLsbD 0 then .r else .din
/-- `C = w[1]`. -/
def clampField (w : CmdWord) : Bool := w.getLsbD 1

/-- The must-be-zero check of a format. -/
def mbz (zero : Bool) (next : Except Illegal Instr) : Except Illegal Instr :=
  if zero then next else .error .mustBeZero

/-- An instance number within a file of `n`. -/
def withInstance (n : Nat) (x : BitVec 4) (next : Fin n → Except Illegal Instr) : Except Illegal Instr :=
  if h : x.toNat < n then next ⟨x.toNat, h⟩ else .error .noSuchInstance

/-! ### Formats (R82) -/

def formatZ (w : CmdWord) (i : Instr) : Except Illegal Instr :=
  mbz (aField w == 0 && bField w == 0 && immField w == 0) (.ok i)

def formatK (w : CmdWord) (f : PNum → Instr) : Except Illegal Instr :=
  mbz (kPad w == 0 && immField w == 0) (.ok (f (kField w).toFin))

def formatKS (w : CmdWord) (f : PNum → Src → Instr) : Except Illegal Instr :=
  mbz (kPad w == 0 && immField w >>> 1 == 0) (.ok (f (kField w).toFin (srcField w)))

def formatA (n : Nat) (w : CmdWord) (f : Fin n → Instr) : Except Illegal Instr :=
  mbz (bField w == 0 && immField w == 0) (withInstance n (aField w) fun x => .ok (f x))

/-- Format AB with a tap number. -/
def formatAB (w : CmdWord) (f : DbNum → TapNum → Instr) : Except Illegal Instr :=
  mbz (immField w == 0) <| withInstance 8 (aField w) fun b =>
    if h : (bField w).toNat < 3 then .ok (f b ⟨(bField w).toNat, h⟩) else .error .noSuchTap

/-- Format AB with a tap count. -/
def formatABCount (w : CmdWord) (f : DbNum → TapCount → Instr) : Except Illegal Instr :=
  mbz (immField w == 0) <| withInstance 8 (aField w) fun b =>
    if h : (bField w).toNat < 4 then .ok (f b ⟨(bField w).toNat, h⟩) else .error .tapCountTooLarge

def formatAS (n : Nat) (w : CmdWord) (f : Fin n → Src → Instr) : Except Illegal Instr :=
  mbz (bField w == 0 && immField w >>> 1 == 0) <|
    withInstance n (aField w) fun x => .ok (f x (srcField w))

/-- Format ABS: the range `a..b` of an engine, `a ≤ b`; `pad` says which `IMM` bits must be zero. -/
def formatABS (pad : Nat) (w : CmdWord) (f : FuNum → FuNum → Instr) : Except Illegal Instr :=
  mbz (immField w >>> pad == 0) <| withInstance 7 (aField w) fun a => withInstance 7 (bField w) fun b =>
    if a ≤ b then .ok (f a b) else .error .emptyRange

def formatS (w : CmdWord) (f : Src → Instr) : Except Illegal Instr :=
  mbz (aField w == 0 && bField w == 0 && immField w >>> 1 == 0) (.ok (f (srcField w)))

def formatN (w : CmdWord) (f : BitVec 16 → Instr) : Except Illegal Instr :=
  mbz (aField w == 0 && bField w == 0) (.ok (f (immField w)))

/-- Format G: the unit kind in `A` (R37's numbering). -/
def formatG (w : CmdWord) : Except Illegal Instr :=
  mbz (bField w == 0 && immField w == 0) <|
    match (aField w).toNat with
    | 1 => .ok .cfgSd
    | 2 => .ok .cfgDd
    | 3 => .ok .cfgFd
    | 4 => .ok .cfgMc
    | 5 => .ok .cfgFc
    | 6 => .ok .cfgRv1
    | 7 => .ok .cfgRv2
    | 8 => .ok .cfgRv3
    | _ => .error .noSuchKind

/-- The opcode map (R85). -/
def decode (w : CmdWord) : Except Illegal Instr :=
  match (opcField w).toNat with
  | 0x00 => formatZ w .nop
  | 0x01 => formatZ w .reset
  | 0x02 => formatK w .pld
  | 0x03 => formatK w .pmv
  | 0x04 => formatZ w .ctxSet
  | 0x05 => formatZ w .start
  | 0x06 => formatZ w .stop
  | 0x10 => formatABCount w .dbAlloc
  | 0x11 => formatAS 8 w .dbWr
  | 0x12 => formatAB w .dbRd
  | 0x13 => formatA 8 w .dbAdv
  | 0x14 => formatA 8 w .dbPeek
  | 0x15 => formatAB w .dbMpos
  | 0x20 => formatZ w .ipCfg
  | 0x21 => formatA 8 w .ipLin
  | 0x22 => formatA 8 w .ipBl
  | 0x23 => formatA 8 w .ipRd
  | 0x30 => formatA 3 w .modCfg
  | 0x31 => formatA 3 w .modNext
  | 0x40 => formatA 7 w .apCfg
  | 0x41 => formatA 7 w .cbCfg
  | 0x42 => formatA 7 w .lpcCfg
  | 0x44 => formatAS 7 w .apTick
  | 0x45 => formatAS 7 w .cbTick
  | 0x46 => formatAS 7 w .lpcTick
  | 0x50 => formatABS 1 w fun a b => .serTick a b (srcField w)
  | 0x51 => formatABS 2 w fun a b => .parTick a b (srcField w) (clampField w)
  | 0x52 => formatZ w .mixSet
  | 0x53 => formatKS w .mix
  | 0x60 => formatG w
  | 0x61 => formatS w .tick
  | 0x62 => formatN w .block
  | _ => .error .undefinedOpcode

/-- The host's question: what the decoder reads from the bits `w` of a table row. Every row has one 32-bit word
(R80), so `nbits` is 32 and the word is taken as it stands. -/
def decodeTableWord (_nbits w : Nat) : Option Instr := (decode (BitVec.ofNat 32 w)).toOption

/-! ### The encoder -/

/-- A word from its four fields (R81). -/
def wordOf (opc : BitVec 8) (a b : BitVec 4) (imm : BitVec 16) : CmdWord := opc ++ a ++ b ++ imm

/-- A word of the K formats. -/
def wordOfK (opc : BitVec 8) (k : PNum) (imm : BitVec 16) : CmdWord := opc ++ (0 : BitVec 3) ++ BitVec.ofFin (w := 5) k ++ imm

def num4 {n : Nat} (x : Fin n) : BitVec 4 := BitVec.ofNat 4 x.val

def Src.bit : Src → BitVec 16
  | .din => 0
  | .r => 1

/-- The word of a command (R82, R85). -/
def encode : Instr → CmdWord
  | .nop => wordOf 0x00 0 0 0
  | .reset => wordOf 0x01 0 0 0
  | .pld k => wordOfK 0x02 k 0
  | .pmv k => wordOfK 0x03 k 0
  | .ctxSet => wordOf 0x04 0 0 0
  | .start => wordOf 0x05 0 0 0
  | .stop => wordOf 0x06 0 0 0
  | .dbAlloc b nt => wordOf 0x10 (num4 b) (num4 nt) 0
  | .dbWr b src => wordOf 0x11 (num4 b) 0 src.bit
  | .dbRd b t => wordOf 0x12 (num4 b) (num4 t) 0
  | .dbAdv b => wordOf 0x13 (num4 b) 0 0
  | .dbPeek b => wordOf 0x14 (num4 b) 0 0
  | .dbMpos b t => wordOf 0x15 (num4 b) (num4 t) 0
  | .ipCfg => wordOf 0x20 0 0 0
  | .ipLin b => wordOf 0x21 (num4 b) 0 0
  | .ipBl b => wordOf 0x22 (num4 b) 0 0
  | .ipRd b => wordOf 0x23 (num4 b) 0 0
  | .modCfg m => wordOf 0x30 (num4 m) 0 0
  | .modNext m => wordOf 0x31 (num4 m) 0 0
  | .apCfg u => wordOf 0x40 (num4 u) 0 0
  | .cbCfg u => wordOf 0x41 (num4 u) 0 0
  | .lpcCfg u => wordOf 0x42 (num4 u) 0 0
  | .apTick u src => wordOf 0x44 (num4 u) 0 src.bit
  | .cbTick u src => wordOf 0x45 (num4 u) 0 src.bit
  | .lpcTick u src => wordOf 0x46 (num4 u) 0 src.bit
  | .serTick a b src => wordOf 0x50 (num4 a) (num4 b) src.bit
  | .parTick a b src c => wordOf 0x51 (num4 a) (num4 b) (src.bit ||| if c then 2 else 0)
  | .mixSet => wordOf 0x52 0 0 0
  | .mix k src => wordOfK 0x53 k src.bit
  | .cfgSd => wordOf 0x60 1 0 0
  | .cfgDd => wordOf 0x60 2 0 0
  | .cfgFd => wordOf 0x60 3 0 0
  | .cfgMc => wordOf 0x60 4 0 0
  | .cfgFc => wordOf 0x60 5 0 0
  | .cfgRv1 => wordOf 0x60 6 0 0
  | .cfgRv2 => wordOf 0x60 7 0 0
  | .cfgRv3 => wordOf 0x60 8 0 0
  | .tick src => wordOf 0x61 0 0 src.bit
  | .block n => wordOf 0x62 0 0 n

end Sys2Proof
end

