-- ==== Sys2Proof/Config.lean ====
section
/-! DEFINITION. What the spec fixes once and for all (R7, R8), what it leaves to the implementation (the open
parameters of R9), and the free values. A parameter record is plain data; the block's own record is an opaque
constant brought into the constraints of R9, so no proof can read a value out of it (log 2). -/

namespace Sys2Proof

/-- Modulator waveforms (R30). -/
inductive Shape where
  | sine | saw | triangle | square
deriving DecidableEq, Repr, Inhabited

/-- Interpolation policies (R32). -/
inductive Policy where
  | linear | bandlimited
deriving DecidableEq, Repr, Inhabited

/-- Which function stands for an open function of R9: the spec's reference formula, or some other function that
meets the spec's constraints on it. -/
inductive Variant where
  | reference | other
deriving DecidableEq, Repr, Inhabited

/-- Default shape, frequency and depth of one modulator of the MultiChorus whole-unit default. -/
structure ModDefault where
  shape : Shape
  freq : Rat
  depth : Rat
deriving DecidableEq, Repr, Inhabited

/-- `DEF.mc_cfg`, the whole-unit default of a MultiChorus (R201): "a valid 19-value set". -/
structure McDefault where
  dry : Rat
  wet : Rat
  taps : Nat
  delays : Vector Rat 3
  mods : Nat
  mod0 : ModDefault
  mod1 : ModDefault
  mod2 : ModDefault
  policy : Policy
  stdf : Rat
  newf : Rat
deriving DecidableEq, Repr, Inhabited

/-- `DEF`, the record of default values (R9). `DEF.mix` is not a field: the spec fixes it at 50 (R224). -/
structure Defaults where
  sdDry : Rat
  sdWet : Rat
  sdDelay : Rat
  ddDry : Rat
  ddWet1 : Rat
  ddWet2 : Rat
  ddDelay1 : Rat
  ddDelay2 : Rat
  fdGain : Rat
  fdDecay : Rat
  fdDelay : Rat
  fcGain : Rat
  fcDecay : Rat
  fcDelay : Rat
  mcDry : Rat
  mcWet : Rat
  mcDelay : Vector Rat 3
  mcCfg : McDefault
  fuDelay : Rat
  fuDecay : Rat
  fuDecay2 : Rat
  shape : Shape
  freq : Rat
  depth : Rat
  policy : Policy
  stdf : Rat
  newf : Rat
deriving DecidableEq, Repr, Inhabited

/-- The open parameters of R9 as plain data. -/
structure Params where
  /-- Largest capacity of one delay buffer. -/
  lmax : Nat
  /-- Largest modulator table length. -/
  nmax : Nat
  maxSd : Rat
  maxDd : Rat
  maxFd : Rat
  maxMc : Rat
  maxFc : Rat
  /-- `MAXMS_FU`. -/
  maxFu : Rat
  /-- Extra cells of an effect buffer. -/
  margin : Nat
  defs : Defaults
  /-- Which `clampS` (R23). -/
  clamp : Variant
  /-- Which `SAW` (R145). -/
  saw : Variant
  /-- Which `TRI` (R146). -/
  tri : Variant
deriving DecidableEq, Repr, Inhabited

/-! ### The constraints of R9 -/

abbrev inUnit (q : Rat) : Prop := 0 ≤ q ∧ q ≤ 1
abbrev inPercent (q : Rat) : Prop := 0 ≤ q ∧ q ≤ 100
abbrev inDecay (q : Rat) : Prop := 0 ≤ q ∧ q < 100
abbrev inDelay (maxMs q : Rat) : Prop := 0 ≤ q ∧ q ≤ maxMs
abbrev inFreq (q : Rat) : Prop := 1 / 2 ≤ q ∧ q ≤ 10
abbrev inDepth (q : Rat) : Prop := 0 ≤ q ∧ q ≤ 99 / 100

abbrev ModDefault.Valid (m : ModDefault) : Prop := inFreq m.freq ∧ inDepth m.depth

abbrev McDefault.Valid (maxMs : Rat) (m : McDefault) : Prop :=
  inPercent m.dry ∧ inPercent m.wet ∧ (1 ≤ m.taps ∧ m.taps ≤ 3) ∧
  (∀ k : Fin 3, inDelay maxMs m.delays[k]) ∧ (1 ≤ m.mods ∧ m.mods ≤ 3) ∧
  m.mod0.Valid ∧ m.mod1.Valid ∧ m.mod2.Valid ∧ 0 < m.stdf ∧ 0 < m.newf

/-- "each default lies in its field's valid range" (R9). -/
abbrev Defaults.Valid (p : Params) (d : Defaults) : Prop :=
  (inUnit d.sdDry ∧ inUnit d.sdWet ∧ inDelay p.maxSd d.sdDelay) ∧
  (inUnit d.ddDry ∧ inUnit d.ddWet1 ∧ inUnit d.ddWet2 ∧ inDelay p.maxDd d.ddDelay1 ∧ inDelay p.maxDd d.ddDelay2) ∧
  (inUnit d.fdGain ∧ inDecay d.fdDecay ∧ inDelay p.maxFd d.fdDelay) ∧
  (inUnit d.fcGain ∧ inDecay d.fcDecay ∧ inDelay p.maxFc d.fcDelay) ∧
  (inPercent d.mcDry ∧ inPercent d.mcWet ∧ (∀ k : Fin 3, inDelay p.maxMc d.mcDelay[k]) ∧ d.mcCfg.Valid p.maxMc) ∧
  (inDelay p.maxFu d.fuDelay ∧ inDecay d.fuDecay ∧ inDecay d.fuDecay2) ∧
  (inFreq d.freq ∧ inDepth d.depth) ∧ (0 < d.stdf ∧ 0 < d.newf)

/-- The constraints R9 puts on the open parameters. -/
abbrev Params.Valid (p : Params) : Prop :=
  1 ≤ p.lmax ∧ 1 ≤ p.nmax ∧ 0 < p.maxSd ∧ 0 < p.maxDd ∧ 0 < p.maxFd ∧ 0 < p.maxMc ∧ 0 < p.maxFc ∧
  0 < p.maxFu ∧ 1 ≤ p.margin ∧ p.defs.Valid p

/-! ### Bringing arbitrary data into the constraints (the identity on data that meets them) -/

def intoCC (lo hi q : Rat) : Rat := if lo ≤ q ∧ q ≤ hi then q else lo
def intoCO (lo hi q : Rat) : Rat := if lo ≤ q ∧ q < hi then q else lo
def intoPos (q : Rat) : Rat := if 0 < q then q else 1
def intoCount (n : Nat) : Nat := if 1 ≤ n ∧ n ≤ 3 then n else 1

def ModDefault.confine (m : ModDefault) : ModDefault :=
  { shape := m.shape, freq := intoCC (1 / 2) 10 m.freq, depth := intoCC 0 (99 / 100) m.depth }

def McDefault.confine (maxMs : Rat) (m : McDefault) : McDefault :=
  { dry := intoCC 0 100 m.dry, wet := intoCC 0 100 m.wet, taps := intoCount m.taps
    delays := m.delays.map (intoCC 0 maxMs), mods := intoCount m.mods
    mod0 := m.mod0.confine, mod1 := m.mod1.confine, mod2 := m.mod2.confine
    policy := m.policy, stdf := intoPos m.stdf, newf := intoPos m.newf }

def Defaults.confine (p : Params) (d : Defaults) : Defaults :=
  { sdDry := intoCC 0 1 d.sdDry, sdWet := intoCC 0 1 d.sdWet, sdDelay := intoCC 0 p.maxSd d.sdDelay
    ddDry := intoCC 0 1 d.ddDry, ddWet1 := intoCC 0 1 d.ddWet1, ddWet2 := intoCC 0 1 d.ddWet2
    ddDelay1 := intoCC 0 p.maxDd d.ddDelay1, ddDelay2 := intoCC 0 p.maxDd d.ddDelay2
    fdGain := intoCC 0 1 d.fdGain, fdDecay := intoCO 0 100 d.fdDecay, fdDelay := intoCC 0 p.maxFd d.fdDelay
    fcGain := intoCC 0 1 d.fcGain, fcDecay := intoCO 0 100 d.fcDecay, fcDelay := intoCC 0 p.maxFc d.fcDelay
    mcDry := intoCC 0 100 d.mcDry, mcWet := intoCC 0 100 d.mcWet
    mcDelay := d.mcDelay.map (intoCC 0 p.maxMc), mcCfg := d.mcCfg.confine p.maxMc
    fuDelay := intoCC 0 p.maxFu d.fuDelay, fuDecay := intoCO 0 100 d.fuDecay, fuDecay2 := intoCO 0 100 d.fuDecay2
    shape := d.shape, freq := intoCC (1 / 2) 10 d.freq, depth := intoCC 0 (99 / 100) d.depth
    policy := d.policy, stdf := intoPos d.stdf, newf := intoPos d.newf }

/-- The sizes and maxima brought into their constraints, the defaults as they stand. -/
def Params.confineSizes (p : Params) : Params :=
  { p with
    lmax := max 1 p.lmax, nmax := max 1 p.nmax, margin := max 1 p.margin
    maxSd := intoPos p.maxSd, maxDd := intoPos p.maxDd, maxFd := intoPos p.maxFd
    maxMc := intoPos p.maxMc, maxFc := intoPos p.maxFc, maxFu := intoPos p.maxFu }

def Params.confine (p : Params) : Params :=
  { p.confineSizes with defs := p.defs.confine p.confineSizes }

namespace Config

/-- Whatever the implementation fixed for the open parameters of R9: no body, so no value of it can be proved. -/
opaque givenParams : Params

/-- The open parameters of this block (log 2). -/
def params : Params := givenParams.confine

/-! ### Constants of R7 -/

/-- `EPS`, the integral-position threshold. -/
def eps : Rat := 1 / 100000

/-- `CLAMP`, the filter-primitive output bound. -/
def clamp : Rat := 9999 / 10000

/-- `W`, the half-width of the bandlimited kernel. -/
def halfWidth : Nat := 256

/-- `DEF.mix`, "the one default value the source states" (R224). -/
def defMix : Rat := 50

/-! ### Free values and open functions without a body -/

/-- The n-th free value: a number the spec leaves open, with nothing constrained (log 3, log 4). -/
opaque free : Nat → Num

/-- `sin` at π·z for 0 < z < 1/2, where the exact value is not one of the rational ones (log 5). -/
opaque sinGiven : Rat → Rat

/-- The constant π as the number format holds it (log 5). -/
opaque piGiven : Rat

/-- Some other `SAW`, `TRI` or `clampS` (log 6). -/
opaque sawGiven : Nat → Nat → Rat → Rat
opaque triGiven : Nat → Nat → Rat → Rat
opaque clampGiven : Rat → Rat

end Config

end Sys2Proof
end

