-- ==== Sys2Proof/Machine/State.lean ====
section
/-! DEFINITION. Everything the spec gives the block (R21), as plain data, and its value after reset (R41). Two
groups of fields are the model's own and not the spec's: the levels and values the host drives (`port`, `pending`,
`dout`; log 7, log 9) and the constants of the model's arguments (`params`, log 2; `draws`, log 3). -/

namespace Sys2Proof.Machine

/-- `MODE` (R25). -/
inductive Mode where
  | stopped | running
deriving DecidableEq, Repr, Inhabited

/-- `CAUSE` (R34, R285). Codes 7..15 are reserved and never written, so they are not values of it. -/
inductive Cause where
  /-- 0: no fault since reset. -/
  | none
  /-- 1: the word is illegal (R86). -/
  | illegalCmd
  /-- 2: a command of the wrong class for the mode (R292, R293). -/
  | modeViolation
  /-- 3: a capacity above `LMAX` or a table length above `NMAX` (R282). -/
  | resourceExhaustion
  /-- 4: the instance a command needs is not there. -/
  | notReady
  /-- 5: an operand of a primitive command is out of its range, or not a number. -/
  | badOperand
  /-- 6: `SRATE` was never set. -/
  | noContext
deriving DecidableEq, Repr, Inhabited

/-- One tap of a delay buffer: its delay in samples and its read pointer (R27, R29). -/
structure Tap where
  /-- `D`. -/
  delay : Nat
  /-- `rp`, negative during warm-up. -/
  rp : Int
deriving DecidableEq, Repr, Inhabited

/-- The cells of a sample store: strictly rising cell indices, no entry equal to 0. A cell that is not listed
holds 0, which is what allocation writes to every cell (R102, R75; log 11). -/
abbrev Memory := List (Nat × Num)

/-- An allocated delay buffer (R27): `ntap` is the length of `taps`. -/
structure Db where
  /-- `L`. -/
  len : Nat
  /-- `mem[0..L-1]`. -/
  mem : Memory
  /-- `wp`. -/
  wp : Nat
  /-- `T[0..ntap-1]`. -/
  taps : List Tap
deriving DecidableEq, Repr, Inhabited

/-- A configured modulator (R30): `N` is the length of `tab`. -/
structure Modulator where
  shape : Shape
  freq : Rat
  depth : Rat
  /-- `tab[0..N-1]`. -/
  tab : List Rat
  idx : Nat
deriving DecidableEq, Repr, Inhabited

/-- Types of filter unit (R31) other than NONE. -/
inductive FuType where
  /-- Allpass. -/
  | ap
  /-- Comb. -/
  | cb
  /-- LowPassComb. -/
  | lpc
deriving DecidableEq, Repr, Inhabited

/-- A configured filter unit (R31). -/
structure Fu where
  type : FuType
  g1 : Rat
  g2 : Rat
deriving DecidableEq, Repr, Inhabited

/-- `IP`, the interpolator configuration (R32). -/
structure Ip where
  policy : Policy
  stdf : Rat
  newf : Rat
deriving DecidableEq, Repr, Inhabited

/-- `UNIT.kind` (R37): 0 is none, 1..8 in this order. -/
inductive Kind where
  | none | sd | dd | fd | mc | fc | rv1 | rv2 | rv3
deriving DecidableEq, Repr, Inhabited

/-- `UNIT`, the active unit record (R37). -/
structure ActiveUnit where
  kind : Kind
  dry : Rat
  wet1 : Rat
  wet2 : Rat
  gain : Rat
  g : Rat
  nt : Nat
  nm : Nat
deriving DecidableEq, Repr, Inhabited

/-- What the input ports carry while one command executes (R40): the word on `CMD`, the values the host offers on
`DIN` in order (one for a single-sample command, n for `BLOCK n`), and the level of the `SRC_EXH` pin. -/
structure Ports where
  word : CmdWord
  din : List Num
  srcExh : Bool
deriving DecidableEq, Repr, Inhabited

/-- What the host can do to the block: offer one command (R262), or pull the hardware reset (R310). -/
inductive HostEvent where
  | command (ports : Ports)
  | hardwareReset
deriving DecidableEq, Repr, Inhabited

/-- The state of the block (R21). -/
structure State where
  /-- `P[0..31]` (R22). -/
  p : Vector Num 32
  /-- `R`, also what `DOUT` shows (R22). -/
  r : Num
  /-- `SRATE`, 0 when not set (R24). -/
  srate : Rat
  /-- `MODE` (R25). -/
  mode : Mode
  /-- `STATUS.FAULT` (R33). -/
  fault : Bool
  /-- `STATUS.WARM` (R33). -/
  warm : Bool
  /-- `STATUS.DEFSUB` (R33). -/
  defsub : Bool
  /-- `STATUS.EXH` (R33, R36). -/
  exh : Bool
  /-- `CAUSE` (R34). -/
  cause : Cause
  /-- `FCMD` (R34). -/
  fcmd : CmdWord
  /-- `DB[0..7]`; `none` is `alloc` = 0 (R27, R311; log 10). -/
  dbs : Vector (Option Db) 8
  /-- `MOD[0..2]`; `none` is `cfgd` = 0 (R30, R311; log 10). -/
  mods : Vector (Option Modulator) 3
  /-- `FU[0..6]`; `none` is `type` = NONE (R31, R311; log 10). -/
  fus : Vector (Option Fu) 7
  /-- `IP` (R32). -/
  ip : Ip
  /-- `MIXR` (R35). -/
  mixr : Rat
  /-- `UNIT` (R37). -/
  unit : ActiveUnit
  /-- The open parameters of R9, constant (log 2). -/
  params : Params
  /-- The input ports during the current command (log 7). -/
  port : Ports
  /-- What the host does next, in order (log 7). -/
  pending : List HostEvent
  /-- The values presented on `DOUT` by the current command, in order (log 9). -/
  dout : List Num
  /-- How many free values have been drawn (log 3). -/
  draws : Nat
deriving DecidableEq, Repr

/-- Reasons for a step to stop. There is none: a fault of this block is a state it enters (R284), so the model's
steps never end in a `Host.Outcome.fault`. -/
inductive Fault where
deriving DecidableEq, Repr

/-- Reasons to refuse a command. -/
inductive Refusal where
  /-- The command has no meaning yet; raised only by an arm of `exec`. Safe: nothing can be proved of its effect. -/
  | notModelled (mnemonic : String)
deriving DecidableEq, Repr

/-- No active unit, every scalar 0 (R41). -/
def ActiveUnit.idle : ActiveUnit :=
  { kind := .none, dry := 0, wet1 := 0, wet2 := 0, gain := 0, g := 0, nt := 0, nm := 0 }

/-- The state after reset (R41, R310). -/
def State.reset : State :=
  { p := .replicate 32 .zero
    r := .zero
    srate := 0
    mode := .stopped
    fault := false
    warm := false
    defsub := false
    exh := false
    cause := .none
    fcmd := 0
    dbs := .replicate 8 none
    mods := .replicate 3 none
    fus := .replicate 7 none
    ip := { policy := .linear, stdf := 1, newf := 1 }
    mixr := 1 / 2
    unit := .idle
    params := Config.params
    port := { word := 0, din := [], srcExh := false }
    pending := []
    dout := []
    draws := 0 }

end Sys2Proof.Machine
end

