-- ==== Sys2Proof/Machine/Numeric.lean ====
section
/-! DEFINITION. The numeric functions of the rules: floor, floored modulus, rounding and the ms-to-samples
conversion (R11, R14, R265, R266), `sin` and `sinc` (R12, R123), the clamps (R15, R23) and the waveforms
(R143 to R146). -/

namespace Sys2Proof.Machine

/-- `floor`, the greatest integer below or at `v` (R11). -/
def floorInt (v : Rat) : Int := v.floor

/-- `a mod L` for a real `a`: `a - L * floor(a / L)`, in [0, L) for L ≥ 1 (R11). -/
def floorMod (a : Rat) (len : Nat) : Rat := a - (len : Rat) * (floorInt (a / (len : Rat)) : Rat)

/-- `a mod L` for an integer `a`, as a cell index (R11). -/
def indexMod (a : Int) (len : Nat) : Nat := (a % (len : Int)).toNat

/-- `trunc`, towards zero (R11). -/
def truncInt (v : Rat) : Int := if 0 ≤ v then floorInt v else -floorInt (-v)

/-- `round`, halves away from zero (R14). -/
def roundInt (v : Rat) : Int := if 0 ≤ v then floorInt (v + 1 / 2) else -floorInt (-v + 1 / 2)

/-- `ms2smp(ms) = floor(ms * SRATE / 1000)`, for a delay that is not negative (R14). -/
def ms2smp (srate ms : Rat) : Nat := (floorInt (ms * srate / 1000)).toNat

/-- A percent parameter as it is stored (R13). -/
def percent (pct : Rat) : Rat := pct / 100

/-! ### `sin`, π and `sinc` -/

/-- `sin(π z)` for 0 ≤ z ≤ 1/2: exact where the exact value is rational, otherwise a value strictly between 0 and 1
that nothing else is known of (DEDUCED, log 5). -/
def sinQuarter (z : Rat) : Rat :=
  if z = 0 then 0
  else if z = 1 / 6 then 1 / 2
  else if z = 1 / 2 then 1
  else if 0 < Config.sinGiven z ∧ Config.sinGiven z < 1 then Config.sinGiven z
  else 1 / 2

/-- `sin(π y)` for 0 ≤ y < 1: symmetric about 1/2. -/
def sinHalf (y : Rat) : Rat := if y ≤ 1 / 2 then sinQuarter y else sinQuarter (1 - y)

/-- `sin(π x)`: period 2, the second half period the negative of the first. -/
def sinPi (x : Rat) : Rat :=
  let y := floorMod x 2
  if y < 1 then sinHalf y else -sinHalf (y - 1)

/-- The constant π of the number format: some number between 3 and 4 (DEDUCED, log 5). -/
def piConst : Rat := if 3 < Config.piGiven ∧ Config.piGiven < 4 then Config.piGiven else 22 / 7

/-- `sinc(0) = 1`, `sinc(x) = sin(π x) / (π x)` (R123). -/
def sinc (x : Rat) : Rat := if x = 0 then 1 else sinPi x / (piConst * x)

/-! ### Clamps -/

/-- `clamp9999(v) = min(max(v, -0.9999), 0.9999)` of a number (R15). -/
def clamp9999 (v : Rat) : Rat := min (max v (-Config.clamp)) Config.clamp

/-- `clampS` of a number (R23): the reference clamp, or some other function that is the identity on
[-0.9999, 0.9999] and maps into [-1, 1) (log 6). -/
def clampSample (p : Params) (v : Rat) : Rat :=
  match p.clamp with
  | .reference => clamp9999 v
  | .other =>
    if -Config.clamp ≤ v ∧ v ≤ Config.clamp then v
    else if -1 ≤ Config.clampGiven v ∧ Config.clampGiven v < 1 then Config.clampGiven v
    else clamp9999 v

/-! ### Waveforms: entry `i` of a table of `n` (R143 to R146) -/

/-- `1 + depth * sin(2π * i / N)` (R143). -/
def sineWave (i n : Nat) (depth : Rat) : Rat := 1 + depth * sinPi (2 * i / n)

/-- `1 - depth` in the first half, `1 + depth` in the second (R144). -/
def squareWave (i n : Nat) (depth : Rat) : Rat := if 2 * i < n then 1 - depth else 1 + depth

/-- The reference `SAW` (R145): with t = i/N and u = 2t or 2t - 2. -/
def sawReference (i n : Nat) (depth : Rat) : Rat :=
  let t : Rat := i / n
  let u : Rat := if 2 * i < n then 2 * t else 2 * t - 2
  1 + 2 * depth * u

/-- The reference `TRI` (R146): with v = 2i/N. -/
def triReference (i n : Nat) (depth : Rat) : Rat :=
  let v : Rat := 2 * i / n
  1 + depth * (1 - 2 * |v - 1|)

/-- `SAW` (R145): the reference, or some other function with values in [1 - 2 depth, 1 + 2 depth] (log 6). -/
def sawWave (p : Params) (i n : Nat) (depth : Rat) : Rat :=
  match p.saw with
  | .reference => sawReference i n depth
  | .other =>
    if 1 - 2 * depth ≤ Config.sawGiven i n depth ∧ Config.sawGiven i n depth ≤ 1 + 2 * depth then Config.sawGiven i n depth
    else sawReference i n depth

/-- `TRI` (R146): the reference, or some other function with values in [1 - depth, 1 + depth] (log 6). -/
def triWave (p : Params) (i n : Nat) (depth : Rat) : Rat :=
  match p.tri with
  | .reference => triReference i n depth
  | .other =>
    if 1 - depth ≤ Config.triGiven i n depth ∧ Config.triGiven i n depth ≤ 1 + depth then Config.triGiven i n depth
    else triReference i n depth

/-- `wave(shape, i, N, depth)`. -/
def wave (p : Params) (shape : Shape) (i n : Nat) (depth : Rat) : Rat :=
  match shape with
  | .sine => sineWave i n depth
  | .saw => sawWave p i n depth
  | .triangle => triWave p i n depth
  | .square => squareWave i n depth

end Sys2Proof.Machine
end

