-- ==== Sys2Proof/Machine/Operands.lean ====
section
/-! DEFINITION. Operand forms: the input sample X (R16, R84), parameter registers as numbers and integers (R83,
R266), and the validation helpers (R17). -/

namespace Sys2Proof.Machine

/-- Draws a free value: nothing constrains it, and the next one drawn is another (log 3, log 4). -/
def State.draw (s : State) : State × Num := ({ s with draws := s.draws + 1 }, Config.free s.draws)

/-- The k-th value on `DIN` during this command (k = 0 for a single-sample command). Where the host offers none,
the port carries some value the spec does not give: a free value (DESIGN CHOICE, log 3). -/
def State.dinAt (s : State) (k : Nat) : State × Num :=
  match s.port.din[k]? with
  | some v => (s, v)
  | none => s.draw

/-- The input sample X: `DIN` when `S = 0`, `R` when `S = 1`, and then `DIN` is not read (R84). -/
def State.input (s : State) (src : Src) : State × Num :=
  match src with
  | .din => s.dinAt 0
  | .r => (s, s.r)

/-- A fault check in a rule: `if not ok: raise F(cause)`. -/
def require (ok : Bool) (cause : Cause) : Except Cause Unit :=
  if ok then .ok () else .error cause

/-- The number in an operand that must pass a test, else `raise F(BAD_OPERAND)`; what is not a number fails (R269). -/
def operand (v : Num) (ok : Rat → Bool) : Except Cause Rat :=
  match v with
  | .val q => if ok q then .ok q else .error .badOperand
  | .nan => .error .badOperand

/-- An operand that may be any number (a position, an index, a factor): only NaN is bad (R269). -/
def anyNumber (v : Num) : Except Cause Rat := operand v fun _ => true

/-! ### Validation (R17) -/

/-- `inCC`: lo ≤ v and v ≤ hi. -/
def inCC (lo hi : Rat) (q : Rat) : Bool := decide (lo ≤ q ∧ q ≤ hi)

/-- `inCO`: lo ≤ v and v < hi. -/
def inCO (lo hi : Rat) (q : Rat) : Bool := decide (lo ≤ q ∧ q < hi)

/-- `v > 0`. -/
def positive (q : Rat) : Bool := decide (0 < q)

/-- `isInt`: v equals an integer n with lo ≤ n ≤ hi. -/
def isInt (lo hi : Int) (q : Rat) : Bool := decide (q.den = 1 ∧ lo ≤ q.num ∧ q.num ≤ hi)

/-- The value of `sub(v, ok, d)`: `v` when it is a number in range, otherwise the default. -/
def validated (v : Num) (ok : Rat → Bool) (d : Rat) : Rat :=
  match v with
  | .val q => if ok q then q else d
  | .nan => d

/-- A shape code 0..3 (R141). -/
def shapeOf (q : Rat) : Shape :=
  if q = 0 then .sine else if q = 1 then .saw else if q = 2 then .triangle else .square

/-- `sub(s, isInt(s, 0, 3), DEF.shape)`. -/
def validatedShape (v : Num) (d : Shape) : Shape :=
  match v with
  | .val q => if isInt 0 3 q then shapeOf q else d
  | .nan => d

/-- "P = 0 or P = 1" (R121). -/
def isPolicy (q : Rat) : Bool := decide (q = 0 ∨ q = 1)

/-- `sub(p, p = 0 or p = 1, DEF.policy)`. -/
def validatedPolicy (v : Num) (d : Policy) : Policy :=
  match v with
  | .val q => if q = 0 then .linear else if q = 1 then .bandlimited else d
  | .nan => d

/-- A count read from a register that passed `isInt`. -/
def countOf (v : Num) : Nat :=
  match v with
  | .val q => q.num.toNat
  | .nan => 0

/-! ### Instance selectors -/

/-- The delay buffer of filter unit `u` (R27). -/
def filterDb (u : FuNum) : DbNum := u.castSucc

/-- `DB[7]`, the effect buffer. -/
def effectDb : DbNum := 7

/-- The filter units `a..b`, ascending. -/
def unitRange (a b : FuNum) : List FuNum := [0, 1, 2, 3, 4, 5, 6].filter fun u => a ≤ u ∧ u ≤ b

end Sys2Proof.Machine
end

