-- ==== Sys2Proof/Machine/Flags.lean ====
section
/-! DEFINITION. The status flags: who writes each, and the `STATUS`, `DOUT` and `FAULT_OUT` ports (R33 to R36, R40). -/

namespace Sys2Proof.Machine

/-- `DEFSUB` after the range tests of a command: set when any field failed its test, never cleared here (R17, R33). -/
def State.noteSubst (s : State) (oks : List Bool) : State :=
  { s with defsub := s.defsub || oks.any not }

/-- `EXH <- SRC_EXH`, at the end of `TICK` and `BLOCK` (R36). -/
def State.latchExh (s : State) : State := { s with exh := s.port.srcExh }

/-- `WARM`, written by `DB.RD` only (R105). -/
def State.setWarm (s : State) (w : Bool) : State := { s with warm := w }

/-! ### Ports (R40) -/

def Mode.bit : Mode → BitVec 1
  | .stopped => 0
  | .running => 1

/-- The codes of R285. -/
def Cause.code : Cause → BitVec 4
  | .none => 0
  | .illegalCmd => 1
  | .modeViolation => 2
  | .resourceExhaustion => 3
  | .notReady => 4
  | .badOperand => 5
  | .noContext => 6

/-- The numbering of R37. -/
def Kind.code : Kind → BitVec 4
  | .none => 0
  | .sd => 1
  | .dd => 2
  | .fd => 3
  | .mc => 4
  | .fc => 5
  | .rv1 => 6
  | .rv2 => 7
  | .rv3 => 8

/-- The `STATUS` register (R33): KIND 15:12, CAUSE 11:8, EXH 4, DEFSUB 3, WARM 2, FAULT 1, MODE 0, the rest 0. -/
def State.status (s : State) : BitVec 32 :=
  (0 : BitVec 16) ++ s.unit.kind.code ++ s.cause.code ++ (0 : BitVec 3) ++ BitVec.ofBool s.exh ++
    BitVec.ofBool s.defsub ++ BitVec.ofBool s.warm ++ BitVec.ofBool s.fault ++ s.mode.bit

/-- The `STATUS` port: `STATUS` and, as its second word, `FCMD` (R34). -/
def State.statusPort (s : State) : BitVec 32 × CmdWord := (s.status, s.fcmd)

/-- The level of `DOUT`, always equal to `R` (R40). -/
def State.doutPort (s : State) : Num := s.r

/-- `FAULT_OUT`, always equal to `STATUS.FAULT` (R40). -/
def State.faultOut (s : State) : Bool := s.fault

end Sys2Proof.Machine
end

