-- ==== Sys2Proof/Machine/Ops.lean ====
section
/-! DEFINITION. The shared operations: cells (R60 to R62), the micro-operations of a delay buffer (R101), register
writes, entering the fault state and leaving it (R284, R251), the checks every command makes (R288), and taking
the host's next event (R262). -/

namespace Sys2Proof.Machine

/-! ### Cells -/

/-- One cell; a cell that is not listed holds 0. -/
def memRead : Memory → Nat → Num
  | [], _ => .zero
  | (a, v) :: m, i => if a = i then v else memRead m i

/-- Writes one cell and keeps the canonical form. -/
def memWrite : Memory → Nat → Num → Memory
  | [], i, v => if v = .zero then [] else [(i, v)]
  | (a, w) :: m, i, v =>
    if i < a then (if v = .zero then (a, w) :: m else (i, v) :: (a, w) :: m)
    else if i = a then (if v = .zero then m else (i, v) :: m)
    else (a, w) :: memWrite m i v

/-- The canonical form: strictly rising indices, every one at least `lo`, no entry that holds 0. -/
def Memory.wfFrom : Nat → Memory → Bool
  | _, [] => true
  | lo, (a, v) :: m => decide (lo ≤ a) && decide (v ≠ .zero) && Memory.wfFrom (a + 1) m

def Memory.wf (m : Memory) : Bool := Memory.wfFrom 0 m

/-! ### Delay buffers (R101) -/

/-- A freshly allocated buffer: every cell 0, `wp` = 0, each tap at `rp` = -D. -/
def Db.alloc (len : Nat) (delays : List Nat) : Db :=
  { len := len, mem := [], wp := 0, taps := delays.map fun d => { delay := d, rp := -(d : Int) } }

/-- `MemRead(b, a)` (R61). -/
def Db.read (db : Db) (a : Int) : Num := memRead db.mem (indexMod a db.len)

/-- `write(b, v)`: store at `wp`, then advance it. -/
def Db.write (db : Db) (v : Num) : Db :=
  { db with mem := memWrite db.mem db.wp v, wp := (db.wp + 1) % db.len }

/-- One tap pointer advanced by one sample (R29). -/
def Tap.advance (len : Nat) (t : Tap) : Tap :=
  { t with rp := if t.rp < 0 then t.rp + 1 else (t.rp + 1) % (len : Int) }

/-- `advance(b)`: every tap by one sample. -/
def Db.advance (db : Db) : Db := { db with taps := db.taps.map (Tap.advance db.len) }

/-- A tap in use; `t ≥ ntap` raises NOT_READY (R105). -/
def Db.tap (db : Db) (t : Nat) : Except Cause Tap :=
  match db.taps[t]? with
  | some tap => .ok tap
  | none => .error .notReady

/-- `tapval` when the tap is warm (`rp ≥ 0`), nothing while it is not (R103). -/
def Db.tapval (db : Db) (tap : Tap) : Option Num :=
  if 0 ≤ tap.rp then some (memRead db.mem tap.rp.toNat) else none

/-! ### State access -/

/-- `DB[b]`, or NOT_READY when it is not allocated. -/
def State.buffer (s : State) (b : DbNum) : Except Cause Db :=
  match s.dbs[b] with
  | some db => .ok db
  | none => .error .notReady

/-- `FU[u]`, or NOT_READY when its type is NONE. -/
def State.filter (s : State) (u : FuNum) : Except Cause Fu :=
  match s.fus[u] with
  | some fu => .ok fu
  | none => .error .notReady

def State.setDb (s : State) (b : DbNum) (db : Db) : State := { s with dbs := s.dbs.set b (some db) }

def State.setMod (s : State) (m : ModNum) (md : Modulator) : State := { s with mods := s.mods.set m (some md) }

def State.setFu (s : State) (u : FuNum) (fu : Option Fu) : State := { s with fus := s.fus.set u fu }

/-- `P[k] <- v` (R22). -/
def State.setP (s : State) (k : PNum) (v : Num) : State := { s with p := s.p.set k v }

/-- `out v`: `R <- v`, and v is presented on `DOUT` (R16). -/
def State.out (s : State) (v : Num) : State := { s with r := v, dout := s.dout ++ [v] }

def State.setMode (s : State) (m : Mode) : State := { s with mode := m }

def State.setUnit (s : State) (u : ActiveUnit) : State := { s with unit := u }

/-! ### Clamps on any value; what a clamp makes of NaN is open (R269): a free value (log 4) -/

/-- `clamp9999`. -/
def State.clampFilter (s : State) (v : Num) : State × Num :=
  match v with
  | .val q => (s, .val (clamp9999 q))
  | .nan => s.draw

/-- `clampS`. -/
def State.clampS (s : State) (v : Num) : State × Num :=
  match v with
  | .val q => (s, .val (clampSample s.params q))
  | .nan => s.draw

/-! ### Faults and reset -/

/-- Fault entry, `raise F(code)` (R284): `FAULT`, `CAUSE` and `FCMD`, and nothing else (R286). -/
def State.raise (s : State) (cause : Cause) : State :=
  { s with fault := true, cause := cause, fcmd := s.port.word }

/-- The reset state (R41), with what is not state of the block kept: its parameters, its ports, the host's events. -/
def State.toReset (s : State) : State :=
  { State.reset with
    params := s.params, port := s.port, pending := s.pending, dout := s.dout, draws := s.draws }

/-- The outcome of a rule's checks and effect: its result, or fault entry from the state before it, so that a
command that faults changes nothing else (R286). -/
def State.settle (s : State) (result : Except Cause State) : Host.Outcome State Fault Refusal :=
  match result with
  | .ok t => .next t
  | .error cause => .next (s.raise cause)

/-- The mode check by class (R292, R293). -/
def legalIn : CmdClass → Mode → Bool
  | .any, _ => true
  | .cfg, .stopped => true
  | .cfg, .running => false
  | .data, .stopped => false
  | .data, .running => true

/-- One command other than `RESET`: ignored while `FAULT` = 1 (R287), then the mode check, then its own checks and
its effect (R288). -/
def State.command (s : State) (cls : CmdClass) (body : State → Except Cause State) :
    Host.Outcome State Fault Refusal :=
  if s.fault then .next s
  else if legalIn cls s.mode then s.settle (body s)
  else .next (s.raise .modeViolation)

/-- An illegal word: ILLEGAL_CMD (R86), unless the fault state already ignores it (R287). -/
def State.illegal (s : State) : Host.Outcome State Fault Refusal :=
  if s.fault then .next s else .next (s.raise .illegalCmd)

/-! ### The host's next event -/

/-- The event the sequencer takes next, and the state with it taken off the stream: a command's ports are driven
for the whole of it, and `DOUT` has presented nothing yet. -/
inductive Taken where
  | nothing
  | command (s : State)
  | hardwareReset (s : State)

def State.takeEvent (s : State) : Taken :=
  match s.pending with
  | [] => .nothing
  | .command ports :: rest => .command { s with port := ports, pending := rest, dout := [] }
  | .hardwareReset :: rest => .hardwareReset { s with pending := rest, dout := [] }

/-- The event that offers word `w` with nothing on `DIN` and the exhaustion pin low. -/
def offerWord (w : CmdWord) : HostEvent := .command { word := w, din := [], srcExh := false }

end Sys2Proof.Machine
end

