-- ==== Sys2Proof/Machine/System.lean ====
section
/-! DEFINITION. The system commands (R250 to R256). -/

namespace Sys2Proof.Machine

/-- `NOP` (R250): nothing. -/
def execNop (s : State) : Host.Outcome State Fault Refusal :=
  s.command .any fun s => .ok s

/-- `RESET` (R251): the reset state; the one command that executes while `FAULT` = 1 (R287). -/
def execReset (s : State) : Host.Outcome State Fault Refusal := .next s.toReset

/-- `PLD k` (R252): `P[k] <- DIN`. -/
def execPld (k : PNum) (s : State) : Host.Outcome State Fault Refusal :=
  s.command .any fun s =>
    let (s, v) := s.dinAt 0
    .ok (s.setP k v)

/-- `PMV k` (R253): `P[k] <- R`. -/
def execPmv (k : PNum) (s : State) : Host.Outcome State Fault Refusal :=
  s.command .any fun s => .ok (s.setP k s.r)

/-- `CTX.SET` (R256): `SRATE <- P[0]`, which must be a number and at least 1. -/
def execCtxSet (s : State) : Host.Outcome State Fault Refusal :=
  s.command .cfg fun s => do
    let rate ← operand s.p[0] fun q => decide (1 ≤ q)
    .ok { s with srate := rate }

/-- `START` (R254): `MODE <- RUNNING`. -/
def execStart (s : State) : Host.Outcome State Fault Refusal :=
  s.command .any fun s => .ok (s.setMode .running)

/-- `STOP` (R255): `MODE <- STOPPED`. -/
def execStop (s : State) : Host.Outcome State Fault Refusal :=
  s.command .any fun s => .ok (s.setMode .stopped)

end Sys2Proof.Machine
end

