-- ==== Sys2Proof/Machine/Filters.lean ====
section
/-! DEFINITION. The filter primitives: configuration (R161, R164, R166) and one sample through each (R163, R165,
R167). -/

namespace Sys2Proof.Machine

/-- `fucfg(u, ty, ms, pct1, pct2)` (R161). The second decay is read and validated for a LowPassComb only. -/
def fucfg (u : FuNum) (ty : FuType) (ms pct1 pct2 : Num) (s : State) : Except Cause State := do
  require (decide (s.srate ≠ 0)) .noContext
  let d := s.params.defs
  let delayOk := inCC 0 s.params.maxFu
  let decayOk := inCO 0 100
  let delay := ms2smp s.srate (validated ms delayOk d.fuDelay)
  let len := delay + 1
  require (decide (len ≤ s.params.lmax)) .resourceExhaustion
  let g1 := percent (validated pct1 decayOk d.fuDecay)
  match ty with
  | .lpc =>
    let s := s.noteSubst [ms.passes delayOk, pct1.passes decayOk, pct2.passes decayOk]
    let s := s.setDb (filterDb u) (Db.alloc len [delay, delay + 1])
    .ok (s.setFu u (some { type := .lpc, g1 := g1, g2 := percent (validated pct2 decayOk d.fuDecay2) }))
  | .ap | .cb =>
    let s := s.noteSubst [ms.passes delayOk, pct1.passes decayOk]
    let s := s.setDb (filterDb u) (Db.alloc len [delay])
    .ok (s.setFu u (some { type := ty, g1 := g1, g2 := 0 }))

/-- `AP.CFG u` (R161). -/
def execApCfg (u : FuNum) (s : State) : Host.Outcome State Fault Refusal :=
  s.command .cfg fun s => fucfg u .ap s.p[0] s.p[1] .zero s

/-- `CB.CFG u` (R164). -/
def execCbCfg (u : FuNum) (s : State) : Host.Outcome State Fault Refusal :=
  s.command .cfg fun s => fucfg u .cb s.p[0] s.p[1] .zero s

/-- `LPC.CFG u` (R166). -/
def execLpcCfg (u : FuNum) (s : State) : Host.Outcome State Fault Refusal :=
  s.command .cfg fun s => fucfg u .lpc s.p[0] s.p[1] s.p[2] s

/-! ### One sample: the value stored and the output before the clamp. `none` is a tap that is not warm. -/

/-- Allpass (R163). -/
def apSample (g : Rat) (d : Option Num) (x : Num) : Num × Num :=
  match d with
  | none => (x, Num.scale (-g) x)
  | some d =>
    let stored := x.add (Num.scale g d)
    (stored, (Num.scale (-g) stored).add d)

/-- Comb (R165). -/
def cbSample (g : Rat) (d : Option Num) (x : Num) : Num × Num :=
  let stored := match d with
    | none => x
    | some d => x.add (Num.scale g d)
  (stored, Num.scale (-g) stored)

/-- LowPassComb (R167): `d0` of tap 0 and `d1` of tap 1. With tap 0 not warm the feedback term is omitted. -/
def lpcSample (g1 g2 : Rat) (d0 d1 : Option Num) (x : Num) : Num × Num :=
  let stored := match d0, d1 with
    | some d0, some d1 => x.add (Num.scale g1 (d0.add (Num.scale g2 d1)))
    | some d0, none => x.add (Num.scale g1 d0)
    | none, _ => x
  (stored, Num.scale (-g1) stored)

/-- The sample of a filter unit from its buffer, whatever its type. -/
def Fu.sample (fu : Fu) (db : Db) (x : Num) : Except Cause (Num × Num) := do
  let tap0 ← db.tap 0
  match fu.type with
  | .ap => .ok (apSample fu.g1 (db.tapval tap0) x)
  | .cb => .ok (cbSample fu.g1 (db.tapval tap0) x)
  | .lpc => do
    let tap1 ← db.tap 1
    .ok (lpcSample fu.g1 fu.g2 (db.tapval tap0) (db.tapval tap1) x)

/-- `futick(u, x)` (R162): read, compute, write, advance (R74); the output is clamped, the stored value is not
(R160). -/
def futick (u : FuNum) (x : Num) (s : State) : Except Cause (State × Num) := do
  let fu ← s.filter u
  let db ← s.buffer (filterDb u)
  let (stored, y) ← fu.sample db x
  let s := s.setDb (filterDb u) (db.write stored).advance
  .ok (s.clampFilter y)

/-- The tick command of one type: NOT_READY unless unit `u` is of that type. -/
def tickOfType (ty : FuType) (u : FuNum) (src : Src) (s : State) : Except Cause State := do
  let fu ← s.filter u
  require (decide (fu.type = ty)) .notReady
  let (s, x) := s.input src
  let (s, y) ← futick u x s
  .ok (s.out y)

/-- `AP.TICK u` (R163). -/
def execApTick (u : FuNum) (src : Src) (s : State) : Host.Outcome State Fault Refusal :=
  s.command .data (tickOfType .ap u src)

/-- `CB.TICK u` (R165). -/
def execCbTick (u : FuNum) (src : Src) (s : State) : Host.Outcome State Fault Refusal :=
  s.command .data (tickOfType .cb u src)

/-- `LPC.TICK u` (R167). -/
def execLpcTick (u : FuNum) (src : Src) (s : State) : Host.Outcome State Fault Refusal :=
  s.command .data (tickOfType .lpc u src)

end Sys2Proof.Machine
end

