-- ==== Sys2Proof/Machine/Compose.lean ====
section
/-! DEFINITION. The composition engines: series, parallel and the dry/wet mixer (R221 to R225). -/

namespace Sys2Proof.Machine

/-- `ready(a, b)`: every unit of the range is configured (R221). -/
def State.ready (s : State) (a b : FuNum) : Bool := (unitRange a b).all fun u => s.fus[u].isSome

/-- Units in series: the output of each is the input of the next (R221). -/
def serUnits : List FuNum → Num → State → Except Cause (State × Num)
  | [], v, s => .ok (s, v)
  | u :: us, v, s => do
    let (s, v) ← futick u v s
    serUnits us v s

/-- Units in parallel on one input, their outputs added to `acc` in ascending order (R221). -/
def parUnits (x : Num) : List FuNum → Num → State → Except Cause (State × Num)
  | [], acc, s => .ok (s, acc)
  | u :: us, acc, s => do
    let (s, y) ← futick u x s
    parUnits x us (acc.add y) s

/-- `ser(a, b, x)`. -/
def ser (a b : FuNum) (x : Num) (s : State) : Except Cause (State × Num) := serUnits (unitRange a b) x s

/-- `par(a, b, x)`: the sum is not clamped. -/
def par (a b : FuNum) (x : Num) (s : State) : Except Cause (State × Num) := parUnits x (unitRange a b) .zero s

/-- `mix(m, d, w) = clampS((1 - m) * d + m * w)`. -/
def State.mix (s : State) (dry wet : Num) : State × Num :=
  s.clampS ((Num.scale (1 - s.mixr) dry).add (Num.scale s.mixr wet))

/-- `SER.TICK a, b` (R222). -/
def execSerTick (a b : FuNum) (src : Src) (s : State) : Host.Outcome State Fault Refusal :=
  s.command .data fun s => do
    require (s.ready a b) .notReady
    let (s, x) := s.input src
    let (s, y) ← ser a b x s
    .ok (s.out y)

/-- `PAR.TICK a, b` (R223): with `C` = 1 the sum is clamped by `clampS`. -/
def execParTick (a b : FuNum) (src : Src) (clamp : Bool) (s : State) : Host.Outcome State Fault Refusal :=
  s.command .data fun s => do
    require (s.ready a b) .notReady
    let (s, x) := s.input src
    let (s, v) ← par a b x s
    let (s, y) := if clamp then s.clampS v else (s, v)
    .ok (s.out y)

/-- `mixcfg(pct)` (R224): an invalid ratio becomes 50 percent. -/
def State.mixcfg (s : State) (pct : Num) : State :=
  { s.noteSubst [pct.passes (inCC 0 100)] with mixr := percent (validated pct (inCC 0 100) Config.defMix) }

/-- `MIX.SET` (R224). -/
def execMixSet (s : State) : Host.Outcome State Fault Refusal :=
  s.command .cfg fun s => .ok (s.mixcfg s.p[0])

/-- `MIX k` (R225): the dry sample is `P[k]`, the wet sample X. -/
def execMix (k : PNum) (src : Src) (s : State) : Host.Outcome State Fault Refusal :=
  s.command .data fun s =>
    let (s, x) := s.input src
    let (s, y) := s.mix s.p[k] x
    .ok (s.out y)

end Sys2Proof.Machine
end

