-- ==== Sys2Proof/Machine/Interpolator.lean ====
section
/-! DEFINITION. The interpolator: its configuration (R121), the linear and the bandlimited reconstruction (R122,
R123, R126) and the complete fractional read (R127). -/

namespace Sys2Proof.Machine

/-- `IP` from three operands, each with its default substitution (R121); the kernel of a chorus unit's
configuration is set the same way (R201, R206). -/
def ipOf (d : Defaults) (policy stdf newf : Num) : Ip :=
  { policy := validatedPolicy policy d.policy
    stdf := validated stdf positive d.stdf
    newf := validated newf positive d.newf }

/-- The range tests of the three operands. -/
def ipTests (policy stdf newf : Num) : List Bool :=
  [policy.passes isPolicy, stdf.passes positive, newf.passes positive]

/-- `IP.CFG` (R121). -/
def execIpCfg (s : State) : Host.Outcome State Fault Refusal :=
  s.command .cfg fun s =>
    .ok { s.noteSubst (ipTests s.p[0] s.p[1] s.p[2]) with ip := ipOf s.params.defs s.p[0] s.p[1] s.p[2] }

/-- The integer part of a wrapped position, a cell index. -/
def cellOf (wrapped : Rat) : Nat := (floorInt wrapped).toNat

/-- Linear interpolation at a position (R122): `mem[f] + t * (mem[(f + 1) mod L] - mem[f])`. -/
def Db.linear (db : Db) (pos : Rat) : Num :=
  let wrapped := floorMod pos db.len
  let f := cellOf wrapped
  let t := wrapped - (floorInt wrapped : Rat)
  let here := memRead db.mem f
  here.add (Num.scale t ((memRead db.mem ((f + 1) % db.len)).sub here))

/-- The kernel tap at relative offset `i` (R123). -/
def Ip.kernel (ip : Ip) (i : Int) : Rat :=
  min 1 (ip.newf / ip.stdf) * sinc (min ip.stdf ip.newf * (i : Rat))

/-- The offsets `1 - W, ..., W`, ascending. -/
def kernelOffsets : List Int :=
  (List.range (2 * Config.halfWidth)).map fun k : Nat => (k : Int) + 1 - (Config.halfWidth : Int)

/-- Bandlimited reconstruction at a position (R126): the sum over the offsets, ascending, from 0. -/
def Db.bandlimited (db : Db) (ip : Ip) (pos : Rat) : Num :=
  let f := floorInt (floorMod pos db.len)
  kernelOffsets.foldl (fun acc i => acc.add ((db.read (f + i)).mul (.val (ip.kernel i)))) .zero

/-- `interp(b, p)` (R127): the integral test, literal and one-sided, then the configured policy. -/
def Db.interp (db : Db) (ip : Ip) (pos : Rat) : Num :=
  let wrapped := floorMod pos db.len
  if wrapped - (truncInt wrapped : Rat) < Config.eps then memRead db.mem (truncInt wrapped).toNat
  else
    match ip.policy with
    | .linear => db.linear pos
    | .bandlimited => db.bandlimited ip pos

/-- `IP.LIN b` (R122). -/
def execIpLin (b : DbNum) (s : State) : Host.Outcome State Fault Refusal :=
  s.command .data fun s => do
    let db ← s.buffer b
    let pos ← anyNumber s.p[0]
    .ok (s.out (db.linear pos))

/-- `IP.BL b` (R126). -/
def execIpBl (b : DbNum) (s : State) : Host.Outcome State Fault Refusal :=
  s.command .data fun s => do
    let db ← s.buffer b
    let pos ← anyNumber s.p[0]
    .ok (s.out (db.bandlimited s.ip pos))

/-- `IP.RD b` (R127). -/
def execIpRd (b : DbNum) (s : State) : Host.Outcome State Fault Refusal :=
  s.command .data fun s => do
    let db ← s.buffer b
    let pos ← anyNumber s.p[0]
    .ok (s.out (db.interp s.ip pos))

end Sys2Proof.Machine
end

