-- ==== Sys2Proof/Machine/Modulators.lean ====
section
/-! DEFINITION. The modulator: building a table (R141) and reading it cyclically (R148). -/

namespace Sys2Proof.Machine

/-- `for i in 0..N-1: tab[i] = wave(shape, i, N, depth)` (R141). -/
def waveTable (p : Params) (shape : Shape) (n : Nat) (depth : Rat) : List Rat :=
  (List.range n).map fun i => wave p shape i n depth

/-- `modcfg(m, s, fr, dp)` (R141): all checks before all writes. -/
def modcfg (m : ModNum) (sh fr dp : Num) (s : State) : Except Cause State := do
  require (decide (s.srate ≠ 0)) .noContext
  let shape := validatedShape sh s.params.defs.shape
  let freq := validated fr (inCC (1 / 2) 10) s.params.defs.freq
  let depth := validated dp (inCC 0 (99 / 100)) s.params.defs.depth
  let n := roundInt (s.srate / freq)
  require (decide (1 ≤ n)) .badOperand
  require (decide (n ≤ (s.params.nmax : Int))) .resourceExhaustion
  let table := waveTable s.params shape n.toNat depth
  let s := s.noteSubst [sh.passes (isInt 0 3), fr.passes (inCC (1 / 2) 10), dp.passes (inCC 0 (99 / 100))]
  .ok (s.setMod m { shape := shape, freq := freq, depth := depth, tab := table, idx := 0 })

/-- `MOD.CFG m` (R141). -/
def execModCfg (m : ModNum) (s : State) : Host.Outcome State Fault Refusal :=
  s.command .cfg fun s => modcfg m s.p[0] s.p[1] s.p[2] s

/-- `c = tab[idx]`, then `idx <- (idx + 1) mod N` (R148). An index outside the table, which no command can leave
(R30), raises NOT_READY (log 12). -/
def Modulator.next (md : Modulator) : Except Cause (Modulator × Rat) :=
  match md.tab[md.idx]? with
  | some c => .ok ({ md with idx := (md.idx + 1) % md.tab.length }, c)
  | none => .error .notReady

/-- `modnext(m)` (R148). -/
def modnext (m : ModNum) (s : State) : Except Cause (State × Rat) :=
  match s.mods[m] with
  | some md => do
    let (md, c) ← md.next
    .ok (s.setMod m md, c)
  | none => .error .notReady

/-- `MOD.NEXT m` (R148). -/
def execModNext (m : ModNum) (s : State) : Host.Outcome State Fault Refusal :=
  s.command .data fun s => do
    let (s, c) ← modnext m s
    .ok (s.out (.val c))

end Sys2Proof.Machine
end

