-- ==== Sys2Proof/Machine/UnitConfig.lean ====
section
/-! DEFINITION. Configuring the active unit: the common part of `CFG` (R258, R259) and the rule of each kind
(R181, R184, R186, R201, R206, R227, R229, R231). -/

namespace Sys2Proof.Machine

/-- Step 2 of `CFG`: what configuration discards (R259). -/
def State.clearPool (s : State) : State :=
  { s with
    dbs := .replicate 8 none, mods := .replicate 3 none, fus := .replicate 7 none, unit := .idle }

/-- `CFG kind`, common part (R258). A kind's rule reads only the P registers, `SRATE` and the parameters, none of
which step 2 touches, so one pass over the cleared state is steps 1 to 3; a fault in it leaves the state before
the command (log 13). -/
def State.configure (s : State) (rule : State → Except Cause State) : Host.Outcome State Fault Refusal :=
  s.command .cfg fun s => rule s.clearPool

/-- `if SRATE = 0: raise F(NO_CONTEXT)`. -/
def State.needContext (s : State) : Except Cause Unit := require (decide (s.srate ≠ 0)) .noContext

/-- `effalloc(kind, delays)` (R188): the capacity comes from the kind's maximum delay, not the configured ones. -/
def effalloc (maxMs : Rat) (delays : List Nat) (s : State) : Except Cause State := do
  let len := ms2smp s.srate maxMs + s.params.margin
  require (decide (len ≤ s.params.lmax)) .resourceExhaustion
  .ok (s.setDb effectDb (Db.alloc len delays))

/-- `CFG.SD` (R181). -/
def configSd (s : State) : Except Cause State := do
  s.needContext
  let d := s.params.defs
  let delayOk := inCC 0 s.params.maxSd
  let ms := validated s.p[2] delayOk d.sdDelay
  let t ← effalloc s.params.maxSd [ms2smp s.srate ms] s
  let t := t.noteSubst [s.p[0].passes (inCC 0 1), s.p[1].passes (inCC 0 1), s.p[2].passes delayOk]
  .ok (t.setUnit { t.unit with
    kind := .sd
    dry := validated s.p[0] (inCC 0 1) d.sdDry
    wet1 := validated s.p[1] (inCC 0 1) d.sdWet })

/-- `CFG.DD` (R184): the delays are exchanged into ascending order, the wet weights are not. -/
def configDd (s : State) : Except Cause State := do
  s.needContext
  let d := s.params.defs
  let delayOk := inCC 0 s.params.maxDd
  let ms1 := validated s.p[3] delayOk d.ddDelay1
  let ms2 := validated s.p[4] delayOk d.ddDelay2
  let (ms1, ms2) := if ms2 < ms1 then (ms2, ms1) else (ms1, ms2)
  let t ← effalloc s.params.maxDd [ms2smp s.srate ms1, ms2smp s.srate ms2] s
  let t := t.noteSubst [s.p[0].passes (inCC 0 1), s.p[1].passes (inCC 0 1), s.p[2].passes (inCC 0 1),
    s.p[3].passes delayOk, s.p[4].passes delayOk]
  .ok (t.setUnit { t.unit with
    kind := .dd
    dry := validated s.p[0] (inCC 0 1) d.ddDry
    wet1 := validated s.p[1] (inCC 0 1) d.ddWet1
    wet2 := validated s.p[2] (inCC 0 1) d.ddWet2 })

/-- `CFG.FD` (R186). -/
def configFd (s : State) : Except Cause State := do
  s.needContext
  let d := s.params.defs
  let delayOk := inCC 0 s.params.maxFd
  let ms := validated s.p[2] delayOk d.fdDelay
  let t ← effalloc s.params.maxFd [ms2smp s.srate ms] s
  let t := t.noteSubst [s.p[0].passes (inCC 0 1), s.p[1].passes (inCO 0 100), s.p[2].passes delayOk]
  .ok (t.setUnit { t.unit with
    kind := .fd
    gain := validated s.p[0] (inCC 0 1) d.fdGain
    g := percent (validated s.p[1] (inCO 0 100) d.fdDecay) })

/-- The operands of a MultiChorus: the registers `P[0..18]`, or the 19 values of `DEF.mc_cfg` (R201). -/
abbrev McOperands := Vector Num 19

def McOperands.ofRegs (p : Vector Num 32) : McOperands :=
  #v[p[0], p[1], p[2], p[3], p[4], p[5], p[6], p[7], p[8], p[9], p[10], p[11], p[12], p[13], p[14], p[15],
    p[16], p[17], p[18]]

/-- A shape as its code 0..3 (R30). -/
def shapeCode : Shape → Rat
  | .sine => 0
  | .saw => 1
  | .triangle => 2
  | .square => 3

/-- A policy as its code 0 or 1 (R32). -/
def policyCode : Policy → Rat
  | .linear => 0
  | .bandlimited => 1

/-- `DEF.mc_cfg` laid out as the registers of `CFG.MC` (R91). -/
def McOperands.ofDefault (c : McDefault) : McOperands :=
  #v[.val c.dry, .val c.wet, .val (c.taps : Rat), .val c.delays[0], .val c.delays[1], .val c.delays[2],
    .val (c.mods : Rat),
    .val (shapeCode c.mod0.shape), .val c.mod0.freq, .val c.mod0.depth,
    .val (shapeCode c.mod1.shape), .val c.mod1.freq, .val c.mod1.depth,
    .val (shapeCode c.mod2.shape), .val c.mod2.freq, .val c.mod2.depth,
    .val (policyCode c.policy), .val c.stdf, .val c.newf]

/-- The tap count and the modulator count are both integers in 1..3 (R201). -/
def McOperands.countsOk (q : McOperands) : Bool := q[2].passes (isInt 1 3) && q[6].passes (isInt 1 3)

/-- A value put into an ascending list. -/
def insertAscending (v : Rat) : List Rat → List Rat
  | [] => [v]
  | w :: ws => if v ≤ w then v :: w :: ws else w :: insertAscending v ws

/-- `sort ms ascending`. -/
def sortAscending : List Rat → List Rat
  | [] => []
  | v :: vs => insertAscending v (sortAscending vs)

/-- `modcfg` of modulators 0, 1, 2 from their operands, the first `nm` of them in order (R201). -/
def modcfgFirst : List (ModNum × Num × Num × Num) → State → Except Cause State
  | [], s => .ok s
  | (m, sh, fr, dp) :: rest, s => do
    let s ← modcfg m sh fr dp s
    modcfgFirst rest s

/-- `CFG.MC` (R201). -/
def configMc (s : State) : Except Cause State := do
  s.needContext
  let d := s.params.defs
  let given := McOperands.ofRegs s.p
  let q := if given.countsOk then given else McOperands.ofDefault d.mcCfg
  let nt := countOf q[2]
  let nm := countOf q[6]
  let delayOk := inCC 0 s.params.maxMc
  let ms := [validated q[3] delayOk d.mcDelay[0], validated q[4] delayOk d.mcDelay[1],
    validated q[5] delayOk d.mcDelay[2]].take nt
  let mods : List (ModNum × Num × Num × Num) :=
    [(0, q[7], q[8], q[9]), (1, q[10], q[11], q[12]), (2, q[13], q[14], q[15])]
  let t ← effalloc s.params.maxMc ((sortAscending ms).map (ms2smp s.srate)) s
  let t ← modcfgFirst (mods.take nm) t
  let t := t.noteSubst ([given.countsOk, q[0].passes (inCC 0 100), q[1].passes (inCC 0 100)] ++
    [q[3].passes delayOk, q[4].passes delayOk, q[5].passes delayOk].take nt ++ ipTests q[16] q[17] q[18])
  .ok { t.setUnit { t.unit with
      kind := .mc
      dry := percent (validated q[0] (inCC 0 100) d.mcDry)
      wet1 := percent (validated q[1] (inCC 0 100) d.mcWet)
      nt := nt
      nm := nm } with
    ip := ipOf d q[16] q[17] q[18] }

/-- `CFG.FC` (R206). -/
def configFc (s : State) : Except Cause State := do
  s.needContext
  let d := s.params.defs
  let delayOk := inCC 0 s.params.maxFc
  let ms := validated s.p[2] delayOk d.fcDelay
  let t ← effalloc s.params.maxFc [ms2smp s.srate ms] s
  let t ← modcfg 0 s.p[3] s.p[4] s.p[5] t
  let t := t.noteSubst ([s.p[0].passes (inCC 0 1), s.p[1].passes (inCO 0 100), s.p[2].passes delayOk] ++
    ipTests s.p[6] s.p[7] s.p[8])
  .ok { t.setUnit { t.unit with
      kind := .fc
      gain := validated s.p[0] (inCC 0 1) d.fcGain
      g := percent (validated s.p[1] (inCO 0 100) d.fcDecay) } with
    ip := ipOf d s.p[6] s.p[7] s.p[8] }

/-- The end of a reverb's rule: the mix ratio and the kind (R226). -/
def State.finishReverb (s : State) (pct : Num) (kind : Kind) : State :=
  let s := s.mixcfg pct
  s.setUnit { s.unit with kind := kind }

/-- `CFG.RV1` (R227): five Allpasses. -/
def configRv1 (s : State) : Except Cause State := do
  let t ← fucfg 0 .ap s.p[1] s.p[2] .zero s
  let t ← fucfg 1 .ap s.p[3] s.p[4] .zero t
  let t ← fucfg 2 .ap s.p[5] s.p[6] .zero t
  let t ← fucfg 3 .ap s.p[7] s.p[8] .zero t
  let t ← fucfg 4 .ap s.p[9] s.p[10] .zero t
  .ok (t.finishReverb s.p[0] .rv1)

/-- `CFG.RV2` (R229): four Combs and two Allpasses. -/
def configRv2 (s : State) : Except Cause State := do
  let t ← fucfg 0 .cb s.p[1] s.p[2] .zero s
  let t ← fucfg 1 .cb s.p[3] s.p[4] .zero t
  let t ← fucfg 2 .cb s.p[5] s.p[6] .zero t
  let t ← fucfg 3 .cb s.p[7] s.p[8] .zero t
  let t ← fucfg 4 .ap s.p[9] s.p[10] .zero t
  let t ← fucfg 5 .ap s.p[11] s.p[12] .zero t
  .ok (t.finishReverb s.p[0] .rv2)

/-- `CFG.RV3` (R231): six LowPassCombs and an Allpass. -/
def configRv3 (s : State) : Except Cause State := do
  let t ← fucfg 0 .lpc s.p[1] s.p[2] s.p[3] s
  let t ← fucfg 1 .lpc s.p[4] s.p[5] s.p[6] t
  let t ← fucfg 2 .lpc s.p[7] s.p[8] s.p[9] t
  let t ← fucfg 3 .lpc s.p[10] s.p[11] s.p[12] t
  let t ← fucfg 4 .lpc s.p[13] s.p[14] s.p[15] t
  let t ← fucfg 5 .lpc s.p[16] s.p[17] s.p[18] t
  let t ← fucfg 6 .ap s.p[19] s.p[20] .zero t
  .ok (t.finishReverb s.p[0] .rv3)

def execCfgSd (s : State) : Host.Outcome State Fault Refusal := s.configure configSd
def execCfgDd (s : State) : Host.Outcome State Fault Refusal := s.configure configDd
def execCfgFd (s : State) : Host.Outcome State Fault Refusal := s.configure configFd
def execCfgMc (s : State) : Host.Outcome State Fault Refusal := s.configure configMc
def execCfgFc (s : State) : Host.Outcome State Fault Refusal := s.configure configFc
def execCfgRv1 (s : State) : Host.Outcome State Fault Refusal := s.configure configRv1
def execCfgRv2 (s : State) : Host.Outcome State Fault Refusal := s.configure configRv2
def execCfgRv3 (s : State) : Host.Outcome State Fault Refusal := s.configure configRv3

end Sys2Proof.Machine
end

