-- ==== Sys2Proof/Machine/DelayBuffer.lean ====
section
/-! DEFINITION. The delay buffer commands (R102 to R108). -/

namespace Sys2Proof.Machine

/-- The tap delays of `DB.ALLOC`, in tap order: each a number ≥ 0, floored, at most the capacity (R102). -/
def allocDelays (len : Nat) : List Num → Except Cause (List Nat)
  | [] => .ok []
  | v :: vs => do
    let q ← operand v fun q => decide (0 ≤ q)
    let d := (floorInt q).toNat
    require (decide (d ≤ len)) .badOperand
    let ds ← allocDelays len vs
    .ok (d :: ds)

/-- A kind that owns `DB[7]` (R38): 1..5. -/
def Kind.ownsEffectDb : Kind → Bool
  | .sd | .dd | .fd | .mc | .fc => true
  | .none | .rv1 | .rv2 | .rv3 => false

/-- What a hand allocation of `DB[b]` does to the owner of the buffer: it is unconfigured (R102). -/
def State.disown (s : State) (b : DbNum) : State :=
  if h : b.val < 7 then s.setFu ⟨b.val, h⟩ none
  else if s.unit.kind.ownsEffectDb then s.setUnit { s.unit with kind := .none }
  else s

/-- `DB.ALLOC b, nt` (R102). -/
def execDbAlloc (b : DbNum) (nt : TapCount) (s : State) : Host.Outcome State Fault Refusal :=
  s.command .cfg fun s => do
    let cap ← operand s.p[0] fun q => decide (1 ≤ q)
    let len := (floorInt cap).toNat
    require (decide (len ≤ s.params.lmax)) .resourceExhaustion
    let delays ← allocDelays len ([s.p[1], s.p[2], s.p[3]].take nt.val)
    .ok ((s.setDb b (Db.alloc len delays)).disown b)

/-- `DB.WR b` (R104): store X at `wp` and advance `wp`; the taps stay. -/
def execDbWr (b : DbNum) (src : Src) (s : State) : Host.Outcome State Fault Refusal :=
  s.command .data fun s => do
    let db ← s.buffer b
    let (s, x) := s.input src
    .ok (s.setDb b (db.write x))

/-- `DB.RD b, t` (R105): the tap's value and `WARM` = 1, or the placeholder 0 and `WARM` = 0. -/
def execDbRd (b : DbNum) (t : TapNum) (s : State) : Host.Outcome State Fault Refusal :=
  s.command .data fun s => do
    let db ← s.buffer b
    let tap ← db.tap t.val
    match db.tapval tap with
    | some v => .ok ((s.setWarm true).out v)
    | none => .ok ((s.setWarm false).out .zero)

/-- `DB.ADV b` (R106): every tap pointer advances by one sample. -/
def execDbAdv (b : DbNum) (s : State) : Host.Outcome State Fault Refusal :=
  s.command .data fun s => do
    let db ← s.buffer b
    .ok (s.setDb b db.advance)

/-- `DB.PEEK b` (R107): the cell at `floor(P[0]) mod L`. -/
def execDbPeek (b : DbNum) (s : State) : Host.Outcome State Fault Refusal :=
  s.command .any fun s => do
    let db ← s.buffer b
    let a ← anyNumber s.p[0]
    .ok (s.out (db.read (floorInt a)))

/-- The modulated position of a tap, `(wp - D * factor) mod L` (R108). -/
def Db.modulatedPos (db : Db) (tap : Tap) (factor : Rat) : Rat :=
  floorMod ((db.wp : Rat) - (tap.delay : Rat) * factor) db.len

/-- `DB.MPOS b, t` (R108). -/
def execDbMpos (b : DbNum) (t : TapNum) (s : State) : Host.Outcome State Fault Refusal :=
  s.command .data fun s => do
    let db ← s.buffer b
    let tap ← db.tap t.val
    let factor ← anyNumber s.p[0]
    .ok (s.out (.val (db.modulatedPos tap factor)))

end Sys2Proof.Machine
end

