-- ==== Sys2Proof/Machine/UnitTicks.lean ====
section
/-! DEFINITION. One sample through the active unit, kind by kind (R182, R185, R187, R203, R207, R228, R230, R232),
and the facade's `TICK` and `BLOCK` (R260, R261). Every arm reads, computes, writes and advances in this order
(R74). An arm that finds an instance of its unit missing, which no command can bring about (R260), raises
NOT_READY (log 12). -/

namespace Sys2Proof.Machine

/-- A delayed term added to a sum when its tap is warm, omitted while it is not (R103). -/
def addTap (acc : Num) (weight : Rat) (d : Option Num) : Num :=
  match d with
  | some d => acc.add (Num.scale weight d)
  | none => acc

/-- SingleDelay (R182). -/
def tickSd (x : Num) (s : State) : Except Cause (State × Num) := do
  let db ← s.buffer effectDb
  let tap ← db.tap 0
  let y := addTap (Num.scale s.unit.dry x) s.unit.wet1 (db.tapval tap)
  .ok ((s.setDb effectDb (db.write x).advance).clampS y)

/-- DoubleDelay (R185). -/
def tickDd (x : Num) (s : State) : Except Cause (State × Num) := do
  let db ← s.buffer effectDb
  let tap0 ← db.tap 0
  let tap1 ← db.tap 1
  let y := addTap (Num.scale s.unit.dry x) s.unit.wet1 (db.tapval tap0)
  let y := addTap y s.unit.wet2 (db.tapval tap1)
  .ok ((s.setDb effectDb (db.write x).advance).clampS y)

/-- FeedbackDelay (R187): the post-feedback value is stored. -/
def tickFd (x : Num) (s : State) : Except Cause (State × Num) := do
  let db ← s.buffer effectDb
  let tap ← db.tap 0
  let stored := addTap x s.unit.g (db.tapval tap)
  .ok ((s.setDb effectDb (db.write stored).advance).clampS (Num.scale s.unit.gain stored))

/-- `mread(k, c)` (R200): the configured fractional read at the modulated position of a tap. -/
def Db.mread (db : Db) (ip : Ip) (tap : Tap) (c : Rat) : Num := db.interp ip (db.modulatedPos tap c)

/-- `c[j] = modnext(j)` for the first `nm` modulators, each once, ascending (R203). -/
def coefficients : List ModNum → State → Except Cause (State × List Rat)
  | [], s => .ok (s, [])
  | m :: ms, s => do
    let (s, c) ← modnext m s
    let (s, cs) ← coefficients ms s
    .ok (s, c :: cs)

/-- The coefficient of tap `k`: that of modulator `k mod nm` (R202). -/
def coefficientOf (cs : List Rat) (k : Nat) : Except Cause Rat :=
  match cs[k % cs.length]? with
  | some c => .ok c
  | none => .error .notReady

/-- `acc + mread(k, c[k mod nm])` over the taps in `ks`, ascending (R203). -/
def sumTaps (db : Db) (ip : Ip) (cs : List Rat) : List Nat → Num → Except Cause Num
  | [], acc => .ok acc
  | k :: ks, acc => do
    let tap ← db.tap k
    let c ← coefficientOf cs k
    sumTaps db ip cs ks (acc.add (db.mread ip tap c))

/-- MultiChorus (R203). -/
def tickMc (x : Num) (s : State) : Except Cause (State × Num) := do
  let (t, cs) ← coefficients (([0, 1, 2] : List ModNum).take s.unit.nm) s
  let db ← t.buffer effectDb
  let acc ← sumTaps db t.ip cs (List.range s.unit.nt) .zero
  let y := (Num.scale s.unit.dry x).add (Num.scale s.unit.wet1 acc)
  .ok ((t.setDb effectDb (db.write x).advance).clampS y)

/-- FeedbackChorus (R207). -/
def tickFc (x : Num) (s : State) : Except Cause (State × Num) := do
  let (t, c) ← modnext 0 s
  let db ← t.buffer effectDb
  let tap ← db.tap 0
  let stored := x.add (Num.scale s.unit.g (db.mread t.ip tap c))
  .ok ((t.setDb effectDb (db.write stored).advance).clampS (Num.scale s.unit.gain stored))

/-- Reverb1 (R228). -/
def tickRv1 (x : Num) (s : State) : Except Cause (State × Num) := do
  let (t, wet) ← ser 0 4 x s
  .ok (t.mix x wet)

/-- Reverb2 (R230): the parallel sum is not clamped. -/
def tickRv2 (x : Num) (s : State) : Except Cause (State × Num) := do
  let (t, v) ← par 0 3 x s
  let (t, wet) ← ser 4 5 v t
  .ok (t.mix x wet)

/-- Reverb3 (R232): the parallel sum is clamped by `clampS`. -/
def tickRv3 (x : Num) (s : State) : Except Cause (State × Num) := do
  let (t, v) ← par 0 5 x s
  let (t, v) := t.clampS v
  let (t, wet) ← futick 6 v t
  .ok (t.mix x wet)

/-- The arm of `UNIT.kind` (R260). -/
def unitTick (x : Num) (s : State) : Except Cause (State × Num) :=
  match s.unit.kind with
  | .none => .error .notReady
  | .sd => tickSd x s
  | .dd => tickDd x s
  | .fd => tickFd x s
  | .mc => tickMc x s
  | .fc => tickFc x s
  | .rv1 => tickRv1 x s
  | .rv2 => tickRv2 x s
  | .rv3 => tickRv3 x s

/-- `unitready()` (R260). -/
def State.unitReady (s : State) : Bool :=
  match s.unit.kind with
  | .none => false
  | .sd | .dd | .fd | .mc | .fc => true
  | .rv1 => s.ready 0 4
  | .rv2 => s.ready 0 5
  | .rv3 => s.ready 0 6

/-- `TICK` (R260). -/
def execTick (src : Src) (s : State) : Host.Outcome State Fault Refusal :=
  s.command .data fun s => do
    require s.unitReady .notReady
    let (s, x) := s.input src
    let (s, y) ← unitTick x s
    .ok (s.out y).latchExh

/-- The loop of `BLOCK`: `left` samples still to run, the next one the `i`-th on `DIN` (R261). -/
def blockLoop : Nat → Nat → State → Except Cause State
  | 0, _, s => .ok s
  | left + 1, i, s => do
    let (s, x) := s.dinAt i
    let (s, y) ← unitTick x s
    blockLoop left (i + 1) (s.out y)

/-- `BLOCK n` (R261). -/
def execBlock (n : BitVec 16) (s : State) : Host.Outcome State Fault Refusal :=
  s.command .data fun s => do
    require s.unitReady .notReady
    let s ← blockLoop n.toNat 0 s
    .ok s.latchExh

end Sys2Proof.Machine
end

