-- ==== Sys2Proof/Machine/Dispatch.lean ====
section
/-! DEFINITION. One arm per command. -/

namespace Sys2Proof.Machine

def exec (i : Instr) (s : State) : Host.Outcome State Fault Refusal :=
  match i with
  | .nop => Sys2Proof.Machine.execNop s
  | .reset => Sys2Proof.Machine.execReset s
  | .pld k => Sys2Proof.Machine.execPld k s
  | .pmv k => Sys2Proof.Machine.execPmv k s
  | .ctxSet => Sys2Proof.Machine.execCtxSet s
  | .start => Sys2Proof.Machine.execStart s
  | .stop => Sys2Proof.Machine.execStop s
  | .dbAlloc b nt => Sys2Proof.Machine.execDbAlloc b nt s
  | .dbWr b src => Sys2Proof.Machine.execDbWr b src s
  | .dbRd b t => Sys2Proof.Machine.execDbRd b t s
  | .dbAdv b => Sys2Proof.Machine.execDbAdv b s
  | .dbPeek b => Sys2Proof.Machine.execDbPeek b s
  | .dbMpos b t => Sys2Proof.Machine.execDbMpos b t s
  | .ipCfg => Sys2Proof.Machine.execIpCfg s
  | .ipLin b => Sys2Proof.Machine.execIpLin b s
  | .ipBl b => Sys2Proof.Machine.execIpBl b s
  | .ipRd b => Sys2Proof.Machine.execIpRd b s
  | .modCfg m => Sys2Proof.Machine.execModCfg m s
  | .modNext m => Sys2Proof.Machine.execModNext m s
  | .apCfg u => Sys2Proof.Machine.execApCfg u s
  | .cbCfg u => Sys2Proof.Machine.execCbCfg u s
  | .lpcCfg u => Sys2Proof.Machine.execLpcCfg u s
  | .apTick u src => Sys2Proof.Machine.execApTick u src s
  | .cbTick u src => Sys2Proof.Machine.execCbTick u src s
  | .lpcTick u src => Sys2Proof.Machine.execLpcTick u src s
  | .serTick a b src => Sys2Proof.Machine.execSerTick a b src s
  | .parTick a b src clamp => Sys2Proof.Machine.execParTick a b src clamp s
  | .mixSet => Sys2Proof.Machine.execMixSet s
  | .mix k src => Sys2Proof.Machine.execMix k src s
  | .cfgSd => Sys2Proof.Machine.execCfgSd s
  | .cfgDd => Sys2Proof.Machine.execCfgDd s
  | .cfgFd => Sys2Proof.Machine.execCfgFd s
  | .cfgMc => Sys2Proof.Machine.execCfgMc s
  | .cfgFc => Sys2Proof.Machine.execCfgFc s
  | .cfgRv1 => Sys2Proof.Machine.execCfgRv1 s
  | .cfgRv2 => Sys2Proof.Machine.execCfgRv2 s
  | .cfgRv3 => Sys2Proof.Machine.execCfgRv3 s
  | .tick src => Sys2Proof.Machine.execTick src s
  | .block n => Sys2Proof.Machine.execBlock n s

end Sys2Proof.Machine
end

