-- ==== Sys2Proof/Machine/Step.lean ====
section
/-! DEFINITION. One step of the block (R20, R262, R288): the host's next event, taken from the stream, is performed
completely. There is no program counter and no fetch (R26). -/

namespace Sys2Proof.Machine

/-- One step. With no event offered the block waits and nothing changes (log 8). A hardware reset gives the reset
state (R310). A command is decoded from its word alone (R87); an illegal one raises ILLEGAL_CMD, a legal one is
executed. -/
def step (s : State) : Host.Outcome State Fault Refusal :=
  match s.takeEvent with
  | .nothing => .next s
  | .hardwareReset t => .next t.toReset
  | .command t =>
    match decode t.port.word with
    | .error _ => t.illegal
    | .ok i => exec i t

/-- The word offered as the host's next command, so that the very next step runs it (log 7). -/
def State.withFetchWord (s : State) (_nbits w : Nat) : State :=
  { s with pending := offerWord (BitVec.ofNat 32 w) :: s.pending }

end Sys2Proof.Machine
end

