-- ==== Sys2Proof/Safety.lean ====
section
/-! DEFINITION. What a good state is: the ranges and relations the rules state of the fields (R9, R24, R27, R28,
R30 to R32, R34, R35, R37, R38, R142, R147, R161, R264), every part of it decidable; and which commands write `R` and
which causes each command can raise. -/

namespace Sys2Proof

open Sys2Proof.Machine

/-- The commands that write `R` (R16, R323). -/
def Instr.writesR : Instr → Bool
  | .dbRd _ _ | .dbPeek _ | .dbMpos _ _ | .ipLin _ | .ipBl _ | .ipRd _ | .modNext _ => true
  | .apTick _ _ | .cbTick _ _ | .lpcTick _ _ | .serTick _ _ _ | .parTick _ _ _ _ | .mix _ _ | .tick _ | .block _ => true
  | .nop | .reset | .pld _ | .pmv _ | .ctxSet | .start | .stop | .dbAlloc _ _ | .dbWr _ _ | .dbAdv _ => false
  | .ipCfg | .modCfg _ | .apCfg _ | .cbCfg _ | .lpcCfg _ | .mixSet => false
  | .cfgSd | .cfgDd | .cfgFd | .cfgMc | .cfgFc | .cfgRv1 | .cfgRv2 | .cfgRv3 => false

/-- The causes a command can raise of its own, beside the mode check (R300). -/
def Instr.ownCauses : Instr → List Cause
  | .nop | .reset | .pld _ | .pmv _ | .start | .stop | .ipCfg | .mixSet | .mix _ _ => []
  | .ctxSet => [.badOperand]
  | .dbAlloc _ _ => [.badOperand, .resourceExhaustion]
  | .dbWr _ _ | .dbRd _ _ | .dbAdv _ | .modNext _ => [.notReady]
  | .dbPeek _ | .dbMpos _ _ | .ipLin _ | .ipBl _ | .ipRd _ => [.notReady, .badOperand]
  | .modCfg _ | .cfgMc | .cfgFc => [.noContext, .badOperand, .resourceExhaustion]
  | .apCfg _ | .cbCfg _ | .lpcCfg _ | .cfgSd | .cfgDd | .cfgFd | .cfgRv1 | .cfgRv2 | .cfgRv3 =>
    [.noContext, .resourceExhaustion]
  | .apTick _ _ | .cbTick _ _ | .lpcTick _ _ | .serTick _ _ _ | .parTick _ _ _ _ | .tick _ | .block _ => [.notReady]

end Sys2Proof

namespace Sys2Proof.Safety

open Sys2Proof.Machine

/-- `0 ≤ D ≤ L` and `-D ≤ rp < L` (R27). -/
abbrev TapOk (len : Nat) (t : Tap) : Prop := t.delay ≤ len ∧ -(t.delay : Int) ≤ t.rp ∧ t.rp < (len : Int)

/-- An allocated buffer (R27, R28), its cells in canonical form and inside the buffer. -/
abbrev DbOk (p : Params) (db : Db) : Prop :=
  1 ≤ db.len ∧ db.len ≤ p.lmax ∧ db.wp < db.len ∧ Memory.wf db.mem = true ∧
  (∀ c ∈ db.mem, c.1 < db.len) ∧ db.taps.length ≤ 3 ∧ ∀ t ∈ db.taps, TapOk db.len t

/-- How many times its depth a table of a shape swings about 1 (R143 to R145, R147; the saw alone has the factor 2).
For the open `TRI` it is 1, and for an open `SAW` 2, as log 6 has them. -/
def tableSwing : Shape → Rat
  | .saw => 2
  | .sine | .triangle | .square => 1

/-- An entry in the range of its shape and depth (R145, R147, log 6). -/
abbrev EntryOk (shape : Shape) (depth c : Rat) : Prop :=
  1 - tableSwing shape * depth ≤ c ∧ c ≤ 1 + tableSwing shape * depth

/-- A configured modulator (R30); its table is the one its shape, length and depth give (R142), every entry of it in
range. -/
abbrev ModOk (p : Params) (md : Modulator) : Prop :=
  inFreq md.freq ∧ inDepth md.depth ∧ 1 ≤ md.tab.length ∧ md.tab.length ≤ p.nmax ∧ md.idx < md.tab.length ∧
  md.tab = waveTable p md.shape md.tab.length md.depth ∧ ∀ c ∈ md.tab, EntryOk md.shape md.depth c

/-- A stored decay coefficient (R31). -/
abbrev Coefficient (g : Rat) : Prop := 0 ≤ g ∧ g < 1

/-- The tap delays of a filter unit of a type whose buffer has capacity `len` = D + 1: D, and D + 1 for a
LowPassComb (R31, R161). -/
def fuDelays : FuType → Nat → List Nat
  | .ap, len => [len - 1]
  | .cb, len => [len - 1]
  | .lpc, len => [len - 1, len]

/-- A configured filter unit and its buffer (R31, R161). -/
abbrev FuOk (fu : Fu) (db : Option Db) : Prop :=
  Coefficient fu.g1 ∧ Coefficient fu.g2 ∧ ∃ d ∈ db, d.taps.map Tap.delay = fuDelays fu.type d.len

/-- How many taps `DB[7]` has for each kind (R38); `none` where the kind does not own it. -/
def kindTaps (u : ActiveUnit) : Option Nat :=
  match u.kind with
  | .sd | .fd | .fc => some 1
  | .dd => some 2
  | .mc => some u.nt
  | .none | .rv1 | .rv2 | .rv3 => none

/-- How many modulators each kind owns (R38). -/
def kindMods (u : ActiveUnit) : Nat :=
  match u.kind with
  | .mc => u.nm
  | .fc => 1
  | .none | .sd | .dd | .fd | .rv1 | .rv2 | .rv3 => 0

/-- The open parameters meet their constraints (R9). -/
abbrev ParamsOk (s : State) : Prop := s.params.Valid

/-- `SRATE` is 0 or at least 1 (R24, R256); `IP` and `MIXR` are in range (R32, R35). -/
abbrev ContextOk (s : State) : Prop :=
  (s.srate = 0 ∨ 1 ≤ s.srate) ∧ 0 < s.ip.stdf ∧ 0 < s.ip.newf ∧ 0 ≤ s.mixr ∧ s.mixr ≤ 1

/-- `CAUSE` and `FCMD` are 0 when there is no fault, and `CAUSE` is not 0 when there is one (R34, R285). -/
abbrev FaultOk (s : State) : Prop :=
  (s.fault = false → s.cause = .none ∧ s.fcmd = 0) ∧ (s.fault = true → s.cause ≠ .none)

/-- Every instance of the pool is as its rule says. -/
abbrev PoolOk (s : State) : Prop :=
  (∀ b : DbNum, ∀ db ∈ s.dbs[b], DbOk s.params db) ∧
  (∀ m : ModNum, ∀ md ∈ s.mods[m], ModOk s.params md) ∧
  (∀ u : FuNum, ∀ fu ∈ s.fus[u], FuOk fu s.dbs[filterDb u])

/-- The unit's tap and modulator counts: 0 to 3 whatever the kind (R264), and 1 to 3 in a MultiChorus (R37, R201). -/
abbrev CountsOk (u : ActiveUnit) : Prop :=
  u.nt ≤ 3 ∧ u.nm ≤ 3 ∧ (u.kind = .mc → 1 ≤ u.nt ∧ 1 ≤ u.nm)

/-- The active unit's scalars and counts are in range (R37, R264), and for kinds 1 to 5 `DB[7]` and the modulators are
there as `CFG` built them (R38, R260). -/
abbrev UnitOk (s : State) : Prop :=
  (inUnit s.unit.dry ∧ inUnit s.unit.wet1 ∧ inUnit s.unit.wet2 ∧ inUnit s.unit.gain ∧ Coefficient s.unit.g) ∧
  (∀ n ∈ kindTaps s.unit, ∃ db ∈ s.dbs[effectDb], db.taps.length = n ∧ ∀ t ∈ db.taps, t.delay < db.len) ∧
  (∀ m : ModNum, m.val < kindMods s.unit → s.mods[m].isSome = true) ∧
  CountsOk s.unit

/-- The invariant of the block. -/
abbrev StateOk (s : State) : Prop := ParamsOk s ∧ ContextOk s ∧ FaultOk s ∧ PoolOk s ∧ UnitOk s

end Sys2Proof.Safety
end

