-- ==== Sys2Proof/Certificates/Slice0/Obligations.lean ====
section
/-! DEFINITION. The statements for the provers. The words they are written in come first (namespace
`Sys2Proof.Claims`), from the spec's own vocabulary where it differs from the model's: a table of legal fields, a
buffer as its cells and pointers, a sequence of commands. -/

namespace Sys2Proof.Claims

open Sys2Proof.Machine

/-! ### Encoding -/

/-- The fields that make a word legal, opcode by opcode, on plain numbers (R82, R83, R85, R86): `a`, `b` the two
selectors, `imm` the low 16 bits. In a K format bit 23:21 zero is `a ≤ 1`. -/
def legalFields (opc a b imm : Nat) : Prop :=
  (opc ∈ [0x00, 0x01, 0x04, 0x05, 0x06, 0x20, 0x52] ∧ a = 0 ∧ b = 0 ∧ imm = 0) ∨
  (opc ∈ [0x02, 0x03] ∧ a ≤ 1 ∧ imm = 0) ∨
  (opc = 0x53 ∧ a ≤ 1 ∧ imm ≤ 1) ∨
  (opc ∈ [0x13, 0x14, 0x21, 0x22, 0x23] ∧ a ≤ 7 ∧ b = 0 ∧ imm = 0) ∨
  (opc ∈ [0x30, 0x31] ∧ a ≤ 2 ∧ b = 0 ∧ imm = 0) ∨
  (opc ∈ [0x40, 0x41, 0x42] ∧ a ≤ 6 ∧ b = 0 ∧ imm = 0) ∨
  (opc = 0x10 ∧ a ≤ 7 ∧ b ≤ 3 ∧ imm = 0) ∨
  (opc ∈ [0x12, 0x15] ∧ a ≤ 7 ∧ b ≤ 2 ∧ imm = 0) ∨
  (opc = 0x11 ∧ a ≤ 7 ∧ b = 0 ∧ imm ≤ 1) ∨
  (opc ∈ [0x44, 0x45, 0x46] ∧ a ≤ 6 ∧ b = 0 ∧ imm ≤ 1) ∨
  (opc = 0x50 ∧ a ≤ b ∧ b ≤ 6 ∧ imm ≤ 1) ∨
  (opc = 0x51 ∧ a ≤ b ∧ b ≤ 6 ∧ imm ≤ 3) ∨
  (opc = 0x60 ∧ 1 ≤ a ∧ a ≤ 8 ∧ b = 0 ∧ imm = 0) ∨
  (opc = 0x61 ∧ a = 0 ∧ b = 0 ∧ imm ≤ 1) ∨
  (opc = 0x62 ∧ a = 0 ∧ b = 0)

/-! ### Outcomes -/

/-- The state a fault leaves: `FAULT`, `CAUSE` and `FCMD` written, everything else as before (R284). -/
def faulted (s : State) (c : Cause) : State := { s with fault := true, cause := c, fcmd := s.port.word }

/-- The state with `v` put out: in `R`, and on `DOUT` after what the command already presented (R16). -/
def shown (s : State) (v : Num) : State := { s with r := v, dout := s.dout ++ [v] }

/-- The state with a raw result put out through a clamp. What a clamp makes of a value that is not a number is
free: nothing is said of it (log 4). -/
def Clamped (s : State) (raw : Num) (clampOf : Rat → Rat) (t : State) : Prop :=
  (∀ q, raw = .val q → t = shown s (.val (clampOf q))) ∧
  (raw = .nan → ∃ y, t = { shown s y with draws := s.draws + 1 })

/-- A number cut to [-0.9999, 0.9999] (R15). -/
def cut (q : Rat) : Rat := if q < -(9999 / 10000) then -(9999 / 10000) else if 9999 / 10000 < q then 9999 / 10000 else q

/-- A coefficient times a sample. -/
def times (q : Rat) (x : Num) : Num := (Num.val q).mul x

/-- A delayed sample added to a sum with its weight; nothing is added while its tap is not warm (R103). -/
def addDelayed (acc : Num) (weight : Rat) (d : Option Num) : Num :=
  match d with
  | none => acc
  | some d => acc.add (times weight d)

/-- A run of `n` steps of the machine, nothing when a step is not a next state. -/
def steps : Nat → State → Option State
  | 0, s => some s
  | n + 1, s =>
    match step s with
    | .next t => steps n t
    | _ => none

/-- Commands executed one after the other. -/
def executes : List Instr → State → Option State
  | [], s => some s
  | i :: is, s =>
    match exec i s with
    | .next t => executes is t
    | _ => none

/-! ### Buffers -/

/-- A freshly allocated buffer: capacity, zero cells, `wp` at 0, each tap at minus its delay (R101). -/
structure Fresh (db : Db) (len : Nat) (delays : List Nat) : Prop where
  len_eq : db.len = len
  cells : ∀ i, memRead db.mem i = .val 0
  canonical : Memory.wf db.mem = true
  wp_eq : db.wp = 0
  taps_eq : db.taps = delays.map fun d => ⟨d, -(d : Int)⟩

/-- One more sample stored: the cell at `wp` and no other, and `wp` moved on (R101). -/
structure Stored (db db' : Db) (v : Num) : Prop where
  len_eq : db'.len = db.len
  cells : ∀ i, memRead db'.mem i = if i = db.wp then v else memRead db.mem i
  canonical : Memory.wf db'.mem = true
  wp_eq : db'.wp = if db.wp + 1 = db.len then 0 else db.wp + 1

/-- The pointer of a tap one sample later (R29): past the last cell it starts again at 0. -/
def nextRp (len : Nat) (rp : Int) : Int := if rp + 1 = len then 0 else rp + 1

/-- One sample of a tick: stored, and every tap advanced by one (R74). -/
structure Pushed (db db' : Db) (v : Num) : Prop extends Stored db db' v where
  taps_eq : db'.taps = db.taps.map fun t => ⟨t.delay, nextRp db.len t.rp⟩

/-- The delayed sample of a tap: nothing while the tap is not warm (R103). -/
def delayed (db : Db) (tap : Tap) : Option Num := if tap.rp < 0 then none else some (memRead db.mem tap.rp.toNat)

/-- `p` wrapped into [0, L): the number of that range that differs from it by a multiple of L (R11). -/
def Wrapped (p : Rat) (len : Nat) (w : Rat) : Prop := 0 ≤ w ∧ w < len ∧ ∃ k : Int, p = w + len * k

/-- The linear interpolation at a wrapped position (R122). -/
def lineAt (db : Db) (w : Rat) : Num :=
  let f := w.floor.toNat
  (memRead db.mem f).add (times ((w - f)) ((memRead db.mem ((f + 1) % db.len)).sub (memRead db.mem f)))

/-- `K(i)` (R123). -/
def kernelAt (ip : Ip) (i : Int) : Rat :=
  (if ip.newf / ip.stdf ≤ 1 then ip.newf / ip.stdf else 1) * sinc ((if ip.stdf ≤ ip.newf then ip.stdf else ip.newf) * i)

/-- The 512-tap sum around cell `f`, offsets -255 to 256 ascending (R126). -/
def kernelSum (db : Db) (ip : Ip) (f : Nat) : Num :=
  (List.range 512).foldl
    (fun acc (k : Nat) =>
      let i : Int := (k : Int) - 255
      acc.add ((memRead db.mem (((f : Int) + i) % db.len).toNat).mul (.val (kernelAt ip i)))) (.val 0)

/-- The complete fractional read at a wrapped position (R127). -/
def readAt (db : Db) (ip : Ip) (w : Rat) : Num :=
  if w - w.floor < 1 / 100000 then memRead db.mem w.floor.toNat
  else if ip.policy = .linear then lineAt db w
  else kernelSum db ip w.floor.toNat

/-- Samples through a buffer, each stored and then every tap advanced (R74). -/
def pushes (db : Db) : List Num → Db
  | [] => db
  | x :: xs => pushes (db.write x).advance xs

/-! ### Configuration -/

/-- `P[k]` by number, for a number computed from others. -/
def reg (s : State) (k : Nat) : Num := if h : k < 32 then s.p[k] else .nan

/-- The modulator `modcfg` builds from three operands (R141). -/
structure Built (s : State) (sh fr dp : Num) (md : Modulator) : Prop where
  shape_eq : md.shape = validatedShape sh s.params.defs.shape
  freq_eq : md.freq = validated fr (inCC (1 / 2) 10) s.params.defs.freq
  depth_eq : md.depth = validated dp (inCC 0 (99 / 100)) s.params.defs.depth
  length_eq : (md.tab.length : Int) = (s.srate / md.freq + 1 / 2).floor
  entries : ∀ i, i < md.tab.length → md.tab[i]? = some (wave s.params md.shape i md.tab.length md.depth)
  idx_eq : md.idx = 0

/-- `round(SRATE / freq)` of a frequency operand (R14, R141). -/
def tableEntries (s : State) (fr : Num) : Int :=
  (s.srate / validated fr (inCC (1 / 2) 10) s.params.defs.freq + 1 / 2).floor

/-- The table length of R141 fits: from 1 to `NMAX`. -/
def TableFits (s : State) (fr : Num) : Prop := 1 ≤ tableEntries s fr ∧ tableEntries s fr ≤ s.params.nmax

/-- The table length of R141 does not fit, and the cause that raises: BAD_OPERAND below 1, RESOURCE_EXHAUSTION above
`NMAX`. -/
def TableFault (s : State) (fr : Num) (c : Cause) : Prop :=
  (tableEntries s fr < 1 ∧ c = .badOperand) ∨ (s.params.nmax < tableEntries s fr ∧ c = .resourceExhaustion)

/-- The operands `CFG.MC` goes by: `P[0..18]`, or the whole-unit default when a count is not an integer from 1 to 3
(R201). -/
def chorusOperands (s : State) : McOperands :=
  if s.p[2].passes (isInt 1 3) && s.p[6].passes (isInt 1 3) then McOperands.ofRegs s.p
  else McOperands.ofDefault s.params.defs.mcCfg

/-- The registers of the delays of a reverb's filter units (R227, R229, R231). -/
def reverbDelays : Instr → List Nat
  | .cfgRv1 => [1, 3, 5, 7, 9]
  | .cfgRv2 => [1, 3, 5, 7, 9, 11]
  | .cfgRv3 => [1, 4, 7, 10, 13, 16, 19]
  | _ => []

/-- The three operands of a modulator are in range. -/
def modInRange (sh fr dp : Num) : Bool :=
  sh.passes (isInt 0 3) && fr.passes (inCC (1 / 2) 10) && dp.passes (inCC 0 (99 / 100))

/-- The three operands of the interpolator are in range (R121). -/
def ipInRange (policy stdf newf : Num) : Bool :=
  (decide (policy = .val 0) || decide (policy = .val 1)) && stdf.passes positive && newf.passes positive

/-- `IP` after its three operands were validated (R121). -/
structure IpSet (s : State) (policy stdf newf : Num) (ip : Ip) : Prop where
  policy_eq : ip.policy = if policy = .val 0 then .linear else if policy = .val 1 then .bandlimited else s.params.defs.policy
  stdf_eq : ip.stdf = validated stdf positive s.params.defs.stdf
  newf_eq : ip.newf = validated newf positive s.params.defs.newf

/-- `ms2smp` of a filter unit's validated delay (R161). -/
def filterDelay (s : State) (ms : Num) : Nat :=
  (validated ms (inCC 0 s.params.maxFu) s.params.defs.fuDelay * s.srate / 1000).floor.toNat

/-- The filter unit and the buffer `fucfg` leaves (R161). -/
structure FilterSet (s : State) (ty : FuType) (ms pct1 pct2 : Num) (fu : Option Fu) (db : Option Db) : Prop where
  unit_eq : fu = some ⟨ty, validated pct1 (inCO 0 100) s.params.defs.fuDecay / 100,
    if ty = .lpc then validated pct2 (inCO 0 100) s.params.defs.fuDecay2 / 100 else 0⟩
  buffer : ∃ d, db = some d ∧ Fresh d (filterDelay s ms + 1)
    (if ty = .lpc then [filterDelay s ms, filterDelay s ms + 1] else [filterDelay s ms])

/-- The operands of a filter unit are in range; the second decay is one of a LowPassComb only (R161). -/
def filterInRange (s : State) (ty : FuType) (ms pct1 pct2 : Num) : Bool :=
  ms.passes (inCC 0 s.params.maxFu) && pct1.passes (inCO 0 100) && (decide (ty ≠ .lpc) || pct2.passes (inCO 0 100))

/-- The capacity of an effect buffer (R109, R188). -/
def effectCapacity (s : State) (maxMs : Rat) : Nat := (maxMs * s.srate / 1000).floor.toNat + s.params.margin

/-- A delay in samples of a validated delay in milliseconds (R14). -/
def samples (s : State) (ms : Rat) : Nat := (ms * s.srate / 1000).floor.toNat

/-- The pool with every buffer gone but the effect buffer (R259). -/
def onlyEffect (db : Db) : Vector (Option Db) 8 := (Vector.replicate 8 none).set 7 (some db)

/-- What a basic delay unit leaves in the pool, and the shared records as they were (R38, R259). -/
structure OnlyEffect (s t : State) (db : Db) : Prop where
  dbs_eq : t.dbs = onlyEffect db
  mods_eq : t.mods = Vector.replicate 3 none
  fus_eq : t.fus = Vector.replicate 7 none
  ip_eq : t.ip = s.ip
  mixr_eq : t.mixr = s.mixr

/-- Everything a `CFG` leaves alone, and the pool it cleared (R258, R259). -/
def Rebuilt (s t : State) (anyDefault : Bool) : Prop :=
  t = { s with
    dbs := t.dbs, mods := t.mods, fus := t.fus, ip := t.ip, mixr := t.mixr, unit := t.unit
    defsub := s.defsub || anyDefault }

/-! ### Running units -/

/-- The tick command of a type of filter unit. -/
def tickOf : FuType → FuNum → Src → Instr
  | .ap, u, src => .apTick u src
  | .cb, u, src => .cbTick u src
  | .lpc, u, src => .lpcTick u src

/-- One sample through filter unit `u` by its own tick command, `x` offered on `DIN`. -/
def tickOn (u : FuNum) (x : Num) (s : State) : Option State :=
  match s.fus[u] with
  | none => none
  | some fu =>
    match exec (tickOf fu.type u .din) { s with port := { s.port with din := [x] } } with
    | .next t => some { t with port := s.port, dout := s.dout }
    | _ => none

/-- Units in series by their own tick commands: each gets the result of the one before. -/
def seriesOn : List FuNum → Num → State → Option (Num × State)
  | [], x, s => some (x, s)
  | u :: us, x, s => (tickOn u x s).bind fun t => seriesOn us t.r t

/-- Units in parallel by their own tick commands: all get `x`, their results are added up from `acc`. -/
def parallelOn (x : Num) : List FuNum → Num → State → Option (Num × State)
  | [], acc, s => some (acc, s)
  | u :: us, acc, s => (tickOn u x s).bind fun t => parallelOn x us (acc.add t.r) t

/-- `TICK` commands on the values of a list, each offered on `DIN`. -/
def ticks : List Num → State → Option State
  | [], s => some s
  | x :: xs, s =>
    match exec (.tick .din) { s with port := { s.port with din := [x] } } with
    | .next t => ticks xs t
    | _ => none

/-- Every cell of every buffer is a number. -/
def Numeric (s : State) : Prop := ∀ b : DbNum, ∀ db ∈ s.dbs[b], ∀ i, memRead db.mem i ≠ .nan

end Sys2Proof.Claims

open Sys2Proof Sys2Proof.Machine Sys2Proof.Claims

/-! ### Encoding -/

/-- R82, R83, R85: the word of a command decodes to that command, with every operand at every value. -/
def Obligations.DecodeUndoesEncode : Prop := ∀ i : Instr, i.wf = true → decode (encode i) = .ok i

/-- R83, R86, R87: a legal word is the word of the one command it decodes to, so no bit of it is dropped and no
other word stands for the same command. -/
def Obligations.LegalWordIsItsCommandsWord : Prop :=
  ∀ (w : CmdWord) (i : Instr), decode w = .ok i → i.wf = true ∧ encode i = w

/-- R86: a word is legal exactly when its fields are those of a row of the opcode map. -/
def Obligations.IllegalWordsExactly : Prop :=
  ∀ w : CmdWord, (∃ e, decode w = .error e) ↔
    ¬ legalFields (w.toNat / 2 ^ 24) (w.toNat / 2 ^ 20 % 16) (w.toNat / 2 ^ 16 % 16) (w.toNat % 2 ^ 16)

/-- R89's words, and one of each other family. -/
def Obligations.WrittenWordsDecode : Prop :=
  decode 0x44400001 = .ok (.apTick 4 .r) ∧ decode 0x51050003 = .ok (.parTick 0 5 .r true) ∧
  decode 0x60800000 = .ok .cfgRv3 ∧ decode 0x62000040 = .ok (.block 64) ∧ decode 0x02110000 = .ok (.pld 17) ∧
  decode 0x53010001 = .ok (.mix 1 .r) ∧ decode 0x10710000 = .ok (.dbAlloc 7 1) ∧ decode 0x12700000 = .ok (.dbRd 7 0) ∧
  decode 0x21700000 = .ok (.ipLin 7) ∧ decode 0x31000000 = .ok (.modNext 0) ∧ decode 0x61000001 = .ok (.tick .r)

/-! ### Steps -/

/-- R20, R262: a step performs the host's next command: `exec` of what its word decodes to, with the command's ports
driven and `DOUT` having presented nothing yet. -/
def Obligations.StepRunsDecodedCommand : Prop :=
  ∀ (s : State) (ports : Ports) (rest : List HostEvent) (i : Instr),
    s.pending = .command ports :: rest → decode ports.word = .ok i →
    step s = exec i { s with port := ports, pending := rest, dout := [] }

/-- R86, R284, R288: an illegal word raises ILLEGAL_CMD, and changes nothing else. -/
def Obligations.IllegalWordFaults : Prop :=
  ∀ (s : State) (ports : Ports) (rest : List HostEvent) (e : Illegal),
    s.fault = false → s.pending = .command ports :: rest → decode ports.word = .error e →
    step s = .next (faulted { s with port := ports, pending := rest, dout := [] } .illegalCmd)

/-- R310, R251, R41: `RESET`, also in the fault state, gives every piece of state its reset value, `STATUS` reads 0
after it, and a hardware reset leaves what `RESET` leaves. The fields that are the model's own keep what the host gave
them (log 14). -/
def Obligations.ResetGivesResetValues : Prop :=
  (∀ s : State, exec .reset s = .next
    { s with
      p := Vector.replicate 32 (.val 0), r := .val 0, srate := 0, mode := .stopped, fault := false, warm := false
      defsub := false, exh := false, cause := .none, fcmd := 0, dbs := Vector.replicate 8 none
      mods := Vector.replicate 3 none, fus := Vector.replicate 7 none, ip := ⟨.linear, 1, 1⟩, mixr := 1 / 2
      unit := ⟨.none, 0, 0, 0, 0, 0, 0, 0⟩ }) ∧
  (∀ (s : State) (rest : List HostEvent), s.pending = .hardwareReset :: rest →
    step s = exec .reset { s with pending := rest, dout := [] } ∧ ∃ t, step s = .next t ∧ t.statusPort = (0, 0))

/-- R287: the fault state is terminal until `RESET`. Over any number of steps on a stream that holds no legal `RESET`
and no hardware reset, a state with `FAULT` = 1 changes in nothing but the command stream and the ports; and the
first legal `RESET` leaves it. -/
def Obligations.FaultStateIsTerminal : Prop :=
  (∀ (n : Nat) (s : State), s.fault = true →
    (∀ e ∈ s.pending, e ≠ .hardwareReset ∧ ∀ ports, e = .command ports → ports.word ≠ 0x01000000) →
    ∃ t, steps n s = some t ∧ t = { s with pending := s.pending.drop n, port := t.port, dout := t.dout } ∧
      t.statusPort = s.statusPort ∧ (t.dout = s.dout ∨ t.dout = [])) ∧
  (∀ (s : State) (ports : Ports) (rest : List HostEvent),
    s.pending = .command ports :: rest → ports.word = 0x01000000 →
    ∃ t, step s = .next t ∧ t.fault = false ∧ t.status = 0 ∧ t.fcmd = 0)

/-- R292, R293: a configuration command in RUNNING and a data command in STOPPED raise MODE_VIOLATION and change
nothing else; a command of class any is legal in both modes. -/
def Obligations.WrongModeFaults : Prop :=
  ∀ (i : Instr) (s : State), s.fault = false →
    (i.cls = .cfg → s.mode = .running → exec i s = .next (faulted s .modeViolation)) ∧
    (i.cls = .data → s.mode = .stopped → exec i s = .next (faulted s .modeViolation)) ∧
    (i.cls = .any → ∀ t, exec i s = .next t → t.fault = true → t.cause ≠ .modeViolation)

/-- R284, R286: a command that faults changes exactly `FAULT`, `CAUSE` and `FCMD`. -/
def Obligations.FaultsAreAllOrNothing : Prop :=
  ∀ (i : Instr) (s t : State), s.fault = false → exec i s = .next t → t.fault = true →
    ∃ c, c ≠ .none ∧ t = faulted s c

/-- R300, R285: the faults each command can raise beyond MODE_VIOLATION. -/
def Obligations.OnlyListedFaultsAreRaised : Prop :=
  ∀ (i : Instr) (s t : State), s.fault = false → exec i s = .next t → t.fault = true →
    (i.cls ≠ .any ∧ t.cause = .modeViolation) ∨ t.cause ∈ i.ownCauses

/-! ### Whole-machine rules -/

/-- R22, R24, R25, R33, R294: who writes what. Only `PLD k` and `PMV k` write `P[k]`; only `CTX.SET` writes `SRATE`;
only `START` and `STOP` write `MODE`; only `DB.RD` writes `WARM`; only `TICK` and `BLOCK` write `EXH`; only a
configuration command sets `DEFSUB` and none clears it. `RESET` writes them all. -/
def Obligations.WritersOfRegistersAndFlags : Prop :=
  ∀ (i : Instr) (s t : State), exec i s = .next t → i ≠ .reset →
    (∀ k : PNum, i ≠ .pld k → i ≠ .pmv k → t.p[k] = s.p[k]) ∧
    (i ≠ .ctxSet → t.srate = s.srate) ∧ (i ≠ .start → i ≠ .stop → t.mode = s.mode) ∧
    ((∀ b k, i ≠ .dbRd b k) → t.warm = s.warm) ∧
    ((∀ x, i ≠ .tick x) → (∀ n, i ≠ .block n) → t.exh = s.exh) ∧
    (s.defsub = true → t.defsub = true) ∧ (i.cls ≠ .cfg → t.defsub = s.defsub)

/-- R323: the commands that do not write `R`; `DOUT` presents nothing with them either. -/
def Obligations.CommandsThatKeepTheResult : Prop :=
  ∀ (i : Instr) (s t : State), exec i s = .next t →
    (i = .nop ∨ (∃ k, i = .pld k) ∨ (∃ k, i = .pmv k) ∨ i = .start ∨ i = .stop ∨ i.cls = .cfg ∨
      (∃ b x, i = .dbWr b x) ∨ (∃ b, i = .dbAdv b)) →
    t.r = s.r ∧ t.dout = s.dout

/-- R263, R28: no data command changes any `alloc`, `L`, `ntap`, `D`, `cfgd`, `N`, table or `type`, nor the unit, `IP`
or `MIXR`. -/
def Obligations.DataCommandsAllocateNothing : Prop :=
  ∀ (i : Instr) (s t : State), i.cls = .data → exec i s = .next t →
    (∀ b : DbNum, (t.dbs[b]).map (fun d => (d.len, d.taps.map Tap.delay)) =
      (s.dbs[b]).map (fun d => (d.len, d.taps.map Tap.delay))) ∧
    (∀ m : ModNum, (t.mods[m]).map (fun d => (d.shape, d.freq, d.depth, d.tab)) =
      (s.mods[m]).map (fun d => (d.shape, d.freq, d.depth, d.tab))) ∧
    t.fus = s.fus ∧ t.unit = s.unit ∧ t.ip = s.ip ∧ t.mixr = s.mixr ∧ t.params = s.params

/-- R33, R34, R37, R285: the layout of `STATUS`, with the codes of the causes and of the kinds. -/
def Obligations.StatusLayout : Prop :=
  (∀ s : State, s.status.toNat =
    (if s.mode = .running then 1 else 0) + (if s.fault then 2 else 0) + (if s.warm then 4 else 0) +
    (if s.defsub then 8 else 0) + (if s.exh then 16 else 0) + 2 ^ 8 * s.cause.code.toNat +
    2 ^ 12 * s.unit.kind.code.toNat) ∧
  ([Cause.none, .illegalCmd, .modeViolation, .resourceExhaustion, .notReady, .badOperand, .noContext].map
    fun c => c.code.toNat) = [0, 1, 2, 3, 4, 5, 6] ∧
  ([Kind.none, .sd, .dd, .fd, .mc, .fc, .rv1, .rv2, .rv3].map fun k => k.code.toNat) = [0, 1, 2, 3, 4, 5, 6, 7, 8]

/-- The reset state is good: R9's constraints, R27 to R38's ranges. -/
def Obligations.ResetStateIsGood : Prop := Safety.StateOk State.reset

/-- Every step keeps the ranges and relations of R9, R24, R27, R28, R30 to R32, R34, R35, R37, R38, R142, R147, R161
and R264, from every state that has them: pointers inside their buffers, canonical cells, every table the one its
shape, length and depth give with its entries in their range (that of an open `SAW` or `TRI` is the model's choice,
log 6), coefficients and scalars in range, the unit's counts from 0 to 3 whatever its kind, `CAUSE` set exactly with
`FAULT`, every active delay or chorus unit with the buffer and the modulators it owns. -/
def Obligations.StepKeepsGoodState : Prop :=
  ∀ s t : State, Safety.StateOk s → step s = .next t → Safety.StateOk t

/-! ### System commands -/

/-- R250, R254, R255. -/
def Obligations.NopStartStop : Prop :=
  ∀ s : State, exec .nop s = .next s ∧
    (s.fault = false →
      exec .start s = .next { s with mode := .running } ∧ exec .stop s = .next { s with mode := .stopped })

/-- R252, R253: `P[k] <- DIN` and `P[k] <- R`. With no value offered on `DIN`, some value is loaded (log 3). -/
def Obligations.LoadsWriteOneParameter : Prop :=
  ∀ (k : PNum) (s : State), s.fault = false →
    (∀ v rest, s.port.din = v :: rest → exec (.pld k) s = .next { s with p := s.p.set k v }) ∧
    (s.port.din = [] → ∃ v, exec (.pld k) s = .next { s with p := s.p.set k v, draws := s.draws + 1 }) ∧
    exec (.pmv k) s = .next { s with p := s.p.set k s.r }

/-- R256, R318: `SRATE <- P[0]` and nothing else; a value below 1 or not a number raises BAD_OPERAND. -/
def Obligations.CtxSetSetsRate : Prop :=
  ∀ s : State, s.fault = false → s.mode = .stopped →
    (∀ q, s.p[0] = .val q → 1 ≤ q → exec .ctxSet s = .next { s with srate := q }) ∧
    ((∀ q, s.p[0] = .val q → q < 1) → exec .ctxSet s = .next (faulted s .badOperand))

/-! ### Delay buffers -/

/-- R102: `DB.ALLOC`. -/
def Obligations.DbAllocBuildsBuffer : Prop :=
  ∀ (b : DbNum) (nt : TapCount) (s : State) (cap : Rat) (q : Nat → Rat),
    s.fault = false → s.mode = .stopped → s.p[0] = .val cap → 1 ≤ cap → cap.floor ≤ s.params.lmax →
    (∀ k, k < nt.val → reg s (1 + k) = .val (q k) ∧ 0 ≤ q k ∧ (q k).floor ≤ cap.floor) →
    ∃ t db, exec (.dbAlloc b nt) s = .next t ∧
      Fresh db cap.floor.toNat ((List.range nt.val).map fun k => (q k).floor.toNat) ∧
      t = { s with dbs := s.dbs.set b (some db), fus := t.fus, unit := t.unit } ∧
      (∀ u : FuNum, t.fus[u] = if u.val = b.val then none else s.fus[u]) ∧
      t.unit = if b = 7 ∧ s.unit.kind ∈ [.sd, .dd, .fd, .mc, .fc] then { s.unit with kind := .none } else s.unit

/-- R102, R288: the order of `DB.ALLOC`'s checks. -/
def Obligations.DbAllocFaultOrder : Prop :=
  ∀ (b : DbNum) (nt : TapCount) (s : State), s.fault = false → s.mode = .stopped →
    ((∀ cap, s.p[0] = .val cap → cap < 1) → exec (.dbAlloc b nt) s = .next (faulted s .badOperand)) ∧
    (∀ cap, s.p[0] = .val cap → 1 ≤ cap → (s.params.lmax : Int) < cap.floor →
      exec (.dbAlloc b nt) s = .next (faulted s .resourceExhaustion)) ∧
    (∀ cap k, s.p[0] = .val cap → 1 ≤ cap → cap.floor ≤ s.params.lmax → k < nt.val →
      (∀ q, reg s (1 + k) = .val q → q < 0 ∨ cap.floor < q.floor) →
      exec (.dbAlloc b nt) s = .next (faulted s .badOperand))

/-- R84: the input sample: `R` when `S` = 1; when `S` = 0 the value on `DIN`, and where the host offers none some
value, which takes one free value (log 3). -/
def Obligations.InputSampleBySource : Prop :=
  ∀ s : State, s.input .r = (s, s.r) ∧ (∀ v rest, s.port.din = v :: rest → s.input .din = (s, v)) ∧
    (s.port.din = [] → ∃ v, s.input .din = ({ s with draws := s.draws + 1 }, v))

/-- R104: `DB.WR` stores X, as it is, at `wp` and advances `wp`; no tap moves, nothing else changes. A buffer that is
not allocated raises NOT_READY. -/
def Obligations.DbWrStoresSample : Prop :=
  ∀ (b : DbNum) (src : Src) (s s' : State) (x : Sys2Proof.Num),
    s.fault = false → s.mode = .running → s.input src = (s', x) →
    (∀ db, s.dbs[b] = some db → Safety.DbOk s.params db →
      ∃ db', exec (.dbWr b src) s = .next { s' with dbs := s.dbs.set b (some db') } ∧
        Stored db db' x ∧ db'.taps = db.taps) ∧
    (s.dbs[b] = none → exec (.dbWr b src) s = .next (faulted s .notReady))

/-- R105: `DB.RD` gives the delayed sample with `WARM` = 1, or 0 with `WARM` = 0; it advances nothing. A buffer that is
not allocated, or a tap that is not in use, raises NOT_READY. -/
def Obligations.DbRdReadsTap : Prop :=
  ∀ (b : DbNum) (k : TapNum) (s : State), s.fault = false → s.mode = .running →
    (∀ db tap, s.dbs[b] = some db → db.taps[k.val]? = some tap →
      exec (.dbRd b k) s = .next (shown { s with warm := decide (0 ≤ tap.rp) } ((delayed db tap).getD (.val 0)))) ∧
    (s.dbs[b] = none → exec (.dbRd b k) s = .next (faulted s .notReady)) ∧
    (∀ db, s.dbs[b] = some db → db.taps.length ≤ k.val → exec (.dbRd b k) s = .next (faulted s .notReady))

/-- R106: `DB.ADV` advances every tap pointer by one sample and nothing else. A buffer that is not allocated raises
NOT_READY. -/
def Obligations.DbAdvAdvancesTaps : Prop :=
  ∀ (b : DbNum) (s : State), s.fault = false → s.mode = .running →
    (∀ db, s.dbs[b] = some db → Safety.DbOk s.params db →
      exec (.dbAdv b) s = .next { s with
        dbs := s.dbs.set b (some { db with taps := db.taps.map fun t => ⟨t.delay, nextRp db.len t.rp⟩ }) }) ∧
    (s.dbs[b] = none → exec (.dbAdv b) s = .next (faulted s .notReady))

/-- R107, R61: `DB.PEEK` reads the cell at `floor(P[0])` reduced mod L, in either mode. A buffer that is not allocated
raises NOT_READY, a `P[0]` that is not a number BAD_OPERAND. -/
def Obligations.DbPeekReadsCell : Prop :=
  ∀ (b : DbNum) (s : State), s.fault = false →
    (∀ db q, s.dbs[b] = some db → s.p[0] = .val q → 1 ≤ db.len →
      ∃ i : Nat, i < db.len ∧ (∃ k : Int, q.floor = i + db.len * k) ∧
        exec (.dbPeek b) s = .next (shown s (memRead db.mem i))) ∧
    (s.dbs[b] = none → exec (.dbPeek b) s = .next (faulted s .notReady)) ∧
    (∀ db, s.dbs[b] = some db → s.p[0] = .nan → exec (.dbPeek b) s = .next (faulted s .badOperand))

/-- R108: `DB.MPOS` gives `wp - D * P[0]` wrapped into [0, L). A buffer that is not allocated, or a tap that is not in
use, raises NOT_READY; with the tap there, a `P[0]` that is not a number raises BAD_OPERAND. -/
def Obligations.DbMposGivesPosition : Prop :=
  ∀ (b : DbNum) (k : TapNum) (s : State), s.fault = false → s.mode = .running →
    (∀ db tap q, s.dbs[b] = some db → db.taps[k.val]? = some tap → s.p[0] = .val q → 1 ≤ db.len →
      ∃ w, Wrapped ((db.wp : Rat) - tap.delay * q) db.len w ∧ exec (.dbMpos b k) s = .next (shown s (.val w))) ∧
    (s.dbs[b] = none → exec (.dbMpos b k) s = .next (faulted s .notReady)) ∧
    (∀ db, s.dbs[b] = some db → db.taps.length ≤ k.val → exec (.dbMpos b k) s = .next (faulted s .notReady)) ∧
    (∀ db, s.dbs[b] = some db → k.val < db.taps.length → s.p[0] = .nan →
      exec (.dbMpos b k) s = .next (faulted s .badOperand))

/-- R110: exact delay. On a fresh buffer used by ticks that read, then write, then advance, a tap of delay D with
1 ≤ D ≤ L is not warm for the first D samples and then reads the sample written D ticks before; a tap of delay 0 is
warm at once and reads 0 for L ticks, then the sample written L ticks before. -/
def Obligations.ExactDelay : Prop :=
  ∀ (len : Nat) (delays : List Nat) (k d : Nat) (xs : List Sys2Proof.Num), 1 ≤ len → delays[k]? = some d → d ≤ len →
    ∃ tap, (pushes (Db.alloc len delays) xs).taps[k]? = some tap ∧
      delayed (pushes (Db.alloc len delays) xs) tap =
        if d = 0 then some (if xs.length < len then .val 0 else xs.getD (xs.length - len) .nan)
        else if xs.length < d then none else some (xs.getD (xs.length - d) .nan)

/-! ### Interpolator -/

/-- R121. -/
def Obligations.IpCfgSetsInterpolator : Prop :=
  ∀ s : State, s.fault = false → s.mode = .stopped →
    ∃ ip, IpSet s s.p[0] s.p[1] s.p[2] ip ∧
      exec .ipCfg s = .next { s with ip := ip, defsub := s.defsub || !ipInRange s.p[0] s.p[1] s.p[2] }

/-- R122, R126, R127: the three reads at position `P[0]`, each at the position wrapped into [0, L). -/
def Obligations.InterpolatedReads : Prop :=
  ∀ (b : DbNum) (s : State) (db : Db) (q w : Rat),
    s.fault = false → s.mode = .running → s.dbs[b] = some db → s.p[0] = .val q → 1 ≤ db.len → Wrapped q db.len w →
    exec (.ipLin b) s = .next (shown s (lineAt db w)) ∧
    exec (.ipBl b) s = .next (shown s (kernelSum db s.ip w.floor.toNat)) ∧
    exec (.ipRd b) s = .next (shown s (readAt db s.ip w))

/-- R122, R128: linear interpolation is exact at integral positions, and between two equal numbers it gives that
number at every position. -/
def Obligations.LinearReadIsExact : Prop :=
  ∀ (b : DbNum) (s : State) (db : Db) (q v : Rat) (f : Nat),
    s.fault = false → s.mode = .running → s.dbs[b] = some db → s.p[0] = .val q → f < db.len →
    memRead db.mem f = .val v → (∃ k : Int, (f : Int) + db.len * k = q.floor) →
    (q = q.floor ∧ memRead db.mem ((f + 1) % db.len) ≠ .nan) ∨ memRead db.mem ((f + 1) % db.len) = .val v →
    exec (.ipLin b) s = .next (shown s (.val v))

/-- R125: with equal integer frequencies the kernel is the unit impulse: the bandlimited read gives the cell at the
integer part of the position. -/
def Obligations.EqualFrequenciesReadTheCell : Prop :=
  ∀ (b : DbNum) (s : State) (db : Db) (q w : Rat) (c : Int),
    s.fault = false → s.mode = .running → s.dbs[b] = some db → s.p[0] = .val q → 1 ≤ db.len → Wrapped q db.len w →
    c ≠ 0 → s.ip.stdf = c → s.ip.newf = c → (∀ i, memRead db.mem i ≠ .nan) →
    exec (.ipBl b) s = .next (shown s (memRead db.mem w.floor.toNat))

/-! ### Modulators -/

/-- R141: `MOD.CFG`. -/
def Obligations.ModCfgBuildsTable : Prop :=
  ∀ (m : ModNum) (s : State), Safety.StateOk s → s.fault = false → s.mode = .stopped → s.srate ≠ 0 →
    TableFits s s.p[1] →
    ∃ md, Built s s.p[0] s.p[1] s.p[2] md ∧ exec (.modCfg m) s = .next { s with
      mods := s.mods.set m (some md), defsub := s.defsub || !modInRange s.p[0] s.p[1] s.p[2] }

/-- R285, R288: the checks of `MOD.CFG`, of the filter configurations and of `CFG`, in order. Context: `SRATE` = 0 raises NO_CONTEXT in
`MOD.CFG` (R141), in the three filter configurations (R161, R164, R166) and in every `CFG` (R181, R184, R186, R201,
R206, R226). Capacity: above `LMAX` RESOURCE_EXHAUSTION, of the filter's buffer (R161), of the effect buffer of the five
delay and chorus units (R109, R188), of the buffer of any filter unit of a reverb (R227, R229, R231). Table length, with
a capacity that fits: BAD_OPERAND below 1 and RESOURCE_EXHAUSTION above `NMAX`, in `MOD.CFG` (R141), `CFG.FC` (R206)
and `CFG.MC` (R201), there by the first modulator in use whose table does not fit. -/
def Obligations.ConfigurationFaultOrder : Prop :=
  ∀ s : State, s.fault = false → s.mode = .stopped →
    (s.srate = 0 → ∀ i, (∃ m, i = .modCfg m) ∨ (∃ u, i = .apCfg u) ∨ (∃ u, i = .cbCfg u) ∨ (∃ u, i = .lpcCfg u) ∨
      i = .cfgSd ∨ i = .cfgDd ∨ i = .cfgFd ∨ i = .cfgMc ∨ i = .cfgFc ∨ i = .cfgRv1 ∨ i = .cfgRv2 ∨ i = .cfgRv3 →
      exec i s = .next (faulted s .noContext)) ∧
    (s.srate ≠ 0 →
      (s.params.lmax < filterDelay s s.p[0] + 1 → ∀ u i, i = .apCfg u ∨ i = .cbCfg u ∨ i = .lpcCfg u →
        exec i s = .next (faulted s .resourceExhaustion)) ∧
      (∀ i maxMs, (i, maxMs) ∈ [(Instr.cfgSd, s.params.maxSd), (.cfgDd, s.params.maxDd), (.cfgFd, s.params.maxFd),
          (.cfgMc, s.params.maxMc), (.cfgFc, s.params.maxFc)] → s.params.lmax < effectCapacity s maxMs →
        exec i s = .next (faulted s .resourceExhaustion)) ∧
      (∀ i, ∀ k ∈ reverbDelays i, s.params.lmax < filterDelay s (reg s k) + 1 →
        exec i s = .next (faulted s .resourceExhaustion))) ∧
    (Safety.StateOk s → s.srate ≠ 0 → ∀ c,
      (∀ m, TableFault s s.p[1] c → exec (.modCfg m) s = .next (faulted s c)) ∧
      (effectCapacity s s.params.maxFc ≤ s.params.lmax → TableFault s s.p[4] c →
        exec .cfgFc s = .next (faulted s c)) ∧
      (∀ (q : McOperands) (nm : Nat) (before after : List Sys2Proof.Num) (fr : Sys2Proof.Num),
        effectCapacity s s.params.maxMc ≤ s.params.lmax → q = chorusOperands s → q[6] = .val nm →
        [q[8], q[11], q[14]].take nm = before ++ fr :: after → (∀ f ∈ before, TableFits s f) → TableFault s fr c →
        exec .cfgMc s = .next (faulted s c)))

/-- R148: `MOD.NEXT` gives the entry at `idx` and moves `idx` on; without a table it raises NOT_READY. -/
def Obligations.ModNextGivesEntry : Prop :=
  ∀ (m : ModNum) (s : State), s.fault = false → s.mode = .running →
    (∀ md, s.mods[m] = some md → md.idx < md.tab.length →
      ∃ c, md.tab[md.idx]? = some c ∧ exec (.modNext m) s = .next (shown { s with
        mods := s.mods.set m (some { md with idx := if md.idx + 1 = md.tab.length then 0 else md.idx + 1 }) }
        (.val c))) ∧
    (s.mods[m] = none → exec (.modNext m) s = .next (faulted s .notReady))

/-- R149: N calls return to the first value: the (k + N)-th value returned equals the k-th. -/
def Obligations.ModulatorIsPeriodic : Prop :=
  ∀ (m : ModNum) (s : State) (md : Modulator) (k : Nat),
    s.fault = false → s.mode = .running → s.mods[m] = some md → md.idx < md.tab.length →
    ∃ t u, executes (List.replicate (k + 1) (.modNext m)) s = some t ∧
      executes (List.replicate (k + 1 + md.tab.length) (.modNext m)) s = some u ∧ u.r = t.r

/-- R143 to R147: the ranges of the tables `MOD.CFG` builds; a sine starts at exactly 1 and a square has its two
values in its two halves. For an open `SAW` or `TRI` (R145, R146) the two range clauses are the model's choice (log 6):
R147 speaks of the reference tables only. -/
def Obligations.TableRanges : Prop :=
  ∀ (s : State) (sh fr dp : Sys2Proof.Num) (md : Modulator) (i : Nat) (c : Rat),
    Safety.StateOk s → Built s sh fr dp md → md.tab[i]? = some c →
    (md.shape ≠ .saw → 1 - md.depth ≤ c ∧ c ≤ 1 + md.depth) ∧
    (md.shape = .saw → 1 - 2 * md.depth ≤ c ∧ c ≤ 1 + 2 * md.depth) ∧
    (md.shape = .sine → i = 0 → c = 1) ∧
    (md.shape = .square → c = if 2 * i < md.tab.length then 1 - md.depth else 1 + md.depth)

/-! ### Filter primitives -/

/-- R161, R164, R166: the configuration of a filter unit. -/
def Obligations.FilterCfgBuildsUnit : Prop :=
  ∀ (u : FuNum) (ty : FuType) (i : Instr) (s : State),
    s.fault = false → s.mode = .stopped → s.srate ≠ 0 → filterDelay s s.p[0] + 1 ≤ s.params.lmax →
    i = (match ty with
      | .ap => .apCfg u
      | .cb => .cbCfg u
      | .lpc => .lpcCfg u) →
    ∃ fu db, FilterSet s ty s.p[0] s.p[1] s.p[2] fu db ∧ exec i s = .next { s with
      dbs := s.dbs.set (filterDb u) db, fus := s.fus.set u fu
      defsub := s.defsub || !filterInRange s ty s.p[0] s.p[1] s.p[2] }

/-- R163, R160, R74: one sample through an Allpass. -/
def Obligations.ApTickRunsAllpass : Prop :=
  ∀ (u : FuNum) (src : Src) (s s' : State) (x : Sys2Proof.Num) (fu : Fu) (db : Db) (tap : Tap),
    s.fault = false → s.mode = .running → s.fus[u] = some fu → fu.type = .ap → s.dbs[filterDb u] = some db →
    Safety.DbOk s.params db → db.taps[0]? = some tap → s.input src = (s', x) →
    ∃ t db' stored raw, exec (.apTick u src) s = .next t ∧
      stored = addDelayed x fu.g1 (delayed db tap) ∧
      (delayed db tap = none → raw = times (-fu.g1) x) ∧
      (∀ d, delayed db tap = some d → raw = (times (-fu.g1) stored).add d) ∧
      Pushed db db' stored ∧ Clamped { s' with dbs := s.dbs.set (filterDb u) (some db') } raw cut t

/-- R165, R160, R74: one sample through a Comb. -/
def Obligations.CbTickRunsComb : Prop :=
  ∀ (u : FuNum) (src : Src) (s s' : State) (x : Sys2Proof.Num) (fu : Fu) (db : Db) (tap : Tap),
    s.fault = false → s.mode = .running → s.fus[u] = some fu → fu.type = .cb → s.dbs[filterDb u] = some db →
    Safety.DbOk s.params db → db.taps[0]? = some tap → s.input src = (s', x) →
    ∃ t db' stored, exec (.cbTick u src) s = .next t ∧
      stored = addDelayed x fu.g1 (delayed db tap) ∧ Pushed db db' stored ∧
      Clamped { s' with dbs := s.dbs.set (filterDb u) (some db') } (times (-fu.g1) stored) cut t

/-- R167, R160, R74: one sample through a LowPassComb. -/
def Obligations.LpcTickRunsLowPassComb : Prop :=
  ∀ (u : FuNum) (src : Src) (s s' : State) (x : Sys2Proof.Num) (fu : Fu) (db : Db) (tap0 tap1 : Tap),
    s.fault = false → s.mode = .running → s.fus[u] = some fu → fu.type = .lpc → s.dbs[filterDb u] = some db →
    Safety.DbOk s.params db → db.taps[0]? = some tap0 → db.taps[1]? = some tap1 → s.input src = (s', x) →
    ∃ t db' stored, exec (.lpcTick u src) s = .next t ∧
      (delayed db tap0 = none → stored = x) ∧
      (∀ d0, delayed db tap0 = some d0 → delayed db tap1 = none → stored = x.add (times fu.g1 d0)) ∧
      (∀ d0 d1, delayed db tap0 = some d0 → delayed db tap1 = some d1 →
        stored = x.add (times fu.g1 (d0.add (times fu.g2 d1)))) ∧
      Pushed db db' stored ∧
      Clamped { s' with dbs := s.dbs.set (filterDb u) (some db') } (times (-fu.g1) stored) cut t

/-- R122, R126, R127, R285, R288: an interpolator read of a buffer that is not allocated raises NOT_READY, whatever
`P[0]` holds; of one that is there, with a `P[0]` that is not a number, BAD_OPERAND. R163, R165, R167, R221 to R223: a
filter tick on a unit of another type or of none, and an engine command over a range that holds a unit of type NONE,
raise NOT_READY before anything is ticked. -/
def Obligations.NotReadyCommandsFault : Prop :=
  ∀ s : State, s.fault = false → s.mode = .running →
    (∀ (b : DbNum) (i : Instr), i = .ipLin b ∨ i = .ipBl b ∨ i = .ipRd b →
      (s.dbs[b] = none → exec i s = .next (faulted s .notReady)) ∧
      (∀ db, s.dbs[b] = some db → s.p[0] = .nan → exec i s = .next (faulted s .badOperand))) ∧
    (∀ (u : FuNum) (src : Src) (ty : FuType), (s.fus[u]).map Fu.type ≠ some ty →
      exec (tickOf ty u src) s = .next (faulted s .notReady)) ∧
    (∀ (a b u : FuNum) (src : Src) (c : Bool), a ≤ u → u ≤ b → s.fus[u] = none →
      exec (.serTick a b src) s = .next (faulted s .notReady) ∧
      exec (.parTick a b src c) s = .next (faulted s .notReady))

/-! ### Engines and mixer -/

/-- R221, R222: `SER.TICK` is the tick commands of its units one after the other, the result of each the input of the
next. -/
def Obligations.SerTickIsChainOfTicks : Prop :=
  ∀ (a b : FuNum) (src : Src) (s s' : State) (x : Sys2Proof.Num),
    Safety.StateOk s → s.fault = false → s.mode = .running → (∀ u, a ≤ u → u ≤ b → (s.fus[u]).isSome = true) →
    s.input src = (s', x) →
    ∃ y t, seriesOn ((List.finRange 7).filter fun u => a ≤ u ∧ u ≤ b) x s' = some (y, t) ∧
      exec (.serTick a b src) s = .next { t with r := y, dout := s.dout ++ [y] }

/-- R221, R223: `PAR.TICK` is the tick commands of its units on one input, their results added up in ascending order
and, with `C` = 1, the sum clamped. -/
def Obligations.ParTickIsSumOfTicks : Prop :=
  ∀ (a b : FuNum) (src : Src) (c : Bool) (s s' : State) (x : Sys2Proof.Num),
    Safety.StateOk s → s.fault = false → s.mode = .running → (∀ u, a ≤ u → u ≤ b → (s.fus[u]).isSome = true) →
    s.input src = (s', x) →
    ∃ y t u, parallelOn x ((List.finRange 7).filter fun u => a ≤ u ∧ u ≤ b) (.val 0) s' = some (y, t) ∧
      exec (.parTick a b src c) s = .next u ∧
      (c = false → u = { t with r := y, dout := s.dout ++ [y] }) ∧
      (c = true → Clamped t y (clampSample s.params) u)

/-- R224, R35: the mix ratio, 50 percent when the operand is out of range. -/
def Obligations.MixSetSetsRatio : Prop :=
  ∀ s : State, s.fault = false → s.mode = .stopped →
    (∀ q, s.p[0] = .val q → 0 ≤ q → q ≤ 100 → exec .mixSet s = .next { s with mixr := q / 100 }) ∧
    ((∀ q, s.p[0] = .val q → q < 0 ∨ 100 < q) → exec .mixSet s = .next { s with mixr := 1 / 2, defsub := true })

/-- R225: `MIX k` puts out `clampS((1 - MIXR) * P[k] + MIXR * X)`. -/
def Obligations.MixBlendsDryAndWet : Prop :=
  ∀ (k : PNum) (src : Src) (s s' : State) (x : Sys2Proof.Num), s.fault = false → s.mode = .running → s.input src = (s', x) →
    ∃ t, exec (.mix k src) s = .next t ∧
      Clamped s' ((times ((1 - s.mixr)) s.p[k]).add (times s.mixr x)) (clampSample s.params) t

/-- R15, R23, R270: the laws of the two clamps: the identity on [-0.9999, 0.9999]; the Sample clamp into [-1, 1); the
filter clamp odd, monotone and idempotent. -/
def Obligations.ClampLaws : Prop :=
  (∀ (p : Params) (v : Rat), (-(9999 / 10000) ≤ v ∧ v ≤ 9999 / 10000 → clampSample p v = v) ∧
    -1 ≤ clampSample p v ∧ clampSample p v < 1) ∧
  (∀ v w : Rat, clamp9999 v = cut v ∧ clamp9999 (-v) = -clamp9999 v ∧ clamp9999 (clamp9999 v) = clamp9999 v ∧
    (v ≤ w → clamp9999 v ≤ clamp9999 w))

/-! ### The active unit: configuration -/

/-- R181, R184, R186, R258, R259: the three basic delay units. The pool holds the effect buffer and nothing else; the
delays of a DoubleDelay in ascending order, its wet weights where they were. -/
def Obligations.CfgBuildsDelayUnits : Prop :=
  ∀ s : State, s.fault = false → s.mode = .stopped → s.srate ≠ 0 →
    (effectCapacity s s.params.maxSd ≤ s.params.lmax →
      ∃ t db, exec .cfgSd s = .next t ∧
        Rebuilt s t (!(s.p[0].passes (inCC 0 1) && s.p[1].passes (inCC 0 1) && s.p[2].passes (inCC 0 s.params.maxSd))) ∧
        OnlyEffect s t db ∧
        Fresh db (effectCapacity s s.params.maxSd)
          [samples s (validated s.p[2] (inCC 0 s.params.maxSd) s.params.defs.sdDelay)] ∧
        t.unit = ⟨.sd, validated s.p[0] (inCC 0 1) s.params.defs.sdDry,
          validated s.p[1] (inCC 0 1) s.params.defs.sdWet, 0, 0, 0, 0, 0⟩) ∧
    (∀ ms1 ms2, effectCapacity s s.params.maxDd ≤ s.params.lmax →
      ms1 = validated s.p[3] (inCC 0 s.params.maxDd) s.params.defs.ddDelay1 →
      ms2 = validated s.p[4] (inCC 0 s.params.maxDd) s.params.defs.ddDelay2 →
      ∃ t db, exec .cfgDd s = .next t ∧
        Rebuilt s t (!(s.p[0].passes (inCC 0 1) && s.p[1].passes (inCC 0 1) && s.p[2].passes (inCC 0 1) &&
          s.p[3].passes (inCC 0 s.params.maxDd) && s.p[4].passes (inCC 0 s.params.maxDd))) ∧
        OnlyEffect s t db ∧
        Fresh db (effectCapacity s s.params.maxDd) [samples s (min ms1 ms2), samples s (max ms1 ms2)] ∧
        t.unit = ⟨.dd, validated s.p[0] (inCC 0 1) s.params.defs.ddDry,
          validated s.p[1] (inCC 0 1) s.params.defs.ddWet1, validated s.p[2] (inCC 0 1) s.params.defs.ddWet2,
          0, 0, 0, 0⟩) ∧
    (effectCapacity s s.params.maxFd ≤ s.params.lmax →
      ∃ t db, exec .cfgFd s = .next t ∧
        Rebuilt s t (!(s.p[0].passes (inCC 0 1) && s.p[1].passes (inCO 0 100) &&
          s.p[2].passes (inCC 0 s.params.maxFd))) ∧
        OnlyEffect s t db ∧
        Fresh db (effectCapacity s s.params.maxFd)
          [samples s (validated s.p[2] (inCC 0 s.params.maxFd) s.params.defs.fdDelay)] ∧
        t.unit = ⟨.fd, 0, 0, 0, validated s.p[0] (inCC 0 1) s.params.defs.fdGain,
          validated s.p[1] (inCO 0 100) s.params.defs.fdDecay / 100, 0, 0⟩)

/-- R201, R258, R259: `CFG.MC`. The 19 operands are `P[0..18]`, or the whole-unit default when a count is not an
integer from 1 to 3; the delays in use, ascending; the first `nm` modulators built, the others unconfigured. -/
def Obligations.CfgMcBuildsMultiChorus : Prop :=
  ∀ (s : State) (q : McOperands) (nt nm : Nat), Safety.StateOk s → s.fault = false → s.mode = .stopped →
    s.srate ≠ 0 → effectCapacity s s.params.maxMc ≤ s.params.lmax →
    q = chorusOperands s → q[2] = .val nt → q[6] = .val nm → TableFits s q[8] → (2 ≤ nm → TableFits s q[11]) →
    (3 ≤ nm → TableFits s q[14]) →
    ∃ (t : State) (db : Db) (delays : List Rat), exec .cfgMc s = .next t ∧
      Rebuilt s t (!(s.p[2].passes (isInt 1 3) && s.p[6].passes (isInt 1 3) && q[0].passes (inCC 0 100) &&
        q[1].passes (inCC 0 100) && q[3].passes (inCC 0 s.params.maxMc) &&
        (decide (nt < 2) || q[4].passes (inCC 0 s.params.maxMc)) &&
        (decide (nt < 3) || q[5].passes (inCC 0 s.params.maxMc)) && modInRange q[7] q[8] q[9] &&
        (decide (nm < 2) || modInRange q[10] q[11] q[12]) && (decide (nm < 3) || modInRange q[13] q[14] q[15]) &&
        ipInRange q[16] q[17] q[18])) ∧
      t.dbs = onlyEffect db ∧ t.fus = Vector.replicate 7 none ∧ t.mixr = s.mixr ∧ IpSet s q[16] q[17] q[18] t.ip ∧
      Fresh db (effectCapacity s s.params.maxMc) (delays.map (samples s)) ∧ delays.Pairwise (· ≤ ·) ∧
      delays.Perm ([validated q[3] (inCC 0 s.params.maxMc) s.params.defs.mcDelay[0],
        validated q[4] (inCC 0 s.params.maxMc) s.params.defs.mcDelay[1],
        validated q[5] (inCC 0 s.params.maxMc) s.params.defs.mcDelay[2]].take nt) ∧
      (∃ md, t.mods[0] = some md ∧ Built s q[7] q[8] q[9] md) ∧
      (if 2 ≤ nm then ∃ md, t.mods[1] = some md ∧ Built s q[10] q[11] q[12] md else t.mods[1] = none) ∧
      (if 3 ≤ nm then ∃ md, t.mods[2] = some md ∧ Built s q[13] q[14] q[15] md else t.mods[2] = none) ∧
      t.unit = ⟨.mc, validated q[0] (inCC 0 100) s.params.defs.mcDry / 100,
        validated q[1] (inCC 0 100) s.params.defs.mcWet / 100, 0, 0, 0, nt, nm⟩

/-- R206, R258, R259: `CFG.FC`. -/
def Obligations.CfgFcBuildsFeedbackChorus : Prop :=
  ∀ s : State, Safety.StateOk s → s.fault = false → s.mode = .stopped → s.srate ≠ 0 →
    effectCapacity s s.params.maxFc ≤ s.params.lmax → TableFits s s.p[4] →
    ∃ t db md, exec .cfgFc s = .next t ∧
      Rebuilt s t (!(s.p[0].passes (inCC 0 1) && s.p[1].passes (inCO 0 100) && s.p[2].passes (inCC 0 s.params.maxFc) &&
        modInRange s.p[3] s.p[4] s.p[5] && ipInRange s.p[6] s.p[7] s.p[8])) ∧
      t.dbs = onlyEffect db ∧ t.mods = #v[some md, none, none] ∧ Built s s.p[3] s.p[4] s.p[5] md ∧
      t.fus = Vector.replicate 7 none ∧ t.mixr = s.mixr ∧ IpSet s s.p[6] s.p[7] s.p[8] t.ip ∧
      Fresh db (effectCapacity s s.params.maxFc)
        [samples s (validated s.p[2] (inCC 0 s.params.maxFc) s.params.defs.fcDelay)] ∧
      t.unit = ⟨.fc, 0, 0, 0, validated s.p[0] (inCC 0 1) s.params.defs.fcGain,
        validated s.p[1] (inCO 0 100) s.params.defs.fcDecay / 100, 0, 0⟩

/-- R227, R229, R231, R226, R258, R259: the three reverbs: each of their filter units from its own registers, the
mix ratio from `P[0]`, everything else unconfigured. The register numbers are those of the rules: pairs from `P[1]`
in Reverb1 and Reverb2, triples from `P[1]` and the pair `P[19]`, `P[20]` in Reverb3. -/
def Obligations.CfgRvBuildsReverb : Prop :=
  ∀ (s : State) (i : Instr) (kind : Kind) (count : Nat) (ty : Nat → FuType) (at_ : Nat → Nat),
    s.fault = false → s.mode = .stopped → s.srate ≠ 0 →
    ((i = .cfgRv1 ∧ kind = .rv1 ∧ count = 5 ∧ ty = (fun _ => .ap) ∧ at_ = fun j => 1 + 2 * j) ∨
     (i = .cfgRv2 ∧ kind = .rv2 ∧ count = 6 ∧ ty = (fun j => if j < 4 then .cb else .ap) ∧ at_ = fun j => 1 + 2 * j) ∨
     (i = .cfgRv3 ∧ kind = .rv3 ∧ count = 7 ∧ ty = (fun j => if j < 6 then .lpc else .ap) ∧ at_ = fun j => 1 + 3 * j)) →
    (∀ j, j < count → filterDelay s (reg s (at_ j)) + 1 ≤ s.params.lmax) →
    ∃ t, exec i s = .next t ∧
      Rebuilt s t (!(s.p[0].passes (inCC 0 100) && (List.range count).all fun j =>
        filterInRange s (ty j) (reg s (at_ j)) (reg s (at_ j + 1)) (reg s (at_ j + 2)))) ∧
      (∀ u : FuNum, if u.val < count
        then FilterSet s (ty u) (reg s (at_ u)) (reg s (at_ u + 1)) (reg s (at_ u + 2)) t.fus[u] t.dbs[filterDb u]
        else t.fus[u] = none ∧ t.dbs[filterDb u] = none) ∧
      t.dbs[effectDb] = none ∧ t.mods = Vector.replicate 3 none ∧ t.ip = s.ip ∧
      t.mixr = validated s.p[0] (inCC 0 100) 50 / 100 ∧
      t.unit = ⟨kind, 0, 0, 0, 0, 0, 0, 0⟩

/-! ### The active unit: samples -/

/-- R182, R185, R187, R260, R36: `TICK` of the three basic delay units. A tap that is not warm adds no term; the
SingleDelay and the DoubleDelay store the raw input, the FeedbackDelay the sum. -/
def Obligations.TickRunsDelayUnits : Prop :=
  ∀ (src : Src) (s s' : State) (x : Sys2Proof.Num) (db : Db),
    s.fault = false → s.mode = .running → s.dbs[effectDb] = some db → Safety.DbOk s.params db →
    s.input src = (s', x) →
    (∀ tap, s.unit.kind = .sd → db.taps = [tap] →
      ∃ t db', exec (.tick src) s = .next t ∧ Pushed db db' x ∧
        Clamped { s' with dbs := s.dbs.set effectDb (some db'), exh := s.port.srcExh }
          (addDelayed (times s.unit.dry x) s.unit.wet1 (delayed db tap)) (clampSample s.params) t) ∧
    (∀ tap0 tap1, s.unit.kind = .dd → db.taps = [tap0, tap1] →
      ∃ t db', exec (.tick src) s = .next t ∧ Pushed db db' x ∧
        Clamped { s' with dbs := s.dbs.set effectDb (some db'), exh := s.port.srcExh }
          (addDelayed (addDelayed (times s.unit.dry x) s.unit.wet1 (delayed db tap0)) s.unit.wet2 (delayed db tap1))
          (clampSample s.params) t) ∧
    (∀ tap, s.unit.kind = .fd → db.taps = [tap] →
      ∃ t db', exec (.tick src) s = .next t ∧ Pushed db db' (addDelayed x s.unit.g (delayed db tap)) ∧
        Clamped { s' with dbs := s.dbs.set effectDb (some db'), exh := s.port.srcExh }
          (times s.unit.gain (addDelayed x s.unit.g (delayed db tap))) (clampSample s.params) t)

/-- R203, R200, R202, R260: `TICK` of a MultiChorus: each of its `nm` modulators read once, tap `k` read at its
modulated position with the coefficient of modulator `k mod nm`, the sum weighted with wet and added to the dry
sample, the raw input stored. -/
def Obligations.TickRunsMultiChorus : Prop :=
  ∀ (src : Src) (s s' : State) (x : Sys2Proof.Num) (db : Db) (c : Nat → Rat),
    Safety.StateOk s → s.fault = false → s.mode = .running → s.unit.kind = .mc → s.dbs[effectDb] = some db →
    s.input src = (s', x) →
    (∀ m : ModNum, m.val < s.unit.nm → ∃ md, s.mods[m] = some md ∧ md.tab[md.idx]? = some (c m)) →
    ∃ (t : State) (db' : Db) (w : Nat → Rat), exec (.tick src) s = .next t ∧ Pushed db db' x ∧
      (∀ k tap, db.taps[k]? = some tap →
        Wrapped ((db.wp : Rat) - tap.delay * c (k % s.unit.nm)) db.len (w k)) ∧
      Clamped
        { s' with
          dbs := s.dbs.set effectDb (some db'), exh := s.port.srcExh
          mods := s.mods.mapFinIdx fun m md h => if m < s.unit.nm
            then md.map fun md => { md with idx := if md.idx + 1 = md.tab.length then 0 else md.idx + 1 } else md }
        ((times s.unit.dry x).add (times s.unit.wet1
          ((List.range s.unit.nt).foldl (fun acc k => acc.add (readAt db s.ip (w k))) (.val 0))))
        (clampSample s.params) t

/-- R207, R200, R260: `TICK` of a FeedbackChorus. -/
def Obligations.TickRunsFeedbackChorus : Prop :=
  ∀ (src : Src) (s s' : State) (x : Sys2Proof.Num) (db : Db) (md : Modulator) (c : Rat) (tap : Tap),
    Safety.StateOk s → s.fault = false → s.mode = .running → s.unit.kind = .fc → s.dbs[effectDb] = some db →
    db.taps[0]? = some tap → s.input src = (s', x) → s.mods[0] = some md → md.tab[md.idx]? = some c →
    ∃ t db' w, exec (.tick src) s = .next t ∧ Wrapped ((db.wp : Rat) - tap.delay * c) db.len w ∧
      Pushed db db' (x.add (times s.unit.g (readAt db s.ip w))) ∧
      Clamped
        { s' with
          dbs := s.dbs.set effectDb (some db'), exh := s.port.srcExh
          mods := s.mods.set 0 (some { md with idx := if md.idx + 1 = md.tab.length then 0 else md.idx + 1 }) }
        (times s.unit.gain (x.add (times s.unit.g (readAt db s.ip w)))) (clampSample s.params) t

/-- R228, R230, R232, R234: a reverb tick is its engine commands and `MIX` on the dry sample, given the same state:
Reverb1 `SER.TICK 0, 4` ; `MIX`, Reverb2 `PAR.TICK 0, 3` ; `SER.TICK 4, 5` ; `MIX`, Reverb3 `PAR.TICK 0, 5, C` ;
`AP.TICK 6` ; `MIX`; the tick puts out the last result only, and latches `EXH`. The dry sample is in `P[k]`. -/
def Obligations.ReverbTickIsCommandChain : Prop :=
  ∀ (k : PNum) (s : State) (x : Sys2Proof.Num), Safety.StateOk s → s.fault = false → s.mode = .running → s.port.din = [x] →
    s.p[k] = x → s.unitReady = true →
    ∀ is : List Instr,
      (s.unit.kind = .rv1 ∧ is = [.serTick 0 4 .din, .mix k .r]) ∨
      (s.unit.kind = .rv2 ∧ is = [.parTick 0 3 .din false, .serTick 4 5 .r, .mix k .r]) ∨
      (s.unit.kind = .rv3 ∧ (∃ fu, s.fus[6] = some fu ∧ fu.type = .ap) ∧
        is = [.parTick 0 5 .din true, .apTick 6 .r, .mix k .r]) →
      ∃ t, executes is s = some t ∧
        exec (.tick .din) s = .next { t with dout := s.dout ++ [t.r], exh := s.port.srcExh }

/-- R260, R261: with a good state and a unit that is there, `TICK` and `BLOCK` never fault and leave no fault. Without
one they raise NOT_READY. -/
def Obligations.ReadyUnitNeverFaults : Prop :=
  ∀ s : State, s.fault = false → s.mode = .running →
    (Safety.StateOk s → s.unitReady = true →
      (∀ src, ∃ t, exec (.tick src) s = .next t ∧ t.fault = false ∧ t.exh = s.port.srcExh) ∧
      ∀ n, ∃ t, exec (.block n) s = .next t ∧ t.fault = false ∧ t.exh = s.port.srcExh) ∧
    (s.unit.kind = .none ∨
      (s.unit.kind = .rv1 ∧ ∃ u : FuNum, u.val ≤ 4 ∧ s.fus[u] = none) ∨
      (s.unit.kind = .rv2 ∧ ∃ u : FuNum, u.val ≤ 5 ∧ s.fus[u] = none) ∨
      (s.unit.kind = .rv3 ∧ ∃ u : FuNum, s.fus[u] = none) →
      (∀ src, exec (.tick src) s = .next (faulted s .notReady)) ∧
      ∀ n, exec (.block n) s = .next (faulted s .notReady))

/-- R261: `BLOCK n` on n offered inputs leaves the same state and puts out the same values as n `TICK` commands on the
same inputs, with `EXH` latched once at the end. -/
def Obligations.BlockIsTicks : Prop :=
  ∀ (n : BitVec 16) (s : State), Safety.StateOk s → s.fault = false → s.mode = .running → s.unitReady = true →
    s.port.din.length = n.toNat →
    ∃ t, ticks s.port.din s = some t ∧ exec (.block n) s = .next { t with port := s.port, exh := s.port.srcExh }

/-- R183: a fresh SingleDelay with 1 ≤ D ≤ L: output n is `clampS(dry * x[n])` for n < D and
`clampS(dry * x[n] + wet * x[n - D])` from there on. -/
def Obligations.SingleDelayClosedForm : Prop :=
  ∀ (s : State) (len d : Nat) (xs : List Rat), s.fault = false → s.mode = .running → s.unit.kind = .sd →
    s.dbs[effectDb] = some (Db.alloc len [d]) → 1 ≤ d → d ≤ len →
    ∃ t, ticks (xs.map .val) s = some t ∧
      t.dout = s.dout ++ (List.range xs.length).map fun n =>
        .val (clampSample s.params (s.unit.dry * xs.getD n 0 + if n < d then 0 else s.unit.wet1 * xs.getD (n - d) 0))

/-- R233: with `MIXR` = 0 every reverb puts out the clamped dry sample, whatever its filter units do; its inputs and
its cells being numbers. -/
def Obligations.MixZeroReturnsDry : Prop :=
  ∀ (s : State) (x : Rat), Safety.StateOk s → s.fault = false → s.mode = .running → s.unitReady = true →
    s.unit.kind ∈ [.rv1, .rv2, .rv3] → s.port.din = [.val x] → s.mixr = 0 → Numeric s →
    ∃ t, exec (.tick .din) s = .next t ∧ t.r = .val (clampSample s.params x)
end

