-- ==== Sys2Proof/Laws/State.lean ====
section
/-! SUPPORT. One lemma per field per update of the state, each true by unfolding, so that no later proof unfolds a
record update. -/

namespace Sys2Proof.Machine

variable (s : State)

/-! ### `setDb` -/

@[simp] theorem State.setDb_p (b : DbNum) (db : Db) : (s.setDb b db).p = s.p := rfl
@[simp] theorem State.setDb_r (b : DbNum) (db : Db) : (s.setDb b db).r = s.r := rfl
@[simp] theorem State.setDb_srate (b : DbNum) (db : Db) : (s.setDb b db).srate = s.srate := rfl
@[simp] theorem State.setDb_mode (b : DbNum) (db : Db) : (s.setDb b db).mode = s.mode := rfl
@[simp] theorem State.setDb_fault (b : DbNum) (db : Db) : (s.setDb b db).fault = s.fault := rfl
@[simp] theorem State.setDb_warm (b : DbNum) (db : Db) : (s.setDb b db).warm = s.warm := rfl
@[simp] theorem State.setDb_defsub (b : DbNum) (db : Db) : (s.setDb b db).defsub = s.defsub := rfl
@[simp] theorem State.setDb_exh (b : DbNum) (db : Db) : (s.setDb b db).exh = s.exh := rfl
@[simp] theorem State.setDb_cause (b : DbNum) (db : Db) : (s.setDb b db).cause = s.cause := rfl
@[simp] theorem State.setDb_fcmd (b : DbNum) (db : Db) : (s.setDb b db).fcmd = s.fcmd := rfl
@[simp] theorem State.setDb_dbs (b : DbNum) (db : Db) : (s.setDb b db).dbs = s.dbs.set b (some db) := rfl
@[simp] theorem State.setDb_mods (b : DbNum) (db : Db) : (s.setDb b db).mods = s.mods := rfl
@[simp] theorem State.setDb_fus (b : DbNum) (db : Db) : (s.setDb b db).fus = s.fus := rfl
@[simp] theorem State.setDb_ip (b : DbNum) (db : Db) : (s.setDb b db).ip = s.ip := rfl
@[simp] theorem State.setDb_mixr (b : DbNum) (db : Db) : (s.setDb b db).mixr = s.mixr := rfl
@[simp] theorem State.setDb_unit (b : DbNum) (db : Db) : (s.setDb b db).unit = s.unit := rfl
@[simp] theorem State.setDb_params (b : DbNum) (db : Db) : (s.setDb b db).params = s.params := rfl
@[simp] theorem State.setDb_port (b : DbNum) (db : Db) : (s.setDb b db).port = s.port := rfl
@[simp] theorem State.setDb_pending (b : DbNum) (db : Db) : (s.setDb b db).pending = s.pending := rfl
@[simp] theorem State.setDb_dout (b : DbNum) (db : Db) : (s.setDb b db).dout = s.dout := rfl
@[simp] theorem State.setDb_draws (b : DbNum) (db : Db) : (s.setDb b db).draws = s.draws := rfl

/-! ### `setMod` -/

@[simp] theorem State.setMod_p (m : ModNum) (md : Modulator) : (s.setMod m md).p = s.p := rfl
@[simp] theorem State.setMod_r (m : ModNum) (md : Modulator) : (s.setMod m md).r = s.r := rfl
@[simp] theorem State.setMod_srate (m : ModNum) (md : Modulator) : (s.setMod m md).srate = s.srate := rfl
@[simp] theorem State.setMod_mode (m : ModNum) (md : Modulator) : (s.setMod m md).mode = s.mode := rfl
@[simp] theorem State.setMod_fault (m : ModNum) (md : Modulator) : (s.setMod m md).fault = s.fault := rfl
@[simp] theorem State.setMod_warm (m : ModNum) (md : Modulator) : (s.setMod m md).warm = s.warm := rfl
@[simp] theorem State.setMod_defsub (m : ModNum) (md : Modulator) : (s.setMod m md).defsub = s.defsub := rfl
@[simp] theorem State.setMod_exh (m : ModNum) (md : Modulator) : (s.setMod m md).exh = s.exh := rfl
@[simp] theorem State.setMod_cause (m : ModNum) (md : Modulator) : (s.setMod m md).cause = s.cause := rfl
@[simp] theorem State.setMod_fcmd (m : ModNum) (md : Modulator) : (s.setMod m md).fcmd = s.fcmd := rfl
@[simp] theorem State.setMod_dbs (m : ModNum) (md : Modulator) : (s.setMod m md).dbs = s.dbs := rfl
@[simp] theorem State.setMod_mods (m : ModNum) (md : Modulator) : (s.setMod m md).mods = s.mods.set m (some md) := rfl
@[simp] theorem State.setMod_fus (m : ModNum) (md : Modulator) : (s.setMod m md).fus = s.fus := rfl
@[simp] theorem State.setMod_ip (m : ModNum) (md : Modulator) : (s.setMod m md).ip = s.ip := rfl
@[simp] theorem State.setMod_mixr (m : ModNum) (md : Modulator) : (s.setMod m md).mixr = s.mixr := rfl
@[simp] theorem State.setMod_unit (m : ModNum) (md : Modulator) : (s.setMod m md).unit = s.unit := rfl
@[simp] theorem State.setMod_params (m : ModNum) (md : Modulator) : (s.setMod m md).params = s.params := rfl
@[simp] theorem State.setMod_port (m : ModNum) (md : Modulator) : (s.setMod m md).port = s.port := rfl
@[simp] theorem State.setMod_pending (m : ModNum) (md : Modulator) : (s.setMod m md).pending = s.pending := rfl
@[simp] theorem State.setMod_dout (m : ModNum) (md : Modulator) : (s.setMod m md).dout = s.dout := rfl
@[simp] theorem State.setMod_draws (m : ModNum) (md : Modulator) : (s.setMod m md).draws = s.draws := rfl

/-! ### `setFu` -/

@[simp] theorem State.setFu_p (u : FuNum) (fu : Option Fu) : (s.setFu u fu).p = s.p := rfl
@[simp] theorem State.setFu_r (u : FuNum) (fu : Option Fu) : (s.setFu u fu).r = s.r := rfl
@[simp] theorem State.setFu_srate (u : FuNum) (fu : Option Fu) : (s.setFu u fu).srate = s.srate := rfl
@[simp] theorem State.setFu_mode (u : FuNum) (fu : Option Fu) : (s.setFu u fu).mode = s.mode := rfl
@[simp] theorem State.setFu_fault (u : FuNum) (fu : Option Fu) : (s.setFu u fu).fault = s.fault := rfl
@[simp] theorem State.setFu_warm (u : FuNum) (fu : Option Fu) : (s.setFu u fu).warm = s.warm := rfl
@[simp] theorem State.setFu_defsub (u : FuNum) (fu : Option Fu) : (s.setFu u fu).defsub = s.defsub := rfl
@[simp] theorem State.setFu_exh (u : FuNum) (fu : Option Fu) : (s.setFu u fu).exh = s.exh := rfl
@[simp] theorem State.setFu_cause (u : FuNum) (fu : Option Fu) : (s.setFu u fu).cause = s.cause := rfl
@[simp] theorem State.setFu_fcmd (u : FuNum) (fu : Option Fu) : (s.setFu u fu).fcmd = s.fcmd := rfl
@[simp] theorem State.setFu_dbs (u : FuNum) (fu : Option Fu) : (s.setFu u fu).dbs = s.dbs := rfl
@[simp] theorem State.setFu_mods (u : FuNum) (fu : Option Fu) : (s.setFu u fu).mods = s.mods := rfl
@[simp] theorem State.setFu_fus (u : FuNum) (fu : Option Fu) : (s.setFu u fu).fus = s.fus.set u fu := rfl
@[simp] theorem State.setFu_ip (u : FuNum) (fu : Option Fu) : (s.setFu u fu).ip = s.ip := rfl
@[simp] theorem State.setFu_mixr (u : FuNum) (fu : Option Fu) : (s.setFu u fu).mixr = s.mixr := rfl
@[simp] theorem State.setFu_unit (u : FuNum) (fu : Option Fu) : (s.setFu u fu).unit = s.unit := rfl
@[simp] theorem State.setFu_params (u : FuNum) (fu : Option Fu) : (s.setFu u fu).params = s.params := rfl
@[simp] theorem State.setFu_port (u : FuNum) (fu : Option Fu) : (s.setFu u fu).port = s.port := rfl
@[simp] theorem State.setFu_pending (u : FuNum) (fu : Option Fu) : (s.setFu u fu).pending = s.pending := rfl
@[simp] theorem State.setFu_dout (u : FuNum) (fu : Option Fu) : (s.setFu u fu).dout = s.dout := rfl
@[simp] theorem State.setFu_draws (u : FuNum) (fu : Option Fu) : (s.setFu u fu).draws = s.draws := rfl

/-! ### `setP` -/

@[simp] theorem State.setP_p (k : PNum) (v : Num) : (s.setP k v).p = s.p.set k v := rfl
@[simp] theorem State.setP_r (k : PNum) (v : Num) : (s.setP k v).r = s.r := rfl
@[simp] theorem State.setP_srate (k : PNum) (v : Num) : (s.setP k v).srate = s.srate := rfl
@[simp] theorem State.setP_mode (k : PNum) (v : Num) : (s.setP k v).mode = s.mode := rfl
@[simp] theorem State.setP_fault (k : PNum) (v : Num) : (s.setP k v).fault = s.fault := rfl
@[simp] theorem State.setP_warm (k : PNum) (v : Num) : (s.setP k v).warm = s.warm := rfl
@[simp] theorem State.setP_defsub (k : PNum) (v : Num) : (s.setP k v).defsub = s.defsub := rfl
@[simp] theorem State.setP_exh (k : PNum) (v : Num) : (s.setP k v).exh = s.exh := rfl
@[simp] theorem State.setP_cause (k : PNum) (v : Num) : (s.setP k v).cause = s.cause := rfl
@[simp] theorem State.setP_fcmd (k : PNum) (v : Num) : (s.setP k v).fcmd = s.fcmd := rfl
@[simp] theorem State.setP_dbs (k : PNum) (v : Num) : (s.setP k v).dbs = s.dbs := rfl
@[simp] theorem State.setP_mods (k : PNum) (v : Num) : (s.setP k v).mods = s.mods := rfl
@[simp] theorem State.setP_fus (k : PNum) (v : Num) : (s.setP k v).fus = s.fus := rfl
@[simp] theorem State.setP_ip (k : PNum) (v : Num) : (s.setP k v).ip = s.ip := rfl
@[simp] theorem State.setP_mixr (k : PNum) (v : Num) : (s.setP k v).mixr = s.mixr := rfl
@[simp] theorem State.setP_unit (k : PNum) (v : Num) : (s.setP k v).unit = s.unit := rfl
@[simp] theorem State.setP_params (k : PNum) (v : Num) : (s.setP k v).params = s.params := rfl
@[simp] theorem State.setP_port (k : PNum) (v : Num) : (s.setP k v).port = s.port := rfl
@[simp] theorem State.setP_pending (k : PNum) (v : Num) : (s.setP k v).pending = s.pending := rfl
@[simp] theorem State.setP_dout (k : PNum) (v : Num) : (s.setP k v).dout = s.dout := rfl
@[simp] theorem State.setP_draws (k : PNum) (v : Num) : (s.setP k v).draws = s.draws := rfl

/-! ### `out` -/

@[simp] theorem State.out_p (v : Num) : (s.out v).p = s.p := rfl
@[simp] theorem State.out_r (v : Num) : (s.out v).r = v := rfl
@[simp] theorem State.out_srate (v : Num) : (s.out v).srate = s.srate := rfl
@[simp] theorem State.out_mode (v : Num) : (s.out v).mode = s.mode := rfl
@[simp] theorem State.out_fault (v : Num) : (s.out v).fault = s.fault := rfl
@[simp] theorem State.out_warm (v : Num) : (s.out v).warm = s.warm := rfl
@[simp] theorem State.out_defsub (v : Num) : (s.out v).defsub = s.defsub := rfl
@[simp] theorem State.out_exh (v : Num) : (s.out v).exh = s.exh := rfl
@[simp] theorem State.out_cause (v : Num) : (s.out v).cause = s.cause := rfl
@[simp] theorem State.out_fcmd (v : Num) : (s.out v).fcmd = s.fcmd := rfl
@[simp] theorem State.out_dbs (v : Num) : (s.out v).dbs = s.dbs := rfl
@[simp] theorem State.out_mods (v : Num) : (s.out v).mods = s.mods := rfl
@[simp] theorem State.out_fus (v : Num) : (s.out v).fus = s.fus := rfl
@[simp] theorem State.out_ip (v : Num) : (s.out v).ip = s.ip := rfl
@[simp] theorem State.out_mixr (v : Num) : (s.out v).mixr = s.mixr := rfl
@[simp] theorem State.out_unit (v : Num) : (s.out v).unit = s.unit := rfl
@[simp] theorem State.out_params (v : Num) : (s.out v).params = s.params := rfl
@[simp] theorem State.out_port (v : Num) : (s.out v).port = s.port := rfl
@[simp] theorem State.out_pending (v : Num) : (s.out v).pending = s.pending := rfl
@[simp] theorem State.out_dout (v : Num) : (s.out v).dout = s.dout ++ [v] := rfl
@[simp] theorem State.out_draws (v : Num) : (s.out v).draws = s.draws := rfl

/-! ### `setMode` -/

@[simp] theorem State.setMode_p (m : Mode) : (s.setMode m).p = s.p := rfl
@[simp] theorem State.setMode_r (m : Mode) : (s.setMode m).r = s.r := rfl
@[simp] theorem State.setMode_srate (m : Mode) : (s.setMode m).srate = s.srate := rfl
@[simp] theorem State.setMode_mode (m : Mode) : (s.setMode m).mode = m := rfl
@[simp] theorem State.setMode_fault (m : Mode) : (s.setMode m).fault = s.fault := rfl
@[simp] theorem State.setMode_warm (m : Mode) : (s.setMode m).warm = s.warm := rfl
@[simp] theorem State.setMode_defsub (m : Mode) : (s.setMode m).defsub = s.defsub := rfl
@[simp] theorem State.setMode_exh (m : Mode) : (s.setMode m).exh = s.exh := rfl
@[simp] theorem State.setMode_cause (m : Mode) : (s.setMode m).cause = s.cause := rfl
@[simp] theorem State.setMode_fcmd (m : Mode) : (s.setMode m).fcmd = s.fcmd := rfl
@[simp] theorem State.setMode_dbs (m : Mode) : (s.setMode m).dbs = s.dbs := rfl
@[simp] theorem State.setMode_mods (m : Mode) : (s.setMode m).mods = s.mods := rfl
@[simp] theorem State.setMode_fus (m : Mode) : (s.setMode m).fus = s.fus := rfl
@[simp] theorem State.setMode_ip (m : Mode) : (s.setMode m).ip = s.ip := rfl
@[simp] theorem State.setMode_mixr (m : Mode) : (s.setMode m).mixr = s.mixr := rfl
@[simp] theorem State.setMode_unit (m : Mode) : (s.setMode m).unit = s.unit := rfl
@[simp] theorem State.setMode_params (m : Mode) : (s.setMode m).params = s.params := rfl
@[simp] theorem State.setMode_port (m : Mode) : (s.setMode m).port = s.port := rfl
@[simp] theorem State.setMode_pending (m : Mode) : (s.setMode m).pending = s.pending := rfl
@[simp] theorem State.setMode_dout (m : Mode) : (s.setMode m).dout = s.dout := rfl
@[simp] theorem State.setMode_draws (m : Mode) : (s.setMode m).draws = s.draws := rfl

/-! ### `setUnit` -/

@[simp] theorem State.setUnit_p (u : ActiveUnit) : (s.setUnit u).p = s.p := rfl
@[simp] theorem State.setUnit_r (u : ActiveUnit) : (s.setUnit u).r = s.r := rfl
@[simp] theorem State.setUnit_srate (u : ActiveUnit) : (s.setUnit u).srate = s.srate := rfl
@[simp] theorem State.setUnit_mode (u : ActiveUnit) : (s.setUnit u).mode = s.mode := rfl
@[simp] theorem State.setUnit_fault (u : ActiveUnit) : (s.setUnit u).fault = s.fault := rfl
@[simp] theorem State.setUnit_warm (u : ActiveUnit) : (s.setUnit u).warm = s.warm := rfl
@[simp] theorem State.setUnit_defsub (u : ActiveUnit) : (s.setUnit u).defsub = s.defsub := rfl
@[simp] theorem State.setUnit_exh (u : ActiveUnit) : (s.setUnit u).exh = s.exh := rfl
@[simp] theorem State.setUnit_cause (u : ActiveUnit) : (s.setUnit u).cause = s.cause := rfl
@[simp] theorem State.setUnit_fcmd (u : ActiveUnit) : (s.setUnit u).fcmd = s.fcmd := rfl
@[simp] theorem State.setUnit_dbs (u : ActiveUnit) : (s.setUnit u).dbs = s.dbs := rfl
@[simp] theorem State.setUnit_mods (u : ActiveUnit) : (s.setUnit u).mods = s.mods := rfl
@[simp] theorem State.setUnit_fus (u : ActiveUnit) : (s.setUnit u).fus = s.fus := rfl
@[simp] theorem State.setUnit_ip (u : ActiveUnit) : (s.setUnit u).ip = s.ip := rfl
@[simp] theorem State.setUnit_mixr (u : ActiveUnit) : (s.setUnit u).mixr = s.mixr := rfl
@[simp] theorem State.setUnit_unit (u : ActiveUnit) : (s.setUnit u).unit = u := rfl
@[simp] theorem State.setUnit_params (u : ActiveUnit) : (s.setUnit u).params = s.params := rfl
@[simp] theorem State.setUnit_port (u : ActiveUnit) : (s.setUnit u).port = s.port := rfl
@[simp] theorem State.setUnit_pending (u : ActiveUnit) : (s.setUnit u).pending = s.pending := rfl
@[simp] theorem State.setUnit_dout (u : ActiveUnit) : (s.setUnit u).dout = s.dout := rfl
@[simp] theorem State.setUnit_draws (u : ActiveUnit) : (s.setUnit u).draws = s.draws := rfl

/-! ### `setWarm` -/

@[simp] theorem State.setWarm_p (w : Bool) : (s.setWarm w).p = s.p := rfl
@[simp] theorem State.setWarm_r (w : Bool) : (s.setWarm w).r = s.r := rfl
@[simp] theorem State.setWarm_srate (w : Bool) : (s.setWarm w).srate = s.srate := rfl
@[simp] theorem State.setWarm_mode (w : Bool) : (s.setWarm w).mode = s.mode := rfl
@[simp] theorem State.setWarm_fault (w : Bool) : (s.setWarm w).fault = s.fault := rfl
@[simp] theorem State.setWarm_warm (w : Bool) : (s.setWarm w).warm = w := rfl
@[simp] theorem State.setWarm_defsub (w : Bool) : (s.setWarm w).defsub = s.defsub := rfl
@[simp] theorem State.setWarm_exh (w : Bool) : (s.setWarm w).exh = s.exh := rfl
@[simp] theorem State.setWarm_cause (w : Bool) : (s.setWarm w).cause = s.cause := rfl
@[simp] theorem State.setWarm_fcmd (w : Bool) : (s.setWarm w).fcmd = s.fcmd := rfl
@[simp] theorem State.setWarm_dbs (w : Bool) : (s.setWarm w).dbs = s.dbs := rfl
@[simp] theorem State.setWarm_mods (w : Bool) : (s.setWarm w).mods = s.mods := rfl
@[simp] theorem State.setWarm_fus (w : Bool) : (s.setWarm w).fus = s.fus := rfl
@[simp] theorem State.setWarm_ip (w : Bool) : (s.setWarm w).ip = s.ip := rfl
@[simp] theorem State.setWarm_mixr (w : Bool) : (s.setWarm w).mixr = s.mixr := rfl
@[simp] theorem State.setWarm_unit (w : Bool) : (s.setWarm w).unit = s.unit := rfl
@[simp] theorem State.setWarm_params (w : Bool) : (s.setWarm w).params = s.params := rfl
@[simp] theorem State.setWarm_port (w : Bool) : (s.setWarm w).port = s.port := rfl
@[simp] theorem State.setWarm_pending (w : Bool) : (s.setWarm w).pending = s.pending := rfl
@[simp] theorem State.setWarm_dout (w : Bool) : (s.setWarm w).dout = s.dout := rfl
@[simp] theorem State.setWarm_draws (w : Bool) : (s.setWarm w).draws = s.draws := rfl

/-! ### `noteSubst` -/

@[simp] theorem State.noteSubst_p (oks : List Bool) : (s.noteSubst oks).p = s.p := rfl
@[simp] theorem State.noteSubst_r (oks : List Bool) : (s.noteSubst oks).r = s.r := rfl
@[simp] theorem State.noteSubst_srate (oks : List Bool) : (s.noteSubst oks).srate = s.srate := rfl
@[simp] theorem State.noteSubst_mode (oks : List Bool) : (s.noteSubst oks).mode = s.mode := rfl
@[simp] theorem State.noteSubst_fault (oks : List Bool) : (s.noteSubst oks).fault = s.fault := rfl
@[simp] theorem State.noteSubst_warm (oks : List Bool) : (s.noteSubst oks).warm = s.warm := rfl
@[simp] theorem State.noteSubst_defsub (oks : List Bool) : (s.noteSubst oks).defsub = (s.defsub || oks.any not) := rfl
@[simp] theorem State.noteSubst_exh (oks : List Bool) : (s.noteSubst oks).exh = s.exh := rfl
@[simp] theorem State.noteSubst_cause (oks : List Bool) : (s.noteSubst oks).cause = s.cause := rfl
@[simp] theorem State.noteSubst_fcmd (oks : List Bool) : (s.noteSubst oks).fcmd = s.fcmd := rfl
@[simp] theorem State.noteSubst_dbs (oks : List Bool) : (s.noteSubst oks).dbs = s.dbs := rfl
@[simp] theorem State.noteSubst_mods (oks : List Bool) : (s.noteSubst oks).mods = s.mods := rfl
@[simp] theorem State.noteSubst_fus (oks : List Bool) : (s.noteSubst oks).fus = s.fus := rfl
@[simp] theorem State.noteSubst_ip (oks : List Bool) : (s.noteSubst oks).ip = s.ip := rfl
@[simp] theorem State.noteSubst_mixr (oks : List Bool) : (s.noteSubst oks).mixr = s.mixr := rfl
@[simp] theorem State.noteSubst_unit (oks : List Bool) : (s.noteSubst oks).unit = s.unit := rfl
@[simp] theorem State.noteSubst_params (oks : List Bool) : (s.noteSubst oks).params = s.params := rfl
@[simp] theorem State.noteSubst_port (oks : List Bool) : (s.noteSubst oks).port = s.port := rfl
@[simp] theorem State.noteSubst_pending (oks : List Bool) : (s.noteSubst oks).pending = s.pending := rfl
@[simp] theorem State.noteSubst_dout (oks : List Bool) : (s.noteSubst oks).dout = s.dout := rfl
@[simp] theorem State.noteSubst_draws (oks : List Bool) : (s.noteSubst oks).draws = s.draws := rfl

/-! ### `latchExh` -/

@[simp] theorem State.latchExh_p : s.latchExh.p = s.p := rfl
@[simp] theorem State.latchExh_r : s.latchExh.r = s.r := rfl
@[simp] theorem State.latchExh_srate : s.latchExh.srate = s.srate := rfl
@[simp] theorem State.latchExh_mode : s.latchExh.mode = s.mode := rfl
@[simp] theorem State.latchExh_fault : s.latchExh.fault = s.fault := rfl
@[simp] theorem State.latchExh_warm : s.latchExh.warm = s.warm := rfl
@[simp] theorem State.latchExh_defsub : s.latchExh.defsub = s.defsub := rfl
@[simp] theorem State.latchExh_exh : s.latchExh.exh = s.port.srcExh := rfl
@[simp] theorem State.latchExh_cause : s.latchExh.cause = s.cause := rfl
@[simp] theorem State.latchExh_fcmd : s.latchExh.fcmd = s.fcmd := rfl
@[simp] theorem State.latchExh_dbs : s.latchExh.dbs = s.dbs := rfl
@[simp] theorem State.latchExh_mods : s.latchExh.mods = s.mods := rfl
@[simp] theorem State.latchExh_fus : s.latchExh.fus = s.fus := rfl
@[simp] theorem State.latchExh_ip : s.latchExh.ip = s.ip := rfl
@[simp] theorem State.latchExh_mixr : s.latchExh.mixr = s.mixr := rfl
@[simp] theorem State.latchExh_unit : s.latchExh.unit = s.unit := rfl
@[simp] theorem State.latchExh_params : s.latchExh.params = s.params := rfl
@[simp] theorem State.latchExh_port : s.latchExh.port = s.port := rfl
@[simp] theorem State.latchExh_pending : s.latchExh.pending = s.pending := rfl
@[simp] theorem State.latchExh_dout : s.latchExh.dout = s.dout := rfl
@[simp] theorem State.latchExh_draws : s.latchExh.draws = s.draws := rfl

/-! ### `raise` -/

@[simp] theorem State.raise_p (c : Cause) : (s.raise c).p = s.p := rfl
@[simp] theorem State.raise_r (c : Cause) : (s.raise c).r = s.r := rfl
@[simp] theorem State.raise_srate (c : Cause) : (s.raise c).srate = s.srate := rfl
@[simp] theorem State.raise_mode (c : Cause) : (s.raise c).mode = s.mode := rfl
@[simp] theorem State.raise_fault (c : Cause) : (s.raise c).fault = true := rfl
@[simp] theorem State.raise_warm (c : Cause) : (s.raise c).warm = s.warm := rfl
@[simp] theorem State.raise_defsub (c : Cause) : (s.raise c).defsub = s.defsub := rfl
@[simp] theorem State.raise_exh (c : Cause) : (s.raise c).exh = s.exh := rfl
@[simp] theorem State.raise_cause (c : Cause) : (s.raise c).cause = c := rfl
@[simp] theorem State.raise_fcmd (c : Cause) : (s.raise c).fcmd = s.port.word := rfl
@[simp] theorem State.raise_dbs (c : Cause) : (s.raise c).dbs = s.dbs := rfl
@[simp] theorem State.raise_mods (c : Cause) : (s.raise c).mods = s.mods := rfl
@[simp] theorem State.raise_fus (c : Cause) : (s.raise c).fus = s.fus := rfl
@[simp] theorem State.raise_ip (c : Cause) : (s.raise c).ip = s.ip := rfl
@[simp] theorem State.raise_mixr (c : Cause) : (s.raise c).mixr = s.mixr := rfl
@[simp] theorem State.raise_unit (c : Cause) : (s.raise c).unit = s.unit := rfl
@[simp] theorem State.raise_params (c : Cause) : (s.raise c).params = s.params := rfl
@[simp] theorem State.raise_port (c : Cause) : (s.raise c).port = s.port := rfl
@[simp] theorem State.raise_pending (c : Cause) : (s.raise c).pending = s.pending := rfl
@[simp] theorem State.raise_dout (c : Cause) : (s.raise c).dout = s.dout := rfl
@[simp] theorem State.raise_draws (c : Cause) : (s.raise c).draws = s.draws := rfl

/-! ### `clearPool` -/

@[simp] theorem State.clearPool_p : s.clearPool.p = s.p := rfl
@[simp] theorem State.clearPool_r : s.clearPool.r = s.r := rfl
@[simp] theorem State.clearPool_srate : s.clearPool.srate = s.srate := rfl
@[simp] theorem State.clearPool_mode : s.clearPool.mode = s.mode := rfl
@[simp] theorem State.clearPool_fault : s.clearPool.fault = s.fault := rfl
@[simp] theorem State.clearPool_warm : s.clearPool.warm = s.warm := rfl
@[simp] theorem State.clearPool_defsub : s.clearPool.defsub = s.defsub := rfl
@[simp] theorem State.clearPool_exh : s.clearPool.exh = s.exh := rfl
@[simp] theorem State.clearPool_cause : s.clearPool.cause = s.cause := rfl
@[simp] theorem State.clearPool_fcmd : s.clearPool.fcmd = s.fcmd := rfl
@[simp] theorem State.clearPool_dbs : s.clearPool.dbs = .replicate 8 none := rfl
@[simp] theorem State.clearPool_mods : s.clearPool.mods = .replicate 3 none := rfl
@[simp] theorem State.clearPool_fus : s.clearPool.fus = .replicate 7 none := rfl
@[simp] theorem State.clearPool_ip : s.clearPool.ip = s.ip := rfl
@[simp] theorem State.clearPool_mixr : s.clearPool.mixr = s.mixr := rfl
@[simp] theorem State.clearPool_unit : s.clearPool.unit = .idle := rfl
@[simp] theorem State.clearPool_params : s.clearPool.params = s.params := rfl
@[simp] theorem State.clearPool_port : s.clearPool.port = s.port := rfl
@[simp] theorem State.clearPool_pending : s.clearPool.pending = s.pending := rfl
@[simp] theorem State.clearPool_dout : s.clearPool.dout = s.dout := rfl
@[simp] theorem State.clearPool_draws : s.clearPool.draws = s.draws := rfl

/-! ### `mixcfg` -/

@[simp] theorem State.mixcfg_p (pct : Num) : (s.mixcfg pct).p = s.p := rfl
@[simp] theorem State.mixcfg_r (pct : Num) : (s.mixcfg pct).r = s.r := rfl
@[simp] theorem State.mixcfg_srate (pct : Num) : (s.mixcfg pct).srate = s.srate := rfl
@[simp] theorem State.mixcfg_mode (pct : Num) : (s.mixcfg pct).mode = s.mode := rfl
@[simp] theorem State.mixcfg_fault (pct : Num) : (s.mixcfg pct).fault = s.fault := rfl
@[simp] theorem State.mixcfg_warm (pct : Num) : (s.mixcfg pct).warm = s.warm := rfl
@[simp] theorem State.mixcfg_defsub (pct : Num) : (s.mixcfg pct).defsub = (s.defsub || [pct.passes (inCC 0 100)].any not) := rfl
@[simp] theorem State.mixcfg_exh (pct : Num) : (s.mixcfg pct).exh = s.exh := rfl
@[simp] theorem State.mixcfg_cause (pct : Num) : (s.mixcfg pct).cause = s.cause := rfl
@[simp] theorem State.mixcfg_fcmd (pct : Num) : (s.mixcfg pct).fcmd = s.fcmd := rfl
@[simp] theorem State.mixcfg_dbs (pct : Num) : (s.mixcfg pct).dbs = s.dbs := rfl
@[simp] theorem State.mixcfg_mods (pct : Num) : (s.mixcfg pct).mods = s.mods := rfl
@[simp] theorem State.mixcfg_fus (pct : Num) : (s.mixcfg pct).fus = s.fus := rfl
@[simp] theorem State.mixcfg_ip (pct : Num) : (s.mixcfg pct).ip = s.ip := rfl
@[simp] theorem State.mixcfg_mixr (pct : Num) : (s.mixcfg pct).mixr = percent (validated pct (inCC 0 100) Config.defMix) := rfl
@[simp] theorem State.mixcfg_unit (pct : Num) : (s.mixcfg pct).unit = s.unit := rfl
@[simp] theorem State.mixcfg_params (pct : Num) : (s.mixcfg pct).params = s.params := rfl
@[simp] theorem State.mixcfg_port (pct : Num) : (s.mixcfg pct).port = s.port := rfl
@[simp] theorem State.mixcfg_pending (pct : Num) : (s.mixcfg pct).pending = s.pending := rfl
@[simp] theorem State.mixcfg_dout (pct : Num) : (s.mixcfg pct).dout = s.dout := rfl
@[simp] theorem State.mixcfg_draws (pct : Num) : (s.mixcfg pct).draws = s.draws := rfl

/-! ### Drawing a free value -/

@[simp] theorem State.draw_p : s.draw.1.p = s.p := rfl
@[simp] theorem State.draw_r : s.draw.1.r = s.r := rfl
@[simp] theorem State.draw_srate : s.draw.1.srate = s.srate := rfl
@[simp] theorem State.draw_mode : s.draw.1.mode = s.mode := rfl
@[simp] theorem State.draw_fault : s.draw.1.fault = s.fault := rfl
@[simp] theorem State.draw_warm : s.draw.1.warm = s.warm := rfl
@[simp] theorem State.draw_defsub : s.draw.1.defsub = s.defsub := rfl
@[simp] theorem State.draw_exh : s.draw.1.exh = s.exh := rfl
@[simp] theorem State.draw_cause : s.draw.1.cause = s.cause := rfl
@[simp] theorem State.draw_fcmd : s.draw.1.fcmd = s.fcmd := rfl
@[simp] theorem State.draw_dbs : s.draw.1.dbs = s.dbs := rfl
@[simp] theorem State.draw_mods : s.draw.1.mods = s.mods := rfl
@[simp] theorem State.draw_fus : s.draw.1.fus = s.fus := rfl
@[simp] theorem State.draw_ip : s.draw.1.ip = s.ip := rfl
@[simp] theorem State.draw_mixr : s.draw.1.mixr = s.mixr := rfl
@[simp] theorem State.draw_unit : s.draw.1.unit = s.unit := rfl
@[simp] theorem State.draw_params : s.draw.1.params = s.params := rfl
@[simp] theorem State.draw_port : s.draw.1.port = s.port := rfl
@[simp] theorem State.draw_pending : s.draw.1.pending = s.pending := rfl
@[simp] theorem State.draw_dout : s.draw.1.dout = s.dout := rfl
@[simp] theorem State.draw_draws : s.draw.1.draws = s.draws + 1 := rfl

end Sys2Proof.Machine
end

