-- ==== Sys2Proof/Laws/Basic.lean ====
section
/-! SUPPORT. The small lemmas of the plumbing: sequencing of checks, instance files, operand checks. -/

namespace Sys2Proof.Machine

/-! ### Sequencing -/

theorem bind_ok_iff {α β : Type} {x : Except Cause α} {f : α → Except Cause β} {r : β} :
    (x >>= f) = .ok r ↔ ∃ a, x = .ok a ∧ f a = .ok r := by
  cases x with
  | ok a => simp [bind, Except.bind]
  | error c => simp [bind, Except.bind]

theorem bind_error_iff {α β : Type} {x : Except Cause α} {f : α → Except Cause β} {c : Cause} :
    (x >>= f) = .error c ↔ x = .error c ∨ ∃ a, x = .ok a ∧ f a = .error c := by
  cases x with
  | ok a => simp [bind, Except.bind]
  | error c => simp [bind, Except.bind]

@[simp] theorem ok_bind {α β : Type} (a : α) (f : α → Except Cause β) : ((.ok a : Except Cause α) >>= f) = f a := rfl

@[simp] theorem error_bind {α β : Type} (c : Cause) (f : α → Except Cause β) :
    ((.error c : Except Cause α) >>= f) = .error c := rfl

@[simp] theorem require_true (c : Cause) : require true c = .ok () := rfl

@[simp] theorem require_false (c : Cause) : require false c = .error c := rfl

theorem require_ok_iff {b : Bool} {c : Cause} {u : Unit} : require b c = .ok u ↔ b = true := by
  cases b <;> simp

theorem require_error_iff {b : Bool} {c c' : Cause} : require b c = .error c' ↔ b = false ∧ c = c' := by
  cases b <;> simp

/-! ### Operand checks -/

theorem operand_ok_iff {v : Num} {ok : Rat → Bool} {q : Rat} : operand v ok = .ok q ↔ v = .val q ∧ ok q = true := by
  cases v with
  | val a =>
    by_cases h : ok a = true
    · simp only [operand, h, if_true, Except.ok.injEq, Num.val.injEq]
      exact ⟨fun e => ⟨e, e ▸ h⟩, fun e => e.1⟩
    · simp only [operand, h]
      simp only [Bool.false_eq_true, if_false, reduceCtorEq, Num.val.injEq, false_iff, not_and]
      exact fun e => e ▸ h
  | nan => simp [operand]

theorem operand_error {v : Num} {ok : Rat → Bool} {c : Cause} (h : operand v ok = .error c) : c = .badOperand := by
  cases v with
  | val a =>
    simp only [operand] at h
    split at h
    · cases h
    · cases h; rfl
  | nan => cases h; rfl

@[simp] theorem operand_nan (ok : Rat → Bool) : operand .nan ok = .error .badOperand := rfl

@[simp] theorem anyNumber_val (q : Rat) : anyNumber (.val q) = .ok q := rfl

@[simp] theorem anyNumber_nan : anyNumber .nan = .error .badOperand := rfl

theorem anyNumber_ok_iff {v : Num} {q : Rat} : anyNumber v = .ok q ↔ v = .val q := by
  simp [anyNumber, operand_ok_iff]

theorem anyNumber_error {v : Num} {c : Cause} (h : anyNumber v = .error c) : c = .badOperand := operand_error h

/-! ### Instance files -/

theorem file_get_set {α : Type} {n : Nat} (v : Vector α n) (i j : Fin n) (x : α) :
    (v.set i x)[j] = if i = j then x else v[j] := by
  simp only [Fin.getElem_fin, Vector.getElem_set, Fin.ext_iff]

@[simp] theorem file_get_set_self {α : Type} {n : Nat} (v : Vector α n) (i : Fin n) (x : α) : (v.set i x)[i] = x := by
  simp

@[simp] theorem file_get_replicate {α : Type} {n : Nat} (x : α) (i : Fin n) : (Vector.replicate n x)[i] = x := by
  simp

/-! ### Reading an instance -/

theorem buffer_ok_iff {s : State} {b : DbNum} {db : Db} : s.buffer b = .ok db ↔ s.dbs[b] = some db := by
  unfold State.buffer
  cases s.dbs[b] <;> simp

theorem buffer_error_iff {s : State} {b : DbNum} {c : Cause} :
    s.buffer b = .error c ↔ s.dbs[b] = none ∧ c = .notReady := by
  unfold State.buffer
  cases s.dbs[b] <;> simp [eq_comm]

theorem filter_ok_iff {s : State} {u : FuNum} {fu : Fu} : s.filter u = .ok fu ↔ s.fus[u] = some fu := by
  unfold State.filter
  cases s.fus[u] <;> simp

theorem filter_error_iff {s : State} {u : FuNum} {c : Cause} :
    s.filter u = .error c ↔ s.fus[u] = none ∧ c = .notReady := by
  unfold State.filter
  cases s.fus[u] <;> simp [eq_comm]

theorem tap_ok_iff {db : Db} {t : Nat} {tap : Tap} : db.tap t = .ok tap ↔ db.taps[t]? = some tap := by
  unfold Db.tap
  cases db.taps[t]? <;> simp

theorem tap_error_iff {db : Db} {t : Nat} {c : Cause} :
    db.tap t = .error c ↔ db.taps.length ≤ t ∧ c = .notReady := by
  unfold Db.tap
  rw [← List.getElem?_eq_none_iff]
  cases db.taps[t]? <;> simp [eq_comm]

/-! ### The outcome of a command -/

@[simp] theorem settle_ok (s t : State) : s.settle (.ok t) = .next t := rfl

@[simp] theorem settle_error (s : State) (c : Cause) : s.settle (.error c) = .next (s.raise c) := rfl

theorem settle_next_iff {s t : State} {x : Except Cause State} :
    s.settle x = .next t ↔ x = .ok t ∨ ∃ c, x = .error c ∧ t = s.raise c := by
  cases x with
  | ok a => simp
  | error c => simp [eq_comm]

/-- A command in a state without a fault, in a mode it is legal in. -/
theorem command_legal {s : State} {cls : CmdClass} {body : State → Except Cause State} (hf : s.fault = false)
    (hm : legalIn cls s.mode = true) : s.command cls body = s.settle (body s) := by
  simp [State.command, hf, hm]

theorem command_ignored {s : State} {cls : CmdClass} {body : State → Except Cause State} (hf : s.fault = true) :
    s.command cls body = .next s := by
  simp [State.command, hf]

theorem command_illegal_mode {s : State} {cls : CmdClass} {body : State → Except Cause State} (hf : s.fault = false)
    (hm : legalIn cls s.mode = false) : s.command cls body = .next (s.raise .modeViolation) := by
  simp [State.command, hf, hm]

/-- Everything a command can do: be ignored, be refused for its mode, raise a fault of its own, or take effect. -/
theorem command_cases {s t : State} {cls : CmdClass} {body : State → Except Cause State}
    (h : s.command cls body = .next t) :
    (s.fault = true ∧ t = s) ∨
    (s.fault = false ∧ legalIn cls s.mode = false ∧ t = s.raise .modeViolation) ∨
    (s.fault = false ∧ legalIn cls s.mode = true ∧ ∃ c, body s = .error c ∧ t = s.raise c) ∨
    (s.fault = false ∧ legalIn cls s.mode = true ∧ body s = .ok t) := by
  by_cases hf : s.fault = true
  · rw [command_ignored hf] at h
    cases h
    exact .inl ⟨hf, rfl⟩
  · rw [Bool.not_eq_true] at hf
    by_cases hm : legalIn cls s.mode = true
    · rw [command_legal hf hm, settle_next_iff] at h
      obtain h | h := h
      · exact .inr (.inr (.inr ⟨hf, hm, h⟩))
      · exact .inr (.inr (.inl ⟨hf, hm, h⟩))
    · rw [Bool.not_eq_true] at hm
      rw [command_illegal_mode hf hm] at h
      cases h
      exact .inr (.inl ⟨hf, hm, rfl⟩)

/-- A command always answers a next state. -/
theorem command_next (s : State) (cls : CmdClass) (body : State → Except Cause State) :
    ∃ t, s.command cls body = .next t := by
  unfold State.command
  split
  · exact ⟨_, rfl⟩
  · split
    · cases body s with
      | ok t => exact ⟨t, rfl⟩
      | error c => exact ⟨s.raise c, rfl⟩
    · exact ⟨_, rfl⟩

@[simp] theorem legalIn_any (m : Mode) : legalIn .any m = true := by cases m <;> rfl

@[simp] theorem legalIn_cfg (m : Mode) : legalIn .cfg m = true ↔ m = .stopped := by cases m <;> simp [legalIn]

@[simp] theorem legalIn_data (m : Mode) : legalIn .data m = true ↔ m = .running := by cases m <;> simp [legalIn]

end Sys2Proof.Machine
end

