-- ==== Sys2Proof/Laws/Memory.lean ====
section
/-! SUPPORT. The cells of a sample store: a read after a write, and the canonical form every write keeps. -/

namespace Sys2Proof.Machine

theorem memRead_below {m : Memory} {lo i : Nat} (h : Memory.wfFrom lo m = true) (hi : i < lo) : memRead m i = .zero := by
  induction m generalizing lo with
  | nil => rfl
  | cons c m ih =>
    obtain ⟨a, v⟩ := c
    simp only [Memory.wfFrom, Bool.and_eq_true, decide_eq_true_eq] at h
    have : a ≠ i := by omega
    simp only [memRead, this, if_false]
    exact ih h.2 (by omega)

theorem wfFrom_mono {m : Memory} {lo lo' : Nat} (h : Memory.wfFrom lo m = true) (hl : lo' ≤ lo) :
    Memory.wfFrom lo' m = true := by
  cases m with
  | nil => rfl
  | cons c m =>
    obtain ⟨a, v⟩ := c
    simp only [Memory.wfFrom, Bool.and_eq_true, decide_eq_true_eq] at h ⊢
    exact ⟨⟨by omega, h.1.2⟩, h.2⟩

/-- Every write keeps the canonical form. -/
theorem memWrite_wfFrom {m : Memory} {lo i : Nat} {v : Num} (h : Memory.wfFrom lo m = true) (hi : lo ≤ i) :
    Memory.wfFrom lo (memWrite m i v) = true := by
  induction m generalizing lo with
  | nil =>
    simp only [memWrite]
    split <;> simp_all [Memory.wfFrom]
  | cons c m ih =>
    obtain ⟨a, w⟩ := c
    have h' := h
    simp only [Memory.wfFrom, Bool.and_eq_true, decide_eq_true_eq] at h'
    obtain ⟨⟨hlo, hw⟩, hm⟩ := h'
    simp only [memWrite]
    split
    · split
      · exact h
      · rename_i hia hv
        simp only [Memory.wfFrom, Bool.and_eq_true, decide_eq_true_eq]
        exact ⟨⟨hi, hv⟩, ⟨by omega, hw⟩, hm⟩
    · split
      · split
        · exact wfFrom_mono hm (by omega)
        · rename_i hia hv
          subst hia
          simp only [Memory.wfFrom, Bool.and_eq_true, decide_eq_true_eq]
          exact ⟨⟨hi, hv⟩, hm⟩
      · simp only [Memory.wfFrom, Bool.and_eq_true, decide_eq_true_eq]
        exact ⟨⟨hlo, hw⟩, ih hm (by omega)⟩

theorem memWrite_wf {m : Memory} {i : Nat} {v : Num} (h : Memory.wf m = true) : Memory.wf (memWrite m i v) = true :=
  memWrite_wfFrom h (Nat.zero_le i)

/-- A read after a write: the value written at that cell, every other cell as before. -/
theorem memRead_memWrite {m : Memory} {lo i j : Nat} {v : Num} (h : Memory.wfFrom lo m = true) :
    memRead (memWrite m i v) j = if j = i then v else memRead m j := by
  induction m generalizing lo with
  | nil =>
    simp only [memWrite]
    split
    · rename_i hv
      by_cases hj : j = i <;> simp [memRead, hj, hv]
    · by_cases hj : j = i
      · simp [memRead, hj]
      · simp [memRead, hj, Ne.symm hj]
  | cons c m ih =>
    obtain ⟨a, w⟩ := c
    simp only [Memory.wfFrom, Bool.and_eq_true, decide_eq_true_eq] at h
    obtain ⟨⟨hlo, hw⟩, hm⟩ := h
    simp only [memWrite]
    split
    · rename_i hia
      have hbelow : memRead m i = .zero := memRead_below hm (by omega)
      split
      · rename_i hv
        split
        · rename_i hj
          subst hj
          have : a ≠ j := by omega
          simp [memRead, this, hbelow, hv]
        · rfl
      · by_cases hj : j = i
        · simp [memRead, hj]
        · simp [memRead, hj, Ne.symm hj]
    · split
      · rename_i hia
        subst hia
        have hbelow : memRead m i = .zero := memRead_below hm (by omega)
        split
        · rename_i hv
          by_cases hj : j = i
          · simp [hj, hbelow, hv]
          · simp [memRead, hj, Ne.symm hj]
        · by_cases hj : j = i
          · simp [memRead, hj]
          · simp [memRead, hj, Ne.symm hj]
      · rename_i hlt hne
        by_cases ha : a = j
        · have : j ≠ i := by omega
          simp [memRead, ha, this]
        · simp only [memRead, ha, if_false]
          exact ih hm

theorem memWrite_keys {m : Memory} {i n : Nat} {v : Num} (h : ∀ c ∈ m, c.1 < n) (hi : i < n) :
    ∀ c ∈ memWrite m i v, c.1 < n := by
  induction m with
  | nil =>
    simp only [memWrite]
    split <;> simp_all
  | cons c m ih =>
    obtain ⟨a, w⟩ := c
    have hm : ∀ c ∈ m, c.1 < n := fun c hc => h c (List.mem_cons_of_mem _ hc)
    have ha : a < n := h (a, w) List.mem_cons_self
    simp only [memWrite]
    split
    · split
      · exact h
      · intro c hc
        rcases List.mem_cons.mp hc with rfl | hc
        · exact hi
        · exact h c hc
    · split
      · split
        · exact hm
        · intro c hc
          rcases List.mem_cons.mp hc with rfl | hc
          · exact hi
          · exact hm c hc
      · intro c hc
        rcases List.mem_cons.mp hc with rfl | hc
        · exact ha
        · exact ih hm c hc

@[simp] theorem memRead_empty (i : Nat) : memRead [] i = .zero := rfl

theorem memory_empty_wf : Memory.wf [] = true := rfl

theorem indexMod_lt (a : Int) {len : Nat} (h : 1 ≤ len) : indexMod a len < len := by
  unfold indexMod
  have h1 : 0 ≤ a % (len : Int) := Int.emod_nonneg _ (by omega)
  have h2 : a % (len : Int) < len := Int.emod_lt_of_pos _ (by omega)
  omega

end Sys2Proof.Machine
end

