-- ==== Sys2Proof/Laws/Numeric.lean ====
section
/-! SUPPORT. What each numeric function gives: floors and moduli, the clamps, `sin` and `sinc`, the waveforms, and
that the block's open parameters meet their constraints. -/

namespace Sys2Proof.Machine

/-! ### Floors and moduli -/

theorem floorInt_le (v : Rat) : (floorInt v : Rat) ≤ v := Rat.floor_le v

theorem lt_floorInt_add_one (v : Rat) : v < (floorInt v : Rat) + 1 := by
  have h := Rat.lt_floor_add_one v
  push_cast at h
  exact h

theorem le_floorInt_iff {n : Int} {v : Rat} : n ≤ floorInt v ↔ (n : Rat) ≤ v := Rat.le_floor_iff

theorem floorInt_lt_iff {n : Int} {v : Rat} : floorInt v < n ↔ v < (n : Rat) := Rat.floor_lt_iff

@[simp] theorem floorInt_intCast (n : Int) : floorInt (n : Rat) = n := Rat.floor_intCast n

@[simp] theorem floorInt_natCast (n : Nat) : floorInt (n : Rat) = (n : Int) := Rat.floor_intCast (n : Int)

theorem floorInt_nonneg {v : Rat} (h : 0 ≤ v) : 0 ≤ floorInt v := by
  rw [le_floorInt_iff]
  exact_mod_cast h

theorem floorInt_eq_iff {v : Rat} {n : Int} : floorInt v = n ↔ (n : Rat) ≤ v ∧ v < (n : Rat) + 1 := by
  constructor
  · rintro rfl
    exact ⟨floorInt_le v, lt_floorInt_add_one v⟩
  · rintro ⟨h1, h2⟩
    apply le_antisymm
    · rw [← Int.lt_add_one_iff, floorInt_lt_iff]
      push_cast
      exact h2
    · exact le_floorInt_iff.mpr h1

theorem floorInt_mono {a b : Rat} (h : a ≤ b) : floorInt a ≤ floorInt b := Rat.floor_monotone h

theorem floorMod_nonneg (a : Rat) {len : Nat} (h : 1 ≤ len) : 0 ≤ floorMod a len := by
  have hl : (0 : Rat) < len := by exact_mod_cast h
  have h1 := floorInt_le (a / len)
  rw [le_div_iff₀ hl] at h1
  unfold floorMod
  linarith [mul_comm (len : Rat) (floorInt (a / len) : Rat)]

theorem floorMod_lt (a : Rat) {len : Nat} (h : 1 ≤ len) : floorMod a len < len := by
  have hl : (0 : Rat) < len := by exact_mod_cast h
  have h1 := lt_floorInt_add_one (a / len)
  rw [div_lt_iff₀ hl] at h1
  unfold floorMod
  linarith [mul_comm (len : Rat) (floorInt (a / len) : Rat)]

/-- The wrapped position of a real position is the position moved by a multiple of the length. -/
theorem floorMod_eq_iff {a r : Rat} {len : Nat} (h : 1 ≤ len) :
    floorMod a len = r ↔ 0 ≤ r ∧ r < len ∧ ∃ k : Int, a = r + len * k := by
  have hl : (0 : Rat) < len := by exact_mod_cast h
  constructor
  · rintro rfl
    exact ⟨floorMod_nonneg a h, floorMod_lt a h, floorInt (a / len), by unfold floorMod; ring⟩
  · rintro ⟨h0, h1, k, rfl⟩
    have : floorInt ((r + len * k) / len) = k := by
      rw [floorInt_eq_iff, le_div_iff₀ hl, div_lt_iff₀ hl]
      constructor
      · nlinarith
      · nlinarith
    unfold floorMod
    rw [this]
    ring

theorem floorMod_intCast (a : Int) {len : Nat} (h : 1 ≤ len) : floorMod (a : Rat) len = (indexMod a len : Rat) := by
  rw [floorMod_eq_iff h]
  refine ⟨by positivity, by exact_mod_cast indexMod_lt a h, a / (len : Int), ?_⟩
  have h1 : 0 ≤ a % (len : Int) := Int.emod_nonneg _ (by omega)
  have h2 : ((indexMod a len : Nat) : Int) = a % (len : Int) := by simp [indexMod, Int.toNat_of_nonneg h1]
  have h3 := Int.emod_add_mul_ediv a (len : Int)
  rw [← h2] at h3
  exact_mod_cast h3.symm

theorem truncInt_of_nonneg {v : Rat} (h : 0 ≤ v) : truncInt v = floorInt v := by simp [truncInt, h]

theorem cell_lt {wrapped : Rat} {len : Nat} (h0 : 0 ≤ wrapped) (h1 : wrapped < len) :
    (floorInt wrapped).toNat < len := by
  have h2 := floorInt_nonneg h0
  have h3 : floorInt wrapped < (len : Int) := by rw [floorInt_lt_iff]; exact_mod_cast h1
  omega

theorem ms2smp_mono {srate a b : Rat} (hs : 0 ≤ srate) (h : a ≤ b) : ms2smp srate a ≤ ms2smp srate b := by
  unfold ms2smp
  have : a * srate / 1000 ≤ b * srate / 1000 := by
    have := mul_le_mul_of_nonneg_right h hs
    linarith
  have := floorInt_mono this
  omega

/-! ### Clamps -/

theorem clamp9999_bounds (v : Rat) : -(9999 / 10000) ≤ clamp9999 v ∧ clamp9999 v ≤ 9999 / 10000 := by
  unfold clamp9999 Config.clamp
  constructor
  · exact le_min (le_max_right _ _) (by norm_num)
  · exact min_le_right _ _

theorem clamp9999_of_mem {v : Rat} (h0 : -(9999 / 10000) ≤ v) (h1 : v ≤ 9999 / 10000) : clamp9999 v = v := by
  unfold clamp9999 Config.clamp
  rw [max_eq_left h0, min_eq_left h1]

theorem clampSample_of_mem {p : Params} {v : Rat} (h0 : -(9999 / 10000) ≤ v) (h1 : v ≤ 9999 / 10000) :
    clampSample p v = v := by
  unfold clampSample
  cases p.clamp with
  | reference => exact clamp9999_of_mem h0 h1
  | other => simp [Config.clamp, h0, h1]

theorem clampSample_bounds (p : Params) (v : Rat) : -1 ≤ clampSample p v ∧ clampSample p v < 1 := by
  have hb := clamp9999_bounds v
  unfold clampSample
  cases p.clamp with
  | reference => exact ⟨by dsimp only; linarith [hb.1], by dsimp only; linarith [hb.2]⟩
  | other =>
    dsimp only
    split
    · rename_i h
      simp only [Config.clamp] at h
      exact ⟨by linarith [h.1], by linarith [h.2]⟩
    · split
      · assumption
      · exact ⟨by linarith [hb.1], by linarith [hb.2]⟩

/-! ### `sin`, π, `sinc` -/

theorem sinQuarter_bounds (z : Rat) : 0 ≤ sinQuarter z ∧ sinQuarter z ≤ 1 := by
  unfold sinQuarter
  split_ifs with h1 h2 h3 h4
  · norm_num
  · norm_num
  · norm_num
  · exact ⟨h4.1.le, h4.2.le⟩
  · norm_num

theorem sinHalf_bounds (y : Rat) : 0 ≤ sinHalf y ∧ sinHalf y ≤ 1 := by
  unfold sinHalf
  split <;> exact sinQuarter_bounds _

theorem sinPi_bounds (x : Rat) : -1 ≤ sinPi x ∧ sinPi x ≤ 1 := by
  unfold sinPi
  dsimp only
  split
  · have h := sinHalf_bounds (floorMod x 2)
    exact ⟨by linarith, h.2⟩
  · have h := sinHalf_bounds (floorMod x 2 - 1)
    exact ⟨by linarith, by linarith⟩

theorem sinPi_intCast (n : Int) : sinPi (n : Rat) = 0 := by
  have h : floorMod (n : Rat) 2 = (indexMod n 2 : Rat) := by exact_mod_cast floorMod_intCast n (len := 2) (by norm_num)
  have hlt : indexMod n 2 < 2 := indexMod_lt n (by norm_num)
  unfold sinPi
  rw [h]
  have h01 : indexMod n 2 = 0 ∨ indexMod n 2 = 1 := by omega
  rcases h01 with h0 | h0 <;> rw [h0] <;> norm_num [sinHalf, sinQuarter]

theorem piConst_bounds : 3 < piConst ∧ piConst < 4 := by
  unfold piConst
  split
  · assumption
  · norm_num

theorem sinc_intCast {n : Int} (h : n ≠ 0) : sinc (n : Rat) = 0 := by
  have h' : (n : Rat) ≠ 0 := by exact_mod_cast h
  simp [sinc, h', sinPi_intCast]

@[simp] theorem sinc_zero : sinc 0 = 1 := by simp [sinc]

/-! ### Waveforms -/

theorem sineWave_bounds {i n : Nat} {depth : Rat} (hd : 0 ≤ depth) :
    1 - depth ≤ sineWave i n depth ∧ sineWave i n depth ≤ 1 + depth := by
  have h := sinPi_bounds (2 * i / n)
  unfold sineWave
  constructor <;> nlinarith

theorem squareWave_bounds {i n : Nat} {depth : Rat} (hd : 0 ≤ depth) :
    1 - depth ≤ squareWave i n depth ∧ squareWave i n depth ≤ 1 + depth := by
  unfold squareWave
  split <;> constructor <;> linarith

theorem triReference_bounds {i n : Nat} {depth : Rat} (hi : i < n) (hd : 0 ≤ depth) :
    1 - depth ≤ triReference i n depth ∧ triReference i n depth ≤ 1 + depth := by
  have hn : (0 : Rat) < n := by exact_mod_cast (by omega : 0 < n)
  have h0 : (0 : Rat) ≤ 2 * i / n := by positivity
  have h1 : (2 * i / n : Rat) ≤ 2 := by
    rw [div_le_iff₀ hn]
    have : (i : Rat) ≤ n := by exact_mod_cast hi.le
    linarith
  have h2 : |(2 * i / n : Rat) - 1| ≤ 1 := abs_le.mpr ⟨by linarith, by linarith⟩
  have h3 := abs_nonneg ((2 * i / n : Rat) - 1)
  unfold triReference
  constructor <;> nlinarith

theorem sawReference_bounds {i n : Nat} {depth : Rat} (hi : i < n) (hd : 0 ≤ depth) :
    1 - 2 * depth ≤ sawReference i n depth ∧ sawReference i n depth ≤ 1 + 2 * depth := by
  have hn : (0 : Rat) < n := by exact_mod_cast (by omega : 0 < n)
  have h0 : (0 : Rat) ≤ (i : Rat) / n := by positivity
  have h1 : (i : Rat) / n ≤ 1 := by
    rw [div_le_one hn]
    exact_mod_cast hi.le
  unfold sawReference
  dsimp only
  split
  · rename_i h
    have h2 : 2 * ((i : Rat) / n) ≤ 1 := by
      rw [← mul_div_assoc, div_le_one hn]
      exact_mod_cast h.le
    constructor <;> nlinarith
  · rename_i h
    have h2 : 1 ≤ 2 * ((i : Rat) / n) := by
      rw [← mul_div_assoc, le_div_iff₀ hn, one_mul]
      exact_mod_cast (by omega : n ≤ 2 * i)
    constructor <;> nlinarith

theorem triWave_bounds {p : Params} {i n : Nat} {depth : Rat} (hi : i < n) (hd : 0 ≤ depth) :
    1 - depth ≤ triWave p i n depth ∧ triWave p i n depth ≤ 1 + depth := by
  unfold triWave
  split
  · exact triReference_bounds hi hd
  · split
    · assumption
    · exact triReference_bounds hi hd

theorem sawWave_bounds {p : Params} {i n : Nat} {depth : Rat} (hi : i < n) (hd : 0 ≤ depth) :
    1 - 2 * depth ≤ sawWave p i n depth ∧ sawWave p i n depth ≤ 1 + 2 * depth := by
  unfold sawWave
  split
  · exact sawReference_bounds hi hd
  · split
    · assumption
    · exact sawReference_bounds hi hd

/-! ### Validation -/

theorem validated_spec {v : Num} {ok : Rat → Bool} {d : Rat} {good : Rat → Prop} (hok : ∀ q, ok q = true → good q)
    (hd : good d) : good (validated v ok d) := by
  unfold validated
  split
  · split
    · exact hok _ ‹_›
    · exact hd
  · exact hd

@[simp] theorem inCC_iff {lo hi q : Rat} : inCC lo hi q = true ↔ lo ≤ q ∧ q ≤ hi := by simp [inCC]

@[simp] theorem inCO_iff {lo hi q : Rat} : inCO lo hi q = true ↔ lo ≤ q ∧ q < hi := by simp [inCO]

@[simp] theorem positive_iff {q : Rat} : positive q = true ↔ 0 < q := by simp [positive]

/-! ### The block's open parameters meet R9 -/

theorem intoCC_mem {lo hi : Rat} (q : Rat) (h : lo ≤ hi) : lo ≤ intoCC lo hi q ∧ intoCC lo hi q ≤ hi := by
  unfold intoCC
  split
  · assumption
  · exact ⟨le_refl _, h⟩

theorem intoCO_mem {lo hi : Rat} (q : Rat) (h : lo < hi) : lo ≤ intoCO lo hi q ∧ intoCO lo hi q < hi := by
  unfold intoCO
  split
  · assumption
  · exact ⟨le_refl _, h⟩

theorem intoPos_pos (q : Rat) : 0 < intoPos q := by
  unfold intoPos
  split
  · assumption
  · norm_num

theorem intoCount_mem (n : Nat) : 1 ≤ intoCount n ∧ intoCount n ≤ 3 := by
  unfold intoCount
  split <;> omega

theorem ModDefault.confine_valid (m : ModDefault) : m.confine.Valid :=
  ⟨intoCC_mem _ (by norm_num), intoCC_mem _ (by norm_num)⟩

theorem McDefault.confine_valid {maxMs : Rat} (h : 0 ≤ maxMs) (m : McDefault) : (m.confine maxMs).Valid maxMs := by
  refine ⟨intoCC_mem _ (by norm_num), intoCC_mem _ (by norm_num), intoCount_mem _, ?_, intoCount_mem _,
    ModDefault.confine_valid _, ModDefault.confine_valid _, ModDefault.confine_valid _, intoPos_pos _, intoPos_pos _⟩
  intro k
  simp only [McDefault.confine, Fin.getElem_fin, Vector.getElem_map]
  exact intoCC_mem _ h

theorem Params.confine_valid (p : Params) : p.confine.Valid := by
  have h01 : (0 : Rat) ≤ 1 := by norm_num
  have h100 : (0 : Rat) ≤ 100 := by norm_num
  have h100' : (0 : Rat) < 100 := by norm_num
  have hs := (intoPos_pos p.maxSd)
  have hd := (intoPos_pos p.maxDd)
  have hf := (intoPos_pos p.maxFd)
  have hm := (intoPos_pos p.maxMc)
  have hc := (intoPos_pos p.maxFc)
  have hu := (intoPos_pos p.maxFu)
  refine ⟨le_max_left _ _, le_max_left _ _, hs, hd, hf, hm, hc, hu, le_max_left _ _,
    ⟨intoCC_mem _ h01, intoCC_mem _ h01, intoCC_mem _ hs.le⟩,
    ⟨intoCC_mem _ h01, intoCC_mem _ h01, intoCC_mem _ h01, intoCC_mem _ hd.le, intoCC_mem _ hd.le⟩,
    ⟨intoCC_mem _ h01, intoCO_mem _ h100', intoCC_mem _ hf.le⟩,
    ⟨intoCC_mem _ h01, intoCO_mem _ h100', intoCC_mem _ hc.le⟩,
    ⟨intoCC_mem _ h100, intoCC_mem _ h100, ?_, McDefault.confine_valid hm.le _⟩,
    ⟨intoCC_mem _ hu.le, intoCO_mem _ h100', intoCO_mem _ h100'⟩,
    ⟨intoCC_mem _ (by norm_num), intoCC_mem _ (by norm_num)⟩, intoPos_pos _, intoPos_pos _⟩
  intro k
  simp only [Params.confine, Params.confineSizes, Defaults.confine, Fin.getElem_fin, Vector.getElem_map]
  exact intoCC_mem _ hm.le

theorem params_valid : Config.params.Valid := Params.confine_valid _

end Sys2Proof.Machine
end

