-- ==== Sys2Proof/Laws/Buffers.lean ====
section
/-! SUPPORT. What each micro-operation of a delay buffer does (R101): the fields it keeps, the cells it changes, and
that it keeps a good buffer good. -/

namespace Sys2Proof.Machine

open Sys2Proof.Safety

/-- What no data command may change of a buffer: its capacity and its taps' delays (R28, R263). -/
def Db.shape (db : Db) : Nat × List Nat := (db.len, db.taps.map Tap.delay)

@[simp] theorem Tap.advance_delay (len : Nat) (t : Tap) : (t.advance len).delay = t.delay := rfl

@[simp] theorem Db.write_len (db : Db) (v : Num) : (db.write v).len = db.len := rfl
@[simp] theorem Db.write_taps (db : Db) (v : Num) : (db.write v).taps = db.taps := rfl
@[simp] theorem Db.write_wp (db : Db) (v : Num) : (db.write v).wp = (db.wp + 1) % db.len := rfl
@[simp] theorem Db.write_mem (db : Db) (v : Num) : (db.write v).mem = memWrite db.mem db.wp v := rfl
@[simp] theorem Db.advance_len (db : Db) : db.advance.len = db.len := rfl
@[simp] theorem Db.advance_mem (db : Db) : db.advance.mem = db.mem := rfl
@[simp] theorem Db.advance_wp (db : Db) : db.advance.wp = db.wp := rfl
@[simp] theorem Db.advance_taps (db : Db) : db.advance.taps = db.taps.map (Tap.advance db.len) := rfl
@[simp] theorem Db.alloc_len (len : Nat) (ds : List Nat) : (Db.alloc len ds).len = len := rfl
@[simp] theorem Db.alloc_mem (len : Nat) (ds : List Nat) : (Db.alloc len ds).mem = [] := rfl
@[simp] theorem Db.alloc_wp (len : Nat) (ds : List Nat) : (Db.alloc len ds).wp = 0 := rfl

@[simp] theorem Db.alloc_delays (len : Nat) (ds : List Nat) : (Db.alloc len ds).taps.map Tap.delay = ds := by
  simp [Db.alloc, Function.comp_def]

@[simp] theorem Db.alloc_ntap (len : Nat) (ds : List Nat) : (Db.alloc len ds).taps.length = ds.length := by
  simp [Db.alloc]

@[simp] theorem Db.write_shape (db : Db) (v : Num) : (db.write v).shape = db.shape := rfl

@[simp] theorem Db.advance_shape (db : Db) : db.advance.shape = db.shape := by
  simp [Db.shape, Function.comp_def]

/-- A write changes the cell at `wp` and no other (R62, R104). -/
theorem Db.write_cell {p : Params} {db : Db} (h : DbOk p db) (v : Num) (i : Nat) :
    memRead (db.write v).mem i = if i = db.wp then v else memRead db.mem i :=
  memRead_memWrite h.2.2.2.1

theorem Db.write_ok {p : Params} {db : Db} (h : DbOk p db) (v : Num) : DbOk p (db.write v) := by
  obtain ⟨h1, h2, h3, h4, h5, h6, h7⟩ := h
  exact ⟨h1, h2, Nat.mod_lt _ h1, memWrite_wf h4, memWrite_keys h5 h3, h6, h7⟩

/-- An advanced tap stays in its range (R29). -/
theorem Tap.advance_ok {len : Nat} {t : Tap} (hl : 1 ≤ len) (h : TapOk len t) : TapOk len (t.advance len) := by
  obtain ⟨h1, h2, h3⟩ := h
  unfold Tap.advance
  by_cases hr : t.rp < 0
  · simp only [hr, if_true]
    exact ⟨h1, by dsimp only; omega, by dsimp only; omega⟩
  · simp only [hr, if_false]
    have := Int.emod_nonneg (t.rp + 1) (b := (len : Int)) (by omega)
    have := Int.emod_lt_of_pos (t.rp + 1) (b := (len : Int)) (by omega)
    exact ⟨h1, by dsimp only; omega, by dsimp only; omega⟩

theorem Db.advance_ok {p : Params} {db : Db} (h : DbOk p db) : DbOk p db.advance := by
  obtain ⟨h1, h2, h3, h4, h5, h6, h7⟩ := h
  refine ⟨h1, h2, h3, h4, h5, by simpa using h6, ?_⟩
  intro t ht
  simp only [Db.advance_taps, List.mem_map] at ht
  obtain ⟨t', ht', rfl⟩ := ht
  exact Tap.advance_ok h1 (h7 t' ht')

/-- A fresh buffer is good when its capacity fits and its delays are at most its capacity (R102). -/
theorem Db.alloc_ok {p : Params} {len : Nat} {ds : List Nat} (h1 : 1 ≤ len) (h2 : len ≤ p.lmax)
    (h3 : ds.length ≤ 3) (h4 : ∀ d ∈ ds, d ≤ len) : DbOk p (Db.alloc len ds) := by
  refine ⟨h1, h2, h1, memory_empty_wf, by simp, by simpa using h3, ?_⟩
  intro t ht
  simp only [Db.alloc, List.mem_map] at ht
  obtain ⟨d, hd, rfl⟩ := ht
  have := h4 d hd
  exact ⟨this, le_refl _, by simp only [Db.alloc_len]; omega⟩

/-- `tapval` is defined exactly for a warm tap (R101). -/
theorem Db.tapval_warm {db : Db} {tap : Tap} (h : 0 ≤ tap.rp) : db.tapval tap = some (memRead db.mem tap.rp.toNat) := by
  simp [Db.tapval, h]

theorem Db.tapval_cold {db : Db} {tap : Tap} (h : tap.rp < 0) : db.tapval tap = none := by
  simp [Db.tapval, Int.not_le.mpr h]

end Sys2Proof.Machine
end

