-- ==== Sys2Proof/Laws/DataPath.lean ====
section
/-! SUPPORT. What a data path may do, said once: reading modulators, ticking filter units, running the active unit.
Every one of them changes only cells, pointers, indices and the count of free values drawn (R263), and keeps a good
pool good. -/

namespace Sys2Proof.Machine

open Sys2Proof.Safety

/-- A modulator with its index forgotten: what no data command may change (R263). -/
def Modulator.table (md : Modulator) : Modulator := { md with idx := 0 }

/-- What a data path may do to the state. -/
structure DataStep (s t : State) : Prop where
  frame : t = { s with dbs := t.dbs, mods := t.mods, draws := t.draws }
  shapes : ∀ b : DbNum, (t.dbs[b]).map Db.shape = (s.dbs[b]).map Db.shape
  tables : ∀ m : ModNum, (t.mods[m]).map Modulator.table = (s.mods[m]).map Modulator.table
  dbsOk : (∀ b : DbNum, ∀ db ∈ s.dbs[b], DbOk s.params db) → ∀ b : DbNum, ∀ db ∈ t.dbs[b], DbOk s.params db
  modsOk : (∀ m : ModNum, ∀ md ∈ s.mods[m], ModOk s.params md) → ∀ m : ModNum, ∀ md ∈ t.mods[m], ModOk s.params md

namespace DataStep

theorem refl (s : State) : DataStep s s :=
  ⟨rfl, fun _ => rfl, fun _ => rfl, fun h => h, fun h => h⟩

variable {s t u : State}

theorem p (h : DataStep s t) : t.p = s.p := by rw [h.frame]
theorem r (h : DataStep s t) : t.r = s.r := by rw [h.frame]
theorem srate (h : DataStep s t) : t.srate = s.srate := by rw [h.frame]
theorem mode (h : DataStep s t) : t.mode = s.mode := by rw [h.frame]
theorem fault (h : DataStep s t) : t.fault = s.fault := by rw [h.frame]
theorem warm (h : DataStep s t) : t.warm = s.warm := by rw [h.frame]
theorem defsub (h : DataStep s t) : t.defsub = s.defsub := by rw [h.frame]
theorem exh (h : DataStep s t) : t.exh = s.exh := by rw [h.frame]
theorem cause (h : DataStep s t) : t.cause = s.cause := by rw [h.frame]
theorem fcmd (h : DataStep s t) : t.fcmd = s.fcmd := by rw [h.frame]
theorem fus (h : DataStep s t) : t.fus = s.fus := by rw [h.frame]
theorem ip (h : DataStep s t) : t.ip = s.ip := by rw [h.frame]
theorem mixr (h : DataStep s t) : t.mixr = s.mixr := by rw [h.frame]
theorem unit (h : DataStep s t) : t.unit = s.unit := by rw [h.frame]
theorem params (h : DataStep s t) : t.params = s.params := by rw [h.frame]
theorem port (h : DataStep s t) : t.port = s.port := by rw [h.frame]
theorem pending (h : DataStep s t) : t.pending = s.pending := by rw [h.frame]
theorem dout (h : DataStep s t) : t.dout = s.dout := by rw [h.frame]

theorem trans (h1 : DataStep s t) (h2 : DataStep t u) : DataStep s u where
  frame := by rw [h2.frame, h1.frame]
  shapes b := (h2.shapes b).trans (h1.shapes b)
  tables m := (h2.tables m).trans (h1.tables m)
  dbsOk h := by have h3 := h2.dbsOk; rw [h1.params] at h3; exact h3 (h1.dbsOk h)
  modsOk h := by have h3 := h2.modsOk; rw [h1.params] at h3; exact h3 (h1.modsOk h)

end DataStep

variable {s t : State}

/-! ### Each operation is a data step -/

theorem draw_dataStep (s : State) : DataStep s s.draw.1 :=
  ⟨rfl, fun _ => rfl, fun _ => rfl, fun h => h, fun h => h⟩

theorem dinAt_dataStep (s : State) (k : Nat) : DataStep s (s.dinAt k).1 := by
  unfold State.dinAt
  split
  · exact .refl s
  · exact draw_dataStep s

theorem input_dataStep (s : State) (src : Src) : DataStep s (s.input src).1 := by
  unfold State.input
  split
  · exact dinAt_dataStep s 0
  · exact .refl s

theorem clampFilter_dataStep (s : State) (v : Num) : DataStep s (s.clampFilter v).1 := by
  unfold State.clampFilter
  split
  · exact .refl s
  · exact draw_dataStep s

theorem clampS_dataStep (s : State) (v : Num) : DataStep s (s.clampS v).1 := by
  unfold State.clampS
  split
  · exact .refl s
  · exact draw_dataStep s

theorem mix_dataStep (s : State) (d w : Num) : DataStep s (s.mix d w).1 := clampS_dataStep s _

/-- Replacing a buffer by one of the same shape that is good whenever the old one is. -/
theorem setDb_dataStep {b : DbNum} {db db' : Db} (h : s.dbs[b] = some db) (hs : db'.shape = db.shape)
    (hok : DbOk s.params db → DbOk s.params db') : DataStep s (s.setDb b db') where
  frame := rfl
  shapes c := by
    rw [State.setDb_dbs, file_get_set]
    split
    · rename_i hc; subst hc; simp only [h, Option.map_some, hs]
    · rfl
  tables _ := rfl
  dbsOk hg c d hd := by
    rw [State.setDb_dbs, file_get_set] at hd
    split at hd
    · rw [Option.mem_some_iff] at hd
      subst hd
      exact hok (hg b db h)
    · exact hg c d hd
  modsOk hg := hg

theorem push_dataStep {b : DbNum} {db : Db} (h : s.dbs[b] = some db) (v : Num) :
    DataStep s (s.setDb b (db.write v).advance) :=
  setDb_dataStep h (by simp) fun hok => Db.advance_ok (Db.write_ok hok v)

/-- What `nextCoefficient` returns and leaves (R148). -/
theorem modulator_next_ok_iff {md md' : Modulator} {c : Rat} :
    md.next = .ok (md', c) ↔ md.tab[md.idx]? = some c ∧ md' = { md with idx := (md.idx + 1) % md.tab.length } := by
  unfold Modulator.next
  cases md.tab[md.idx]? <;> simp [eq_comm, and_comm]

theorem modulator_next_error {md : Modulator} {c : Cause} (h : md.next = .error c) : c = .notReady := by
  unfold Modulator.next at h
  split at h
  · cases h
  · cases h; rfl

theorem modnext_ok_iff {m : ModNum} {c : Rat} :
    modnext m s = .ok (t, c) ↔ ∃ md, s.mods[m] = some md ∧ md.tab[md.idx]? = some c ∧
      t = s.setMod m { md with idx := (md.idx + 1) % md.tab.length } := by
  unfold modnext
  cases hm : s.mods[m] with
  | none => simp
  | some md =>
    simp only [bind_ok_iff, Prod.exists, Except.ok.injEq, Prod.mk.injEq, Option.some.injEq, exists_eq_left']
    constructor
    · rintro ⟨md', c', h, rfl, rfl⟩
      rw [modulator_next_ok_iff] at h
      exact ⟨h.1, by rw [h.2]⟩
    · rintro ⟨h, rfl⟩
      exact ⟨_, c, modulator_next_ok_iff.mpr ⟨h, rfl⟩, rfl, rfl⟩

theorem modnext_error {m : ModNum} {c : Cause} (h : modnext m s = .error c) : c = .notReady := by
  unfold modnext at h
  cases hm : s.mods[m] with
  | none => rw [hm] at h; cases h; rfl
  | some md =>
    rw [hm] at h
    simp only [bind_error_iff] at h
    obtain h | ⟨_, _, h⟩ := h
    · exact modulator_next_error h
    · cases h

theorem modnext_dataStep {m : ModNum} {c : Rat} (h : modnext m s = .ok (t, c)) : DataStep s t := by
  obtain ⟨md, hm, hc, rfl⟩ := modnext_ok_iff.mp h
  refine ⟨rfl, fun _ => rfl, fun k => ?_, fun h => h, fun hg k d hd => ?_⟩
  · rw [State.setMod_mods, file_get_set]
    split
    · rename_i hk; subst hk; simp only [hm, Option.map_some]; rfl
    · rfl
  · rw [State.setMod_mods, file_get_set] at hd
    split at hd
    · rw [Option.mem_some_iff] at hd
      subst hd
      obtain ⟨h1, h2, h3, h4, -, h6⟩ := hg m md hm
      exact ⟨h1, h2, h3, h4, Nat.mod_lt _ h3, h6⟩
    · exact hg k d hd

/-- One sample of a filter unit, from its parts (R162, R74). -/
theorem futick_ok_iff {u : FuNum} {x y : Num} :
    futick u x s = .ok (t, y) ↔ ∃ fu db stored raw, s.fus[u] = some fu ∧ s.dbs[filterDb u] = some db ∧
      fu.sample db x = .ok (stored, raw) ∧
      (t, y) = (s.setDb (filterDb u) (db.write stored).advance).clampFilter raw := by
  simp only [futick, bind_ok_iff, filter_ok_iff, buffer_ok_iff, Prod.exists, Except.ok.injEq]
  constructor
  · rintro ⟨fu, hf, db, hd, st, raw, hs, h⟩
    exact ⟨fu, db, st, raw, hf, hd, hs, h.symm⟩
  · rintro ⟨fu, db, st, raw, hf, hd, hs, h⟩
    exact ⟨fu, hf, db, hd, st, raw, hs, h.symm⟩

theorem sample_error {fu : Fu} {db : Db} {x : Num} {c : Cause} (h : fu.sample db x = .error c) : c = .notReady := by
  unfold Fu.sample at h
  rw [bind_error_iff] at h
  obtain h | ⟨_, _, h⟩ := h
  · exact (tap_error_iff.mp h).2
  · split at h
    · cases h
    · cases h
    · rw [bind_error_iff] at h
      obtain h | ⟨_, _, h⟩ := h
      · exact (tap_error_iff.mp h).2
      · cases h

theorem futick_error {u : FuNum} {x : Num} {c : Cause} (h : futick u x s = .error c) : c = .notReady := by
  simp only [futick, bind_error_iff] at h
  obtain h | ⟨_, _, h | ⟨_, _, h | ⟨_, _, h⟩⟩⟩ := h
  · exact (filter_error_iff.mp h).2
  · exact (buffer_error_iff.mp h).2
  · exact sample_error h
  · cases h

theorem futick_dataStep {u : FuNum} {x y : Num} (h : futick u x s = .ok (t, y)) : DataStep s t := by
  obtain ⟨fu, db, st, raw, _, hd, _, h⟩ := futick_ok_iff.mp h
  obtain ⟨rfl, rfl⟩ := Prod.mk.injEq .. ▸ h
  exact (push_dataStep hd st).trans (clampFilter_dataStep _ _)

theorem serUnits_dataStep {us : List FuNum} {v y : Num} (h : serUnits us v s = .ok (t, y)) : DataStep s t := by
  induction us generalizing s v with
  | nil => cases h; exact .refl _
  | cons u us ih =>
    simp only [serUnits, bind_ok_iff, Prod.exists] at h
    obtain ⟨s', v', h1, h2⟩ := h
    exact (futick_dataStep h1).trans (ih h2)

theorem serUnits_error {us : List FuNum} {v : Num} {c : Cause} (h : serUnits us v s = .error c) : c = .notReady := by
  induction us generalizing s v with
  | nil => cases h
  | cons u us ih =>
    simp only [serUnits, bind_error_iff, Prod.exists] at h
    obtain h | ⟨_, _, _, h⟩ := h
    · exact futick_error h
    · exact ih h

theorem parUnits_dataStep {us : List FuNum} {x acc y : Num} (h : parUnits x us acc s = .ok (t, y)) : DataStep s t := by
  induction us generalizing s acc with
  | nil => cases h; exact .refl _
  | cons u us ih =>
    simp only [parUnits, bind_ok_iff, Prod.exists] at h
    obtain ⟨s', v', h1, h2⟩ := h
    exact (futick_dataStep h1).trans (ih h2)

theorem parUnits_error {us : List FuNum} {x acc : Num} {c : Cause} (h : parUnits x us acc s = .error c) :
    c = .notReady := by
  induction us generalizing s acc with
  | nil => cases h
  | cons u us ih =>
    simp only [parUnits, bind_error_iff, Prod.exists] at h
    obtain h | ⟨_, _, _, h⟩ := h
    · exact futick_error h
    · exact ih h

theorem coefficients_dataStep {ms : List ModNum} {cs : List Rat} (h : coefficients ms s = .ok (t, cs)) :
    DataStep s t := by
  induction ms generalizing s cs with
  | nil => cases h; exact .refl _
  | cons m ms ih =>
    simp only [coefficients, bind_ok_iff, Prod.exists, Except.ok.injEq, Prod.mk.injEq] at h
    obtain ⟨s', c, h1, s'', cs', h2, rfl, _⟩ := h
    exact (modnext_dataStep h1).trans (ih h2)

theorem coefficients_error {ms : List ModNum} {c : Cause} (h : coefficients ms s = .error c) : c = .notReady := by
  induction ms generalizing s with
  | nil => cases h
  | cons m ms ih =>
    simp only [coefficients, bind_error_iff, Prod.exists] at h
    obtain h | ⟨_, _, _, h | ⟨_, _, _, h⟩⟩ := h
    · exact modnext_error h
    · exact ih h
    · cases h

theorem sumTaps_error {db : Db} {ip : Ip} {cs : List Rat} {ks : List Nat} {acc : Num} {c : Cause}
    (h : sumTaps db ip cs ks acc = .error c) : c = .notReady := by
  induction ks generalizing acc with
  | nil => cases h
  | cons k ks ih =>
    simp only [sumTaps, bind_error_iff] at h
    obtain h | ⟨_, _, h | ⟨_, _, h⟩⟩ := h
    · exact (tap_error_iff.mp h).2
    · unfold coefficientOf at h
      split at h
      · cases h
      · cases h; rfl
    · exact ih h

/-! ### The active unit -/

theorem tickSd_dataStep {x y : Num} (h : tickSd x s = .ok (t, y)) : DataStep s t := by
  simp only [tickSd, bind_ok_iff, buffer_ok_iff, Except.ok.injEq] at h
  obtain ⟨db, hd, _, _, h⟩ := h
  obtain ⟨rfl, rfl⟩ := Prod.mk.injEq .. ▸ h.symm
  exact (push_dataStep hd x).trans (clampS_dataStep _ _)

theorem tickDd_dataStep {x y : Num} (h : tickDd x s = .ok (t, y)) : DataStep s t := by
  simp only [tickDd, bind_ok_iff, buffer_ok_iff, Except.ok.injEq] at h
  obtain ⟨db, hd, _, _, _, _, h⟩ := h
  obtain ⟨rfl, rfl⟩ := Prod.mk.injEq .. ▸ h.symm
  exact (push_dataStep hd x).trans (clampS_dataStep _ _)

theorem tickFd_dataStep {x y : Num} (h : tickFd x s = .ok (t, y)) : DataStep s t := by
  simp only [tickFd, bind_ok_iff, buffer_ok_iff, Except.ok.injEq] at h
  obtain ⟨db, hd, _, _, h⟩ := h
  obtain ⟨rfl, rfl⟩ := Prod.mk.injEq .. ▸ h.symm
  exact (push_dataStep hd _).trans (clampS_dataStep _ _)

theorem tickMc_dataStep {x y : Num} (h : tickMc x s = .ok (t, y)) : DataStep s t := by
  simp only [tickMc, bind_ok_iff, buffer_ok_iff, Prod.exists, Except.ok.injEq] at h
  obtain ⟨s', cs, hc, db, hd, _, _, h⟩ := h
  obtain ⟨rfl, rfl⟩ := Prod.mk.injEq .. ▸ h.symm
  exact (coefficients_dataStep hc).trans ((push_dataStep hd x).trans (clampS_dataStep _ _))

theorem tickFc_dataStep {x y : Num} (h : tickFc x s = .ok (t, y)) : DataStep s t := by
  simp only [tickFc, bind_ok_iff, buffer_ok_iff, Prod.exists, Except.ok.injEq] at h
  obtain ⟨s', c, hc, db, hd, _, _, h⟩ := h
  obtain ⟨rfl, rfl⟩ := Prod.mk.injEq .. ▸ h.symm
  exact (modnext_dataStep hc).trans ((push_dataStep hd _).trans (clampS_dataStep _ _))

theorem tickRv1_dataStep {x y : Num} (h : tickRv1 x s = .ok (t, y)) : DataStep s t := by
  simp only [tickRv1, ser, bind_ok_iff, Prod.exists, Except.ok.injEq] at h
  obtain ⟨s', w, hs, h⟩ := h
  obtain ⟨rfl, rfl⟩ := Prod.mk.injEq .. ▸ h.symm
  exact (serUnits_dataStep hs).trans (mix_dataStep _ _ _)

theorem tickRv2_dataStep {x y : Num} (h : tickRv2 x s = .ok (t, y)) : DataStep s t := by
  simp only [tickRv2, ser, par, bind_ok_iff, Prod.exists, Except.ok.injEq] at h
  obtain ⟨s', v, hp, s'', w, hs, h⟩ := h
  obtain ⟨rfl, rfl⟩ := Prod.mk.injEq .. ▸ h.symm
  exact (parUnits_dataStep hp).trans ((serUnits_dataStep hs).trans (mix_dataStep _ _ _))

theorem tickRv3_dataStep {x y : Num} (h : tickRv3 x s = .ok (t, y)) : DataStep s t := by
  simp only [tickRv3, par, bind_ok_iff, Prod.exists, Except.ok.injEq] at h
  obtain ⟨s', v, hp, s'', w, hs, h⟩ := h
  obtain ⟨rfl, rfl⟩ := Prod.mk.injEq .. ▸ h.symm
  exact (parUnits_dataStep hp).trans ((clampS_dataStep _ _).trans ((futick_dataStep hs).trans (mix_dataStep _ _ _)))

theorem unitTick_dataStep {x y : Num} (h : unitTick x s = .ok (t, y)) : DataStep s t := by
  unfold unitTick at h
  split at h
  · cases h
  · exact tickSd_dataStep h
  · exact tickDd_dataStep h
  · exact tickFd_dataStep h
  · exact tickMc_dataStep h
  · exact tickFc_dataStep h
  · exact tickRv1_dataStep h
  · exact tickRv2_dataStep h
  · exact tickRv3_dataStep h

/-- The only cause a data path can raise (R285). -/
theorem unitTick_error {x : Num} {c : Cause} (h : unitTick x s = .error c) : c = .notReady := by
  unfold unitTick at h
  split at h
  · cases h; rfl
  · simp only [tickSd, bind_error_iff] at h
    obtain h | ⟨_, _, h | ⟨_, _, h⟩⟩ := h
    · exact (buffer_error_iff.mp h).2
    · exact (tap_error_iff.mp h).2
    · cases h
  · simp only [tickDd, bind_error_iff] at h
    obtain h | ⟨_, _, h | ⟨_, _, h | ⟨_, _, h⟩⟩⟩ := h
    · exact (buffer_error_iff.mp h).2
    · exact (tap_error_iff.mp h).2
    · exact (tap_error_iff.mp h).2
    · cases h
  · simp only [tickFd, bind_error_iff] at h
    obtain h | ⟨_, _, h | ⟨_, _, h⟩⟩ := h
    · exact (buffer_error_iff.mp h).2
    · exact (tap_error_iff.mp h).2
    · cases h
  · simp only [tickMc, bind_error_iff, Prod.exists] at h
    obtain h | ⟨_, _, _, h | ⟨_, _, h | ⟨_, _, h⟩⟩⟩ := h
    · exact coefficients_error h
    · exact (buffer_error_iff.mp h).2
    · exact sumTaps_error h
    · cases h
  · simp only [tickFc, bind_error_iff, Prod.exists] at h
    obtain h | ⟨_, _, _, h | ⟨_, _, h | ⟨_, _, h⟩⟩⟩ := h
    · exact modnext_error h
    · exact (buffer_error_iff.mp h).2
    · exact (tap_error_iff.mp h).2
    · cases h
  · simp only [tickRv1, ser, bind_error_iff, Prod.exists] at h
    obtain h | ⟨_, _, _, h⟩ := h
    · exact serUnits_error h
    · cases h
  · simp only [tickRv2, ser, par, bind_error_iff, Prod.exists] at h
    obtain h | ⟨_, _, _, h | ⟨_, _, _, h⟩⟩ := h
    · exact parUnits_error h
    · exact serUnits_error h
    · cases h
  · simp only [tickRv3, par, bind_error_iff, Prod.exists] at h
    obtain h | ⟨_, _, _, h | ⟨_, _, _, h⟩⟩ := h
    · exact parUnits_error h
    · exact futick_error h
    · cases h

/-- What a block leaves: a data step, and the outputs of its samples in `R` and on `DOUT` (R261). -/
theorem blockLoop_dataStep {left i : Nat} (h : blockLoop left i s = .ok t) :
    ∃ u ys, DataStep s u ∧ t = { u with r := ys.getLast?.getD s.r, dout := s.dout ++ ys } ∧ ys.length = left := by
  induction left generalizing s i with
  | zero =>
    cases h
    exact ⟨_, [], .refl _, by simp, rfl⟩
  | succ n ih =>
    simp only [blockLoop, bind_ok_iff, Prod.exists] at h
    obtain ⟨s', y, h1, h2⟩ := h
    have d0 := dinAt_dataStep s i
    have d1 := d0.trans (unitTick_dataStep h1)
    obtain ⟨u, ys, du, rfl, hl⟩ := ih h2
    refine ⟨{ u with r := s.r, dout := s.dout }, y :: ys, ?_, ?_, by simp [hl]⟩
    · refine ⟨?_, fun b => (du.shapes b).trans (d1.shapes b), fun m => (du.tables m).trans (d1.tables m), ?_, ?_⟩
      · rw [du.frame, d1.frame]; simp only [State.out]
      · intro hg
        have h3 := du.dbsOk
        simp only [State.out_dbs, State.out_params, d1.params] at h3
        exact h3 (d1.dbsOk hg)
      · intro hg
        have h3 := du.modsOk
        simp only [State.out_mods, State.out_params, d1.params] at h3
        exact h3 (d1.modsOk hg)
    · simp only [State.out_r, State.out_dout, d1.dout, List.append_assoc, List.singleton_append]
      congr 1
      cases ys with
      | nil => rfl
      | cons z zs => simp [List.getLast?_cons]

theorem blockLoop_error {left i : Nat} {c : Cause} (h : blockLoop left i s = .error c) : c = .notReady := by
  induction left generalizing s i with
  | zero => cases h
  | succ n ih =>
    simp only [blockLoop, bind_error_iff, Prod.exists] at h
    obtain h | ⟨_, _, _, h⟩ := h
    · exact unitTick_error h
    · exact ih h

end Sys2Proof.Machine
end

