-- ==== Sys2Proof/Laws/ConfigPath.lean ====
section
/-! SUPPORT. What configuration may do, said once: a filter unit, a modulator, the effect buffer, a whole unit. Each
lemma gives the state it leaves, the causes it can raise, and that it keeps a good pool good. -/

namespace Sys2Proof.Machine

open Sys2Proof.Safety

/-- What a configuration may do to the state. -/
structure ConfigStep (s t : State) : Prop where
  frame : t = { s with
    dbs := t.dbs, mods := t.mods, fus := t.fus, unit := t.unit, ip := t.ip, mixr := t.mixr, defsub := t.defsub }
  defsub : s.defsub = true → t.defsub = true

namespace ConfigStep

theorem refl (s : State) : ConfigStep s s := ⟨rfl, id⟩

variable {s t u : State}

theorem trans (h1 : ConfigStep s t) (h2 : ConfigStep t u) : ConfigStep s u where
  frame := by rw [h2.frame, h1.frame]
  defsub h := h2.defsub (h1.defsub h)

theorem p (h : ConfigStep s t) : t.p = s.p := by rw [h.frame]
theorem r (h : ConfigStep s t) : t.r = s.r := by rw [h.frame]
theorem srate (h : ConfigStep s t) : t.srate = s.srate := by rw [h.frame]
theorem mode (h : ConfigStep s t) : t.mode = s.mode := by rw [h.frame]
theorem fault (h : ConfigStep s t) : t.fault = s.fault := by rw [h.frame]
theorem warm (h : ConfigStep s t) : t.warm = s.warm := by rw [h.frame]
theorem exh (h : ConfigStep s t) : t.exh = s.exh := by rw [h.frame]
theorem cause (h : ConfigStep s t) : t.cause = s.cause := by rw [h.frame]
theorem fcmd (h : ConfigStep s t) : t.fcmd = s.fcmd := by rw [h.frame]
theorem params (h : ConfigStep s t) : t.params = s.params := by rw [h.frame]
theorem port (h : ConfigStep s t) : t.port = s.port := by rw [h.frame]
theorem pending (h : ConfigStep s t) : t.pending = s.pending := by rw [h.frame]
theorem dout (h : ConfigStep s t) : t.dout = s.dout := by rw [h.frame]
theorem draws (h : ConfigStep s t) : t.draws = s.draws := by rw [h.frame]

end ConfigStep

variable {s t : State}

/-- The causes of R300 a configuration can raise. -/
abbrev ConfigCause (c : Cause) : Prop := c = .noContext ∨ c = .badOperand ∨ c = .resourceExhaustion

theorem noteSubst_configStep (s : State) (oks : List Bool) : ConfigStep s (s.noteSubst oks) :=
  ⟨rfl, fun h => by simp [h]⟩

theorem setDb_configStep (s : State) (b : DbNum) (db : Db) : ConfigStep s (s.setDb b db) := ⟨rfl, id⟩

theorem mixcfg_configStep (s : State) (pct : Num) : ConfigStep s (s.mixcfg pct) :=
  ⟨rfl, fun h => by simp [State.mixcfg, State.noteSubst, h]⟩

/-! ### The pool -/

/-- A good pool depends on the pool and the parameters alone. -/
theorem poolOk_congr (hp : t.params = s.params) (hd : t.dbs = s.dbs) (hm : t.mods = s.mods) (hf : t.fus = s.fus)
    (h : PoolOk s) : PoolOk t := by
  unfold PoolOk at h ⊢
  rw [hp, hd, hm, hf]
  exact h

theorem filterDb_injective {u v : FuNum} (h : filterDb u = filterDb v) : u = v := Fin.castSucc_injective 7 h

theorem filterDb_ne_effectDb (u : FuNum) : filterDb u ≠ effectDb := by
  intro h
  have := congrArg Fin.val h
  simp only [filterDb, effectDb, Fin.val_castSucc] at this
  have := u.isLt
  omega

/-- A filter unit and its buffer put into a good pool. -/
theorem poolOk_setFilter {u : FuNum} {fu : Fu} {db : Db} (h : PoolOk s) (hdb : DbOk s.params db)
    (hfu : FuOk fu (some db)) : PoolOk ((s.setDb (filterDb u) db).setFu u (some fu)) := by
  obtain ⟨h1, h2, h3⟩ := h
  refine ⟨fun b d hd => ?_, h2, fun v f hf => ?_⟩
  · simp only [State.setFu_dbs, State.setDb_dbs, State.setFu_params, State.setDb_params, file_get_set] at hd ⊢
    split at hd
    · cases hd; exact hdb
    · exact h1 b d hd
  · simp only [State.setFu_dbs, State.setDb_dbs, State.setFu_fus, State.setDb_fus, file_get_set] at hf ⊢
    by_cases huv : u = v
    · subst huv
      simp only [if_true] at hf ⊢
      cases hf
      exact hfu
    · have : filterDb u ≠ filterDb v := fun e => huv (filterDb_injective e)
      simp only [huv, this, if_false] at hf ⊢
      exact h3 v f hf

/-- The effect buffer put into a good pool. -/
theorem poolOk_setEffect {db : Db} (h : PoolOk s) (hdb : DbOk s.params db) : PoolOk (s.setDb effectDb db) := by
  obtain ⟨h1, h2, h3⟩ := h
  refine ⟨fun b d hd => ?_, h2, fun v f hf => ?_⟩
  · simp only [State.setDb_dbs, State.setDb_params, file_get_set] at hd ⊢
    split at hd
    · cases hd; exact hdb
    · exact h1 b d hd
  · have : effectDb ≠ filterDb v := (filterDb_ne_effectDb v).symm
    simp only [State.setDb_dbs, State.setDb_fus, file_get_set, this, if_false] at hf ⊢
    exact h3 v f hf

theorem poolOk_setMod {m : ModNum} {md : Modulator} (h : PoolOk s) (hmd : ModOk s.params md) :
    PoolOk (s.setMod m md) := by
  obtain ⟨h1, h2, h3⟩ := h
  refine ⟨h1, fun k d hd => ?_, h3⟩
  simp only [State.setMod_mods, State.setMod_params, file_get_set] at hd ⊢
  split at hd
  · cases hd; exact hmd
  · exact h2 k d hd

theorem poolOk_clearPool (s : State) : PoolOk s.clearPool := by
  refine ⟨fun b d hd => ?_, fun m d hd => ?_, fun u f hf => ?_⟩
  · simp [State.clearPool] at hd
  · simp [State.clearPool] at hd
  · simp [State.clearPool] at hf

/-! ### A filter unit (R161) -/

theorem percent_coefficient {q : Rat} (h : inDecay q) : Coefficient (percent q) := by
  obtain ⟨h0, h1⟩ := h
  unfold percent
  exact ⟨by positivity, by rw [div_lt_one (by norm_num)]; exact h1⟩

theorem validated_decay {v : Num} {d : Rat} (h : inDecay d) : inDecay (validated v (inCO 0 100) d) :=
  validated_spec (good := inDecay) (fun _ => inCO_iff.mp) h

/-- The second decay of a unit of a type: that of a LowPassComb, 0 otherwise (R161). -/
def secondDecay (ty : FuType) (pct2 : Num) (d : Defaults) : Rat :=
  match ty with
  | .lpc => percent (validated pct2 (inCO 0 100) d.fuDecay2)
  | .ap | .cb => 0

/-- The range tests `fucfg` makes (R161). -/
def fuTests (ty : FuType) (maxMs : Rat) (ms pct1 pct2 : Num) : List Bool :=
  match ty with
  | .lpc => [ms.passes (inCC 0 maxMs), pct1.passes (inCO 0 100), pct2.passes (inCO 0 100)]
  | .ap | .cb => [ms.passes (inCC 0 maxMs), pct1.passes (inCO 0 100)]

/-- The samples of delay of a filter unit (R161). -/
def fuDelay (s : State) (ms : Num) : Nat :=
  ms2smp s.srate (validated ms (inCC 0 s.params.maxFu) s.params.defs.fuDelay)

theorem fucfg_ok_iff {u : FuNum} {ty : FuType} {ms pct1 pct2 : Num} :
    fucfg u ty ms pct1 pct2 s = .ok t ↔
      s.srate ≠ 0 ∧ fuDelay s ms + 1 ≤ s.params.lmax ∧
      t = (((s.noteSubst (fuTests ty s.params.maxFu ms pct1 pct2)).setDb (filterDb u)
        (Db.alloc (fuDelay s ms + 1) (fuDelays ty (fuDelay s ms + 1)))).setFu u
          (some { type := ty, g1 := percent (validated pct1 (inCO 0 100) s.params.defs.fuDecay),
                  g2 := secondDecay ty pct2 s.params.defs })) := by
  unfold fucfg
  cases ty <;>
    simp only [bind_ok_iff, require_ok_iff, decide_eq_true_eq, Except.ok.injEq, exists_const, ← fuDelay.eq_def,
      fuTests, fuDelays, secondDecay, Nat.add_sub_cancel] <;>
    constructor <;> rintro ⟨h1, h2, h3⟩ <;> exact ⟨h1, h2, h3.symm⟩

/-- When `fucfg` faults, and with which cause (R161). -/
theorem fucfg_error_iff {u : FuNum} {ty : FuType} {ms pct1 pct2 : Num} {c : Cause} :
    fucfg u ty ms pct1 pct2 s = .error c ↔
      (s.srate = 0 ∧ c = .noContext) ∨
      (s.srate ≠ 0 ∧ s.params.lmax < fuDelay s ms + 1 ∧ c = .resourceExhaustion) := by
  unfold fucfg
  cases ty <;>
    simp only [bind_error_iff, require_error_iff, require_ok_iff, decide_eq_true_eq, decide_eq_false_iff_not, not_not,
      not_le, exists_const, reduceCtorEq, and_false, or_false, ← fuDelay.eq_def] <;>
    simp only [eq_comm (b := c)]

theorem fucfg_error {u : FuNum} {ty : FuType} {ms pct1 pct2 : Num} {c : Cause}
    (h : fucfg u ty ms pct1 pct2 s = .error c) : c = .noContext ∨ c = .resourceExhaustion :=
  (fucfg_error_iff.mp h).imp (·.2) (·.2.2)

theorem fucfg_configStep {u : FuNum} {ty : FuType} {ms pct1 pct2 : Num}
    (h : fucfg u ty ms pct1 pct2 s = .ok t) : ConfigStep s t := by
  obtain ⟨_, _, rfl⟩ := fucfg_ok_iff.mp h
  exact ⟨rfl, fun hd => by simp [hd]⟩

theorem fuDelays_le {ty : FuType} {len d : Nat} (h : d ∈ fuDelays ty len) : d ≤ len := by
  cases ty <;> simp [fuDelays] at h <;> omega

theorem fuDelays_length (ty : FuType) (len : Nat) : (fuDelays ty len).length ≤ 3 := by
  cases ty <;> simp [fuDelays]

theorem fucfg_poolOk {u : FuNum} {ty : FuType} {ms pct1 pct2 : Num} (h : fucfg u ty ms pct1 pct2 s = .ok t)
    (hv : s.params.Valid) (hp : PoolOk s) : PoolOk t := by
  obtain ⟨_, hl, rfl⟩ := fucfg_ok_iff.mp h
  obtain ⟨-, -, -, -, -, -, -, -, -, -, -, -, -, -, ⟨-, hg1, hg2⟩, -⟩ := hv
  have hp' : PoolOk (s.noteSubst (fuTests ty s.params.maxFu ms pct1 pct2)) := poolOk_congr rfl rfl rfl rfl hp
  refine poolOk_setFilter hp' (Db.alloc_ok (by omega) hl (fuDelays_length _ _) fun d => fuDelays_le) ?_
  refine ⟨percent_coefficient (validated_decay hg1), ?_, _, rfl, Db.alloc_delays _ _⟩
  cases ty
  · exact ⟨le_refl _, by norm_num [secondDecay]⟩
  · exact ⟨le_refl _, by norm_num [secondDecay]⟩
  · exact percent_coefficient (validated_decay hg2)

/-- What `fucfg` leaves of the rest: the effect buffer, the modulators, `IP`, `MIXR` and the unit. -/
theorem fucfg_keeps {u : FuNum} {ty : FuType} {ms pct1 pct2 : Num} (h : fucfg u ty ms pct1 pct2 s = .ok t) :
    t.dbs[effectDb] = s.dbs[effectDb] ∧ t.mods = s.mods ∧ t.ip = s.ip ∧ t.mixr = s.mixr ∧ t.unit = s.unit := by
  obtain ⟨_, _, rfl⟩ := fucfg_ok_iff.mp h
  refine ⟨?_, rfl, rfl, rfl, rfl⟩
  simp only [State.setFu_dbs, State.setDb_dbs, State.noteSubst_dbs, file_get_set, filterDb_ne_effectDb, if_false]

/-! ### A modulator (R141) -/

/-- The range tests of `modcfg`. -/
def modTests (sh fr dp : Num) : List Bool :=
  [sh.passes (isInt 0 3), fr.passes (inCC (1 / 2) 10), dp.passes (inCC 0 (99 / 100))]

/-- The modulator `modcfg` builds. -/
def modulatorOf (s : State) (sh fr dp : Num) : Modulator :=
  let shape := validatedShape sh s.params.defs.shape
  let freq := validated fr (inCC (1 / 2) 10) s.params.defs.freq
  let depth := validated dp (inCC 0 (99 / 100)) s.params.defs.depth
  { shape := shape, freq := freq, depth := depth,
    tab := waveTable s.params shape (roundInt (s.srate / freq)).toNat depth, idx := 0 }

/-- The table length `round(SRATE / freq)` of R141. -/
def tableLength (s : State) (fr : Num) : Int :=
  roundInt (s.srate / validated fr (inCC (1 / 2) 10) s.params.defs.freq)

theorem modcfg_ok_iff {m : ModNum} {sh fr dp : Num} :
    modcfg m sh fr dp s = .ok t ↔
      s.srate ≠ 0 ∧ 1 ≤ tableLength s fr ∧ tableLength s fr ≤ (s.params.nmax : Int) ∧
      t = (s.noteSubst (modTests sh fr dp)).setMod m (modulatorOf s sh fr dp) := by
  unfold modcfg
  simp only [bind_ok_iff, require_ok_iff, decide_eq_true_eq, Except.ok.injEq, exists_const]
  constructor
  · rintro ⟨h1, h2, h3, h4⟩
    exact ⟨h1, h2, h3, h4.symm⟩
  · rintro ⟨h1, h2, h3, h4⟩
    exact ⟨h1, h2, h3, h4.symm⟩

/-- When `modcfg` faults, and with which cause (R141). -/
theorem modcfg_error_iff {m : ModNum} {sh fr dp : Num} {c : Cause} :
    modcfg m sh fr dp s = .error c ↔
      (s.srate = 0 ∧ c = .noContext) ∨
      (s.srate ≠ 0 ∧ ((tableLength s fr < 1 ∧ c = .badOperand) ∨
        (1 ≤ tableLength s fr ∧ (s.params.nmax : Int) < tableLength s fr ∧ c = .resourceExhaustion))) := by
  unfold modcfg
  simp only [bind_error_iff, require_error_iff, require_ok_iff, decide_eq_true_eq, decide_eq_false_iff_not, not_not,
    not_le, exists_const, reduceCtorEq, and_false, or_false, ← tableLength.eq_def]
  simp only [eq_comm (b := c)]

theorem modcfg_error {m : ModNum} {sh fr dp : Num} {c : Cause} (h : modcfg m sh fr dp s = .error c) :
    ConfigCause c := by
  rcases modcfg_error_iff.mp h with ⟨-, h⟩ | ⟨-, ⟨-, h⟩ | ⟨-, -, h⟩⟩
  · exact .inl h
  · exact .inr (.inl h)
  · exact .inr (.inr h)

theorem modcfg_configStep {m : ModNum} {sh fr dp : Num} (h : modcfg m sh fr dp s = .ok t) : ConfigStep s t := by
  obtain ⟨_, _, _, rfl⟩ := modcfg_ok_iff.mp h
  exact ⟨rfl, fun hd => by simp [hd]⟩

@[simp] theorem waveTable_length (p : Params) (shape : Shape) (n : Nat) (depth : Rat) :
    (waveTable p shape n depth).length = n := by
  simp [waveTable]

/-- Every entry of a built table is in the range of its shape and depth (R143 to R147, log 6). -/
theorem waveTable_entryOk {p : Params} {shape : Shape} {n : Nat} {depth c : Rat} (hd : 0 ≤ depth)
    (h : c ∈ waveTable p shape n depth) : EntryOk shape depth c := by
  simp only [waveTable, List.mem_map, List.mem_range] at h
  obtain ⟨i, hi, rfl⟩ := h
  cases shape <;> simp only [EntryOk, tableSwing, one_mul]
  · exact sineWave_bounds hd
  · exact sawWave_bounds hi hd
  · exact triWave_bounds hi hd
  · exact squareWave_bounds hd

theorem modulatorOf_ok {sh fr dp : Num} (hv : s.params.Valid) (h1 : 1 ≤ tableLength s fr)
    (h2 : tableLength s fr ≤ (s.params.nmax : Int)) : ModOk s.params (modulatorOf s sh fr dp) := by
  obtain ⟨-, -, -, -, -, -, -, -, -, -, -, -, -, -, -, ⟨hf, hd⟩, -⟩ := hv
  unfold tableLength at h1 h2
  have hdepth : inDepth (modulatorOf s sh fr dp).depth := validated_spec (good := inDepth) (fun _ => inCC_iff.mp) hd
  refine ⟨validated_spec (good := inFreq) (fun _ => inCC_iff.mp) hf, hdepth, ?_, ?_, ?_, ?_, fun c hc => ?_⟩
  · simp only [modulatorOf, waveTable_length]; omega
  · simp only [modulatorOf, waveTable_length]; omega
  · simp only [modulatorOf, waveTable_length]; omega
  · simp only [modulatorOf, waveTable_length]
  · exact waveTable_entryOk hdepth.1 hc

theorem modcfg_poolOk {m : ModNum} {sh fr dp : Num} (h : modcfg m sh fr dp s = .ok t) (hv : s.params.Valid)
    (hp : PoolOk s) : PoolOk t := by
  obtain ⟨_, h1, h2, rfl⟩ := modcfg_ok_iff.mp h
  have hp' : PoolOk (s.noteSubst (modTests sh fr dp)) := poolOk_congr rfl rfl rfl rfl hp
  exact poolOk_setMod hp' (modulatorOf_ok hv h1 h2)

/-- What `modcfg` leaves of the rest; and the modulators it leaves configured. -/
theorem modcfg_keeps {m : ModNum} {sh fr dp : Num} (h : modcfg m sh fr dp s = .ok t) :
    t.dbs = s.dbs ∧ t.fus = s.fus ∧ t.ip = s.ip ∧ t.mixr = s.mixr ∧ t.unit = s.unit ∧
      ∀ k : ModNum, k = m ∨ s.mods[k].isSome = true → t.mods[k].isSome = true := by
  obtain ⟨_, _, _, rfl⟩ := modcfg_ok_iff.mp h
  refine ⟨rfl, rfl, rfl, rfl, rfl, fun k hk => ?_⟩
  simp only [State.setMod_mods, State.noteSubst_mods, file_get_set]
  split
  · rfl
  · rename_i hne
    exact hk.resolve_left (Ne.symm hne)

/-- What `modcfgFirst` leaves (R201). -/
structure ModcfgFirst (ms : List (ModNum × Num × Num × Num)) (s t : State) : Prop where
  step : ConfigStep s t
  dbs : t.dbs = s.dbs
  fus : t.fus = s.fus
  ip : t.ip = s.ip
  mixr : t.mixr = s.mixr
  unit : t.unit = s.unit
  configured : ∀ k : ModNum, (∃ o ∈ ms, o.1 = k) ∨ s.mods[k].isSome = true → t.mods[k].isSome = true
  poolOk : s.params.Valid → PoolOk s → PoolOk t

theorem modcfgFirst_spec {ms : List (ModNum × Num × Num × Num)} (h : modcfgFirst ms s = .ok t) :
    ModcfgFirst ms s t := by
  induction ms generalizing s with
  | nil =>
    cases h
    exact ⟨.refl _, rfl, rfl, rfl, rfl, rfl, fun k hk => hk.resolve_left (by simp), fun _ h => h⟩
  | cons o ms ih =>
    obtain ⟨m, sh, fr, dp⟩ := o
    simp only [modcfgFirst, bind_ok_iff] at h
    obtain ⟨s', h1, h2⟩ := h
    obtain ⟨k1, k2, k3, k4, k5, k6⟩ := modcfg_keeps h1
    have hs := modcfg_configStep h1
    have hi := ih h2
    refine ⟨hs.trans hi.step, hi.dbs.trans k1, hi.fus.trans k2, hi.ip.trans k3, hi.mixr.trans k4, hi.unit.trans k5,
      fun k hk => ?_, fun hv hp => hi.poolOk (hs.params ▸ hv) (modcfg_poolOk h1 hv hp)⟩
    rcases hk with ⟨o, ho, rfl⟩ | hk
    · rcases List.mem_cons.mp ho with rfl | ho
      · exact hi.configured _ (.inr (k6 _ (.inl rfl)))
      · exact hi.configured _ (.inl ⟨o, ho, rfl⟩)
    · exact hi.configured _ (.inr (k6 _ (.inr hk)))

/-- The first modulator whose table does not fit decides the cause (R201). -/
theorem modcfgFirst_error_of {before after : List (ModNum × Num × Num × Num)} {m : ModNum} {sh fr dp : Num} {c : Cause}
    (h0 : s.srate ≠ 0)
    (hb : ∀ o ∈ before, 1 ≤ tableLength s o.2.2.1 ∧ tableLength s o.2.2.1 ≤ (s.params.nmax : Int))
    (h : modcfg m sh fr dp s = .error c) :
    modcfgFirst (before ++ (m, sh, fr, dp) :: after) s = .error c := by
  induction before generalizing s with
  | nil => simp only [List.nil_append, modcfgFirst, h, error_bind]
  | cons o os ih =>
    obtain ⟨h1, h2⟩ := hb o List.mem_cons_self
    have hr := modcfg_ok_iff (m := o.1) (sh := o.2.1) (dp := o.2.2.2) |>.mpr ⟨h0, h1, h2, rfl⟩
    simp only [List.cons_append, modcfgFirst, hr, ok_bind]
    have hc := modcfg_error_iff.mp h
    exact ih h0 (fun w hw => hb w (List.mem_cons_of_mem _ hw)) (modcfg_error_iff.mpr hc)

theorem modcfgFirst_error {ms : List (ModNum × Num × Num × Num)} {c : Cause} (h : modcfgFirst ms s = .error c) :
    ConfigCause c := by
  induction ms generalizing s with
  | nil => cases h
  | cons o ms ih =>
    obtain ⟨m, sh, fr, dp⟩ := o
    simp only [modcfgFirst, bind_error_iff] at h
    obtain h | ⟨_, _, h⟩ := h
    · exact modcfg_error h
    · exact ih h

/-! ### The effect buffer (R188) -/

/-- The capacity of the effect buffer (R188). -/
def effectLen (s : State) (maxMs : Rat) : Nat := ms2smp s.srate maxMs + s.params.margin

theorem effalloc_ok_iff {maxMs : Rat} {ds : List Nat} :
    effalloc maxMs ds s = .ok t ↔
      effectLen s maxMs ≤ s.params.lmax ∧ t = s.setDb effectDb (Db.alloc (effectLen s maxMs) ds) := by
  unfold effalloc
  simp only [bind_ok_iff, require_ok_iff, decide_eq_true_eq, Except.ok.injEq, exists_const, ← effectLen.eq_def]
  exact and_congr_right fun _ => eq_comm

/-- When `effalloc` faults (R188). -/
theorem effalloc_error_iff {maxMs : Rat} {ds : List Nat} {c : Cause} :
    effalloc maxMs ds s = .error c ↔ s.params.lmax < effectLen s maxMs ∧ c = .resourceExhaustion := by
  unfold effalloc
  simp only [bind_error_iff, require_error_iff, require_ok_iff, decide_eq_true_eq, decide_eq_false_iff_not, not_le,
    exists_const, reduceCtorEq, and_false, or_false, ← effectLen.eq_def]
  simp only [eq_comm (b := c)]

theorem effalloc_error {maxMs : Rat} {ds : List Nat} {c : Cause} (h : effalloc maxMs ds s = .error c) :
    c = .resourceExhaustion :=
  (effalloc_error_iff.mp h).2

theorem needContext_ok_iff {u : Unit} : s.needContext = .ok u ↔ s.srate ≠ 0 := by
  unfold State.needContext
  rw [require_ok_iff, decide_eq_true_eq]

theorem needContext_error {c : Cause} (h : s.needContext = .error c) : c = .noContext := by
  unfold State.needContext at h
  rw [require_error_iff] at h
  exact h.2.symm

/-- A delay that passed its range test fits the effect buffer (R188). -/
theorem delay_lt_effectLen {maxMs q : Rat} (hs : 0 ≤ s.srate) (hm : 1 ≤ s.params.margin) (hq : inDelay maxMs q) :
    ms2smp s.srate q < effectLen s maxMs := by
  have := ms2smp_mono hs hq.2
  unfold effectLen
  omega

theorem validated_delay {v : Num} {d maxMs : Rat} (h : inDelay maxMs d) :
    inDelay maxMs (validated v (inCC 0 maxMs) d) :=
  validated_spec (good := inDelay maxMs) (fun _ => inCC_iff.mp) h

theorem validated_unit {v : Num} {d : Rat} (h : inUnit d) : inUnit (validated v (inCC 0 1) d) :=
  validated_spec (good := inUnit) (fun _ => inCC_iff.mp) h

theorem validated_percent {v : Num} {d : Rat} (h : inPercent d) : inUnit (percent (validated v (inCC 0 100) d)) := by
  obtain ⟨h0, h1⟩ := validated_spec (v := v) (good := inPercent) (fun _ => inCC_iff.mp) h
  unfold percent
  exact ⟨by positivity, by rw [div_le_one (by norm_num)]; exact h1⟩

theorem validated_positive {v : Num} {d : Rat} (h : 0 < d) : 0 < validated v positive d :=
  validated_spec (good := fun q => 0 < q) (fun _ => positive_iff.mp) h

theorem ipOf_ok {d : Defaults} (h : 0 < d.stdf ∧ 0 < d.newf) (a b c : Num) :
    0 < (ipOf d a b c).stdf ∧ 0 < (ipOf d a b c).newf :=
  ⟨validated_positive h.1, validated_positive h.2⟩

theorem mixcfg_ok (s : State) (pct : Num) : 0 ≤ (s.mixcfg pct).mixr ∧ (s.mixcfg pct).mixr ≤ 1 :=
  validated_percent (d := Config.defMix) ⟨by norm_num [Config.defMix], by norm_num [Config.defMix]⟩

theorem mem_insertAscending {v w : Rat} {l : List Rat} : w ∈ insertAscending v l ↔ w = v ∨ w ∈ l := by
  induction l with
  | nil => simp [insertAscending]
  | cons x xs ih =>
    unfold insertAscending
    split
    · simp
    · simp only [List.mem_cons, ih]
      tauto

theorem mem_sortAscending {w : Rat} {l : List Rat} : w ∈ sortAscending l ↔ w ∈ l := by
  induction l with
  | nil => simp [sortAscending]
  | cons x xs ih => simp [sortAscending, mem_insertAscending, ih]

theorem length_insertAscending (v : Rat) (l : List Rat) : (insertAscending v l).length = l.length + 1 := by
  induction l with
  | nil => rfl
  | cons x xs ih =>
    unfold insertAscending
    split <;> simp [ih]

@[simp] theorem length_sortAscending (l : List Rat) : (sortAscending l).length = l.length := by
  induction l with
  | nil => rfl
  | cons x xs ih => simp [sortAscending, length_insertAscending, ih]

theorem insertAscending_sorted {v : Rat} {l : List Rat} (h : l.Pairwise (· ≤ ·)) :
    (insertAscending v l).Pairwise (· ≤ ·) := by
  induction l with
  | nil => simp [insertAscending]
  | cons x xs ih =>
    rw [List.pairwise_cons] at h
    unfold insertAscending
    split
    · rename_i hv
      refine List.pairwise_cons.mpr ⟨fun w hw => ?_, List.pairwise_cons.mpr h⟩
      rcases List.mem_cons.mp hw with rfl | hw
      · exact hv
      · exact hv.trans (h.1 w hw)
    · rename_i hv
      refine List.pairwise_cons.mpr ⟨fun w hw => ?_, ih h.2⟩
      rcases mem_insertAscending.mp hw with rfl | hw
      · exact (not_le.mp hv).le
      · exact h.1 w hw

theorem sortAscending_sorted (l : List Rat) : (sortAscending l).Pairwise (· ≤ ·) := by
  induction l with
  | nil => exact .nil
  | cons x xs ih => exact insertAscending_sorted ih

end Sys2Proof.Machine
end

