-- ==== Sys2Proof/Laws/Encoding.lean ====
section
/-! SUPPORT. A word and its fields: the fields of a word put together from fields, a word put together from its own
fields, and what each format accepts (R81 to R83). -/

namespace Sys2Proof

/-! ### The bits of a word put together -/

theorem getLsbD_wordOf (o : BitVec 8) (a b : BitVec 4) (m : BitVec 16) (i : Nat) :
    (wordOf o a b m).getLsbD i =
      if i < 16 then m.getLsbD i else if i < 20 then b.getLsbD (i - 16) else if i < 24 then a.getLsbD (i - 20)
        else o.getLsbD (i - 24) := by
  refine (BitVec.getLsbD_append (x := o ++ a ++ b) (y := m) (i := i)).trans ?_
  rw [BitVec.getLsbD_append, BitVec.getLsbD_append]
  have h1 : i - 16 - 4 = i - 20 := by omega
  have h2 : i - 20 - 4 = i - 24 := by omega
  have h3 : i - 16 < 4 ↔ i < 20 := by omega
  have h4 : i - 20 < 4 ↔ i < 24 := by omega
  simp only [h1, h2, h3, h4]

theorem getLsbD_wordOfK (o : BitVec 8) (k : PNum) (m : BitVec 16) (i : Nat) :
    (wordOfK o k m).getLsbD i =
      if i < 16 then m.getLsbD i else if i < 21 then (BitVec.ofFin (w := 5) k).getLsbD (i - 16)
        else if i < 24 then false else o.getLsbD (i - 24) := by
  refine (BitVec.getLsbD_append (x := o ++ (0 : BitVec 3) ++ BitVec.ofFin (w := 5) k) (y := m) (i := i)).trans ?_
  rw [BitVec.getLsbD_append, BitVec.getLsbD_append]
  have h1 : i - 16 - 5 = i - 21 := by omega
  have h2 : i - 21 - 3 = i - 24 := by omega
  have h3 : i - 16 < 5 ↔ i < 21 := by omega
  have h4 : i - 21 < 3 ↔ i < 24 := by omega
  simp only [h1, h2, h3, h4]
  split_ifs <;> simp

/-! ### The fields of a word put together -/

@[simp] theorem opcField_wordOf (o : BitVec 8) (a b : BitVec 4) (m : BitVec 16) : opcField (wordOf o a b m) = o := by
  apply BitVec.eq_of_getLsbD_eq
  intro i hi
  have h1 : ¬ 24 + i < 16 := by omega
  have h2 : ¬ 24 + i < 20 := by omega
  have h3 : ¬ 24 + i < 24 := by omega
  simp only [opcField, BitVec.getLsbD_extractLsb', getLsbD_wordOf, h1, h2, h3, hi, if_false, decide_true, Bool.true_and,
    Nat.add_sub_cancel_left]

@[simp] theorem aField_wordOf (o : BitVec 8) (a b : BitVec 4) (m : BitVec 16) : aField (wordOf o a b m) = a := by
  apply BitVec.eq_of_getLsbD_eq
  intro i hi
  have h1 : ¬ 20 + i < 16 := by omega
  have h2 : ¬ 20 + i < 20 := by omega
  have h3 : 20 + i < 24 := by omega
  simp only [aField, BitVec.getLsbD_extractLsb', getLsbD_wordOf, h1, h2, h3, hi, if_false, if_true, decide_true,
    Bool.true_and, Nat.add_sub_cancel_left]

@[simp] theorem bField_wordOf (o : BitVec 8) (a b : BitVec 4) (m : BitVec 16) : bField (wordOf o a b m) = b := by
  apply BitVec.eq_of_getLsbD_eq
  intro i hi
  have h1 : ¬ 16 + i < 16 := by omega
  have h2 : 16 + i < 20 := by omega
  simp only [bField, BitVec.getLsbD_extractLsb', getLsbD_wordOf, h1, h2, hi, if_false, if_true, decide_true,
    Bool.true_and, Nat.add_sub_cancel_left]

@[simp] theorem immField_wordOf (o : BitVec 8) (a b : BitVec 4) (m : BitVec 16) : immField (wordOf o a b m) = m := by
  apply BitVec.eq_of_getLsbD_eq
  intro i hi
  simp only [immField, BitVec.getLsbD_extractLsb', getLsbD_wordOf, Nat.zero_add, hi, if_true, decide_true, Bool.true_and]

/-- A word is its four fields (R81). -/
theorem wordOf_fields (w : CmdWord) : wordOf (opcField w) (aField w) (bField w) (immField w) = w := by
  apply BitVec.eq_of_getLsbD_eq
  intro i hi
  simp only [getLsbD_wordOf, opcField, aField, bField, immField, BitVec.getLsbD_extractLsb']
  split_ifs with h1 h2 h3
  · simp [h1]
  · simp [show i - 16 < 4 by omega, show 16 + (i - 16) = i by omega]
  · simp [show i - 20 < 4 by omega, show 20 + (i - 20) = i by omega]
  · simp [show i - 24 < 8 by omega, show 24 + (i - 24) = i by omega]

/-! ### The K formats -/

@[simp] theorem opcField_wordOfK (o : BitVec 8) (k : PNum) (m : BitVec 16) : opcField (wordOfK o k m) = o := by
  apply BitVec.eq_of_getLsbD_eq
  intro i hi
  have h1 : ¬ 24 + i < 16 := by omega
  have h2 : ¬ 24 + i < 21 := by omega
  have h3 : ¬ 24 + i < 24 := by omega
  simp only [opcField, BitVec.getLsbD_extractLsb', getLsbD_wordOfK, h1, h2, h3, hi, if_false, decide_true,
    Bool.true_and, Nat.add_sub_cancel_left]

@[simp] theorem kPad_wordOfK (o : BitVec 8) (k : PNum) (m : BitVec 16) : kPad (wordOfK o k m) = 0 := by
  apply BitVec.eq_of_getLsbD_eq
  intro i hi
  have h1 : ¬ 21 + i < 16 := by omega
  have h2 : ¬ 21 + i < 21 := by omega
  have h3 : 21 + i < 24 := by omega
  simp [kPad, getLsbD_wordOfK, h1, h3]

@[simp] theorem kField_wordOfK (o : BitVec 8) (k : PNum) (m : BitVec 16) :
    kField (wordOfK o k m) = BitVec.ofFin (w := 5) k := by
  apply BitVec.eq_of_getLsbD_eq
  intro i hi
  have h1 : ¬ 16 + i < 16 := by omega
  have h2 : 16 + i < 21 := by omega
  simp only [kField, BitVec.getLsbD_extractLsb', getLsbD_wordOfK, h1, h2, hi, if_false, if_true, decide_true,
    Bool.true_and, Nat.add_sub_cancel_left]

@[simp] theorem immField_wordOfK (o : BitVec 8) (k : PNum) (m : BitVec 16) : immField (wordOfK o k m) = m := by
  apply BitVec.eq_of_getLsbD_eq
  intro i hi
  simp only [immField, BitVec.getLsbD_extractLsb', getLsbD_wordOfK, Nat.zero_add, hi, if_true, decide_true,
    Bool.true_and]

/-- A word of a K format is its opcode, its `K` and its `IMM`. -/
theorem wordOfK_fields {w : CmdWord} (h : kPad w = 0) :
    wordOfK (opcField w) (kField w).toFin (immField w) = w := by
  apply BitVec.eq_of_getLsbD_eq
  intro i hi
  simp only [getLsbD_wordOfK, opcField, kField, immField, BitVec.getLsbD_extractLsb', BitVec.ofFin_toFin]
  split_ifs with h1 h2 h3
  · simp [h1]
  · simp [show i - 16 < 5 by omega, show 16 + (i - 16) = i by omega]
  · have h4 : (kPad w).getLsbD (i - 21) = false := by rw [h]; simp
    simpa [kPad, show i - 21 < 3 by omega, show 21 + (i - 21) = i by omega] using h4.symm
  · simp [show i - 24 < 8 by omega, show 24 + (i - 24) = i by omega]

/-! ### Instance numbers and flag bits -/

theorem num4_toNat {n : Nat} (x : Fin n) (h : n ≤ 16) : (num4 x).toNat = x.val := by
  have := x.isLt
  simp only [num4, BitVec.toNat_ofNat]
  omega

theorem num4_mk {n : Nat} (x : BitVec 4) (h : x.toNat < n) : num4 (⟨x.toNat, h⟩ : Fin n) = x := by
  simp [num4]

theorem withInstance_num4 {n : Nat} (x : Fin n) (h : n ≤ 16) (f : Fin n → Except Illegal Instr) :
    withInstance n (num4 x) f = f x := by
  have hx := num4_toNat x h
  have : (num4 x).toNat < n := by rw [hx]; exact x.isLt
  simp only [withInstance, this, dite_true]
  congr 1
  exact Fin.ext hx

theorem withInstance_ok_iff {n : Nat} {x : BitVec 4} {f : Fin n → Except Illegal Instr} {i : Instr} :
    withInstance n x f = .ok i ↔ ∃ h : x.toNat < n, f ⟨x.toNat, h⟩ = .ok i := by
  unfold withInstance
  split
  · rename_i h
    exact ⟨fun e => ⟨h, e⟩, fun ⟨_, e⟩ => e⟩
  · rename_i h
    exact ⟨fun e => absurd e (by simp), fun ⟨h', _⟩ => absurd h' h⟩

theorem mbz_ok_iff {z : Bool} {f : Except Illegal Instr} {i : Instr} : mbz z f = .ok i ↔ z = true ∧ f = .ok i := by
  cases z <;> simp [mbz]

/-- The `S` bit of a word whose other low bits are zero is all of its `IMM`. -/
theorem bit_of_imm : ∀ (w : CmdWord), immField w >>> 1 = 0 → immField w = (srcField w).bit := by
  intro w h
  apply BitVec.eq_of_getLsbD_eq
  intro i hi
  have hs : (immField w).getLsbD 0 = w.getLsbD 0 := by simp [immField]
  by_cases h0 : i = 0
  · subst h0
    rw [hs]
    unfold srcField
    cases w.getLsbD 0 <;> simp [Src.bit]
  · have h1 : (immField w >>> 1).getLsbD (i - 1) = false := by rw [h]; simp
    rw [BitVec.getLsbD_ushiftRight, show 1 + (i - 1) = i by omega] at h1
    rw [h1]
    unfold srcField
    cases w.getLsbD 0 <;> simp [Src.bit, h0]

/-- The `S` and `C` bits of a word whose other low bits are zero are all of its `IMM`. -/
theorem bits_of_imm : ∀ (w : CmdWord), immField w >>> 2 = 0 →
    immField w = (srcField w).bit ||| if clampField w then 2 else 0 := by
  intro w h
  apply BitVec.eq_of_getLsbD_eq
  intro i hi
  have hs : (immField w).getLsbD 0 = w.getLsbD 0 := by simp [immField]
  have hc : (immField w).getLsbD 1 = w.getLsbD 1 := by simp [immField]
  by_cases h0 : i = 0
  · subst h0
    rw [hs]
    unfold srcField clampField
    cases w.getLsbD 0 <;> cases w.getLsbD 1 <;> decide
  · by_cases h1 : i = 1
    · subst h1
      rw [hc]
      unfold srcField clampField
      cases w.getLsbD 0 <;> cases w.getLsbD 1 <;> decide
    · have h2 : (immField w >>> 2).getLsbD (i - 2) = false := by rw [h]; simp
      rw [BitVec.getLsbD_ushiftRight, show 2 + (i - 2) = i by omega] at h2
      rw [h2]
      have hz : ∀ j < 16, j ≠ 0 → j ≠ 1 →
          (0#16).getLsbD j = false ∧ (1#16).getLsbD j = false ∧ (2#16).getLsbD j = false ∧ (3#16).getLsbD j = false := by
        decide
      obtain ⟨z0, z1, z2, z3⟩ := hz i hi h0 h1
      unfold srcField clampField
      cases w.getLsbD 0 <;> cases w.getLsbD 1 <;> simp [Src.bit, z1, z2, z3]

/-! ### Fields as numbers -/

theorem opcField_toNat (w : CmdWord) : (opcField w).toNat = w.toNat / 2 ^ 24 := by
  have := w.isLt
  simp only [opcField, BitVec.extractLsb'_toNat, Nat.shiftRight_eq_div_pow]
  omega

theorem aField_toNat (w : CmdWord) : (aField w).toNat = w.toNat / 2 ^ 20 % 16 := by
  simp only [aField, BitVec.extractLsb'_toNat, Nat.shiftRight_eq_div_pow]

theorem bField_toNat (w : CmdWord) : (bField w).toNat = w.toNat / 2 ^ 16 % 16 := by
  simp only [bField, BitVec.extractLsb'_toNat, Nat.shiftRight_eq_div_pow]

theorem immField_toNat (w : CmdWord) : (immField w).toNat = w.toNat % 2 ^ 16 := by
  simp only [immField, BitVec.extractLsb'_toNat, Nat.shiftRight_eq_div_pow, pow_zero, Nat.div_one]

/-- `K`'s must-be-zero bits are zero exactly when the selector `A` is at most 1. -/
theorem kPad_eq_zero_iff (w : CmdWord) : kPad w = 0 ↔ (aField w).toNat ≤ 1 := by
  rw [← BitVec.toNat_inj, aField_toNat, show (0 : BitVec 3).toNat = 0 from rfl]
  simp only [kPad, BitVec.extractLsb'_toNat, Nat.shiftRight_eq_div_pow]
  omega

theorem shift_eq_zero_iff (m : BitVec 16) (n : Nat) : m >>> n = 0 ↔ m.toNat < 2 ^ n := by
  rw [← BitVec.toNat_inj, BitVec.toNat_ushiftRight, Nat.shiftRight_eq_div_pow]
  simp [Nat.div_eq_zero_iff]

theorem eq_zero_iff_toNat {n : Nat} (x : BitVec n) : x = 0 ↔ x.toNat = 0 := by
  rw [← BitVec.toNat_inj]
  simp

/-! ### What each format accepts, as the word it must be -/

variable {w : CmdWord} {j : Instr}

theorem formatZ_ok_iff {i : Instr} : formatZ w i = .ok j ↔ w = wordOf (opcField w) 0 0 0 ∧ j = i := by
  simp only [formatZ, mbz_ok_iff, Bool.and_eq_true, beq_iff_eq, Except.ok.injEq, eq_comm (a := i)]
  refine and_congr_left fun _ => ⟨fun ⟨⟨ha, hb⟩, hm⟩ => ?_, fun h => ?_⟩
  · conv_lhs => rw [← wordOf_fields w, ha, hb, hm]
  · rw [h]
    simp

theorem formatK_ok_iff {f : PNum → Instr} :
    formatK w f = .ok j ↔ ∃ k, w = wordOfK (opcField w) k 0 ∧ j = f k := by
  simp only [formatK, mbz_ok_iff, Bool.and_eq_true, beq_iff_eq, Except.ok.injEq]
  constructor
  · rintro ⟨⟨hk, hm⟩, rfl⟩
    refine ⟨_, ?_, rfl⟩
    conv_lhs => rw [← wordOfK_fields hk, hm]
  · rintro ⟨k, h, rfl⟩
    rw [h]
    simp

theorem formatKS_ok_iff {f : PNum → Src → Instr} :
    formatKS w f = .ok j ↔ ∃ k src, w = wordOfK (opcField w) k src.bit ∧ j = f k src := by
  simp only [formatKS, mbz_ok_iff, Bool.and_eq_true, beq_iff_eq, Except.ok.injEq]
  constructor
  · rintro ⟨⟨hk, hm⟩, rfl⟩
    refine ⟨_, _, ?_, rfl⟩
    conv_lhs => rw [← wordOfK_fields hk, bit_of_imm w hm]
  · rintro ⟨k, src, h, rfl⟩
    have hs : srcField w = src := by
      rw [h]
      unfold srcField
      rw [getLsbD_wordOfK]
      cases src <;> rfl
    refine ⟨⟨by rw [h]; simp, by rw [h]; cases src <;> simp [Src.bit]⟩, ?_⟩
    rw [hs, h]
    simp

theorem formatA_ok_iff {n : Nat} (hn : n ≤ 16) {f : Fin n → Instr} :
    formatA n w f = .ok j ↔ ∃ x, w = wordOf (opcField w) (num4 x) 0 0 ∧ j = f x := by
  simp only [formatA, mbz_ok_iff, Bool.and_eq_true, beq_iff_eq]
  constructor
  · rintro ⟨⟨hb, hm⟩, h⟩
    obtain ⟨hx, h⟩ := withInstance_ok_iff.mp h
    cases h
    refine ⟨_, ?_, rfl⟩
    rw [num4_mk]
    conv_lhs => rw [← wordOf_fields w, hb, hm]
  · rintro ⟨x, h, rfl⟩
    rw [h]
    simp [withInstance_num4 x hn]

theorem formatAB_ok_iff {f : DbNum → TapNum → Instr} :
    formatAB w f = .ok j ↔ ∃ b t, w = wordOf (opcField w) (num4 b) (num4 t) 0 ∧ j = f b t := by
  simp only [formatAB, mbz_ok_iff, beq_iff_eq]
  constructor
  · rintro ⟨hm, h⟩
    obtain ⟨hx, h⟩ := withInstance_ok_iff.mp h
    split at h
    · cases h
      refine ⟨_, _, ?_, rfl⟩
      rw [num4_mk, num4_mk]
      conv_lhs => rw [← wordOf_fields w, hm]
    · cases h
  · rintro ⟨b, t, h, rfl⟩
    rw [h]
    have ht := num4_toNat t (by norm_num)
    simp [withInstance_num4 b (by norm_num), ht, t.isLt]

theorem formatABCount_ok_iff {f : DbNum → TapCount → Instr} :
    formatABCount w f = .ok j ↔ ∃ b t, w = wordOf (opcField w) (num4 b) (num4 t) 0 ∧ j = f b t := by
  simp only [formatABCount, mbz_ok_iff, beq_iff_eq]
  constructor
  · rintro ⟨hm, h⟩
    obtain ⟨hx, h⟩ := withInstance_ok_iff.mp h
    split at h
    · cases h
      refine ⟨_, _, ?_, rfl⟩
      rw [num4_mk, num4_mk]
      conv_lhs => rw [← wordOf_fields w, hm]
    · cases h
  · rintro ⟨b, t, h, rfl⟩
    rw [h]
    have ht := num4_toNat t (by norm_num)
    simp [withInstance_num4 b (by norm_num), ht, t.isLt]

theorem srcField_wordOf (o : BitVec 8) (a b : BitVec 4) (src : Src) : srcField (wordOf o a b src.bit) = src := by
  unfold srcField
  rw [getLsbD_wordOf]
  cases src <;> rfl

theorem formatAS_ok_iff {n : Nat} (hn : n ≤ 16) {f : Fin n → Src → Instr} :
    formatAS n w f = .ok j ↔ ∃ x src, w = wordOf (opcField w) (num4 x) 0 src.bit ∧ j = f x src := by
  simp only [formatAS, mbz_ok_iff, Bool.and_eq_true, beq_iff_eq]
  constructor
  · rintro ⟨⟨hb, hm⟩, h⟩
    obtain ⟨hx, h⟩ := withInstance_ok_iff.mp h
    cases h
    refine ⟨_, _, ?_, rfl⟩
    rw [num4_mk]
    conv_lhs => rw [← wordOf_fields w, hb, bit_of_imm w hm]
  · rintro ⟨x, src, h, rfl⟩
    rw [h, srcField_wordOf]
    cases src <;> simp [withInstance_num4 x hn, Src.bit]

/-- The `IMM` of an engine command. -/
def engineImm (src : Src) (c : Bool) : BitVec 16 := src.bit ||| if c then 2 else 0

theorem engine_fields (o : BitVec 8) (a b : BitVec 4) (src : Src) (c : Bool) :
    srcField (wordOf o a b (engineImm src c)) = src ∧ clampField (wordOf o a b (engineImm src c)) = c := by
  unfold srcField clampField
  rw [getLsbD_wordOf, getLsbD_wordOf]
  cases src <;> cases c <;> exact ⟨rfl, rfl⟩

/-- The fields of a legal engine command's word. -/
theorem formatABS_ok_iff {pad : Nat} {f : FuNum → FuNum → Instr} :
    formatABS pad w f = .ok j ↔ ∃ a b, a ≤ b ∧ immField w >>> pad = 0 ∧
      w = wordOf (opcField w) (num4 a) (num4 b) (immField w) ∧ j = f a b := by
  simp only [formatABS, mbz_ok_iff, beq_iff_eq]
  constructor
  · rintro ⟨hm, h⟩
    obtain ⟨ha, h⟩ := withInstance_ok_iff.mp h
    obtain ⟨hb, h⟩ := withInstance_ok_iff.mp h
    split at h
    · rename_i hab
      cases h
      refine ⟨_, _, hab, hm, ?_, rfl⟩
      rw [num4_mk, num4_mk]
      exact (wordOf_fields w).symm
    · cases h
  · rintro ⟨a, b, hab, hm, h, rfl⟩
    have h1 : aField w = num4 a := by rw [h]; simp
    have h2 : bField w = num4 b := by rw [h]; simp
    simp [hm, h1, h2, withInstance_num4 a (show 7 ≤ 16 by norm_num), withInstance_num4 b (show 7 ≤ 16 by norm_num), hab]

theorem formatS_ok_iff {f : Src → Instr} :
    formatS w f = .ok j ↔ ∃ src, w = wordOf (opcField w) 0 0 src.bit ∧ j = f src := by
  simp only [formatS, mbz_ok_iff, Bool.and_eq_true, beq_iff_eq, Except.ok.injEq]
  constructor
  · rintro ⟨⟨⟨ha, hb⟩, hm⟩, rfl⟩
    refine ⟨_, ?_, rfl⟩
    conv_lhs => rw [← wordOf_fields w, ha, hb, bit_of_imm w hm]
  · rintro ⟨src, h, rfl⟩
    rw [h, srcField_wordOf]
    cases src <;> simp [Src.bit]

theorem formatN_ok_iff {f : BitVec 16 → Instr} :
    formatN w f = .ok j ↔ ∃ n, w = wordOf (opcField w) 0 0 n ∧ j = f n := by
  simp only [formatN, mbz_ok_iff, Bool.and_eq_true, beq_iff_eq, Except.ok.injEq]
  constructor
  · rintro ⟨⟨ha, hb⟩, rfl⟩
    refine ⟨_, ?_, rfl⟩
    conv_lhs => rw [← wordOf_fields w, ha, hb]
  · rintro ⟨n, h, rfl⟩
    rw [h]
    simp

/-- The kinds of `CFG`, numbered as R37 numbers them. -/
def kindCommands : List (BitVec 4 × Instr) :=
  [(1, .cfgSd), (2, .cfgDd), (3, .cfgFd), (4, .cfgMc), (5, .cfgFc), (6, .cfgRv1), (7, .cfgRv2), (8, .cfgRv3)]

theorem formatG_ok_iff :
    formatG w = .ok j ↔ ∃ k, (k, j) ∈ kindCommands ∧ w = wordOf (opcField w) k 0 0 := by
  simp only [formatG, mbz_ok_iff, Bool.and_eq_true, beq_iff_eq]
  have key : ∀ a : BitVec 4, (match a.toNat with
      | 1 => Except.ok Instr.cfgSd | 2 => .ok .cfgDd | 3 => .ok .cfgFd | 4 => .ok .cfgMc | 5 => .ok .cfgFc
      | 6 => .ok .cfgRv1 | 7 => .ok .cfgRv2 | 8 => .ok .cfgRv3 | _ => .error Illegal.noSuchKind) = .ok j ↔
      (a, j) ∈ kindCommands := by
    intro a
    have ha : ∀ a : BitVec 4, a ∈ (List.range 16).map (BitVec.ofNat 4) := by decide
    have := ha a
    simp only [List.range, List.range.loop, List.map_cons, List.map_nil, List.mem_cons, List.not_mem_nil, or_false] at this
    rcases this with rfl | rfl | rfl | rfl | rfl | rfl | rfl | rfl | rfl | rfl | rfl | rfl | rfl | rfl | rfl | rfl <;>
      simp [kindCommands, eq_comm]
  constructor
  · rintro ⟨⟨hb, hm⟩, h⟩
    refine ⟨aField w, (key _).mp h, ?_⟩
    conv_lhs => rw [← wordOf_fields w, hb, hm]
  · rintro ⟨k, hk, h⟩
    have ha : aField w = k := by rw [h]; simp
    refine ⟨⟨by rw [h]; simp, by rw [h]; simp⟩, ?_⟩
    rw [ha]
    exact (key k).mpr hk

end Sys2Proof
end

