-- ==== Sys2Proof/Laws/Kinds.lean ====
section
/-! SUPPORT. The configuration rule of each unit kind: what it leaves, the causes it can raise, and that over a
cleared pool it builds a good unit (R38, R188). -/

namespace Sys2Proof.Machine

open Sys2Proof.Safety

variable {s t : State}

/-- What every kind's rule gives over a cleared pool: a configuration step, and a good unit. -/
structure Configured (s t : State) : Prop where
  step : ConfigStep s t
  good : s.params.Valid → ContextOk s → PoolOk s → s.unit = .idle → ContextOk t ∧ PoolOk t ∧ UnitOk t

theorem srate_nonneg (h : s.srate = 0 ∨ 1 ≤ s.srate) : 0 ≤ s.srate := by
  rcases h with h | h <;> linarith

theorem inUnit_zero : inUnit 0 := ⟨le_refl _, by norm_num⟩

theorem coefficient_zero : Coefficient 0 := ⟨le_refl _, by norm_num⟩

theorem idle_scalars : inUnit ActiveUnit.idle.dry ∧ inUnit ActiveUnit.idle.wet1 ∧ inUnit ActiveUnit.idle.wet2 ∧
    inUnit ActiveUnit.idle.gain ∧ Coefficient ActiveUnit.idle.g :=
  ⟨inUnit_zero, inUnit_zero, inUnit_zero, inUnit_zero, coefficient_zero⟩

/-- A unit that is no MultiChorus and has the counts of the reset state. -/
theorem countsOk_of_idle {u : ActiveUnit} (hk : u.kind ≠ .mc) (ht : u.nt = 0) (hm : u.nm = 0) : CountsOk u :=
  ⟨by omega, by omega, fun h => absurd h hk⟩

/-- The effect buffer a kind's rule allocates is good, and each of its taps is inside it. -/
theorem effect_pool {maxMs : Rat} {ds : List Nat} (hv : s.params.Valid) (hp : PoolOk s)
    (hl : effectLen s maxMs ≤ s.params.lmax) (hn : ds.length ≤ 3) (hd : ∀ d ∈ ds, d < effectLen s maxMs) :
    PoolOk (s.setDb effectDb (Db.alloc (effectLen s maxMs) ds)) ∧
    (Db.alloc (effectLen s maxMs) ds).taps.length = ds.length ∧
    ∀ t ∈ (Db.alloc (effectLen s maxMs) ds).taps, t.delay < (Db.alloc (effectLen s maxMs) ds).len := by
  have hm : 1 ≤ s.params.margin := hv.2.2.2.2.2.2.2.2.1
  refine ⟨poolOk_setEffect hp (Db.alloc_ok (by unfold effectLen; omega) hl hn fun d h => (hd d h).le),
    Db.alloc_ntap _ _, ?_⟩
  intro t ht
  simp only [Db.alloc, List.mem_map] at ht
  obtain ⟨d, h, rfl⟩ := ht
  exact hd d h

/-! ### The basic delay effects (R181, R184, R186) -/

theorem configSd_spec (h : configSd s = .ok t) : Configured s t := by
  simp only [configSd, bind_ok_iff, needContext_ok_iff, effalloc_ok_iff, Except.ok.injEq, exists_const] at h
  obtain ⟨-, _, ⟨hl, rfl⟩, rfl⟩ := h
  refine ⟨⟨rfl, fun hd => by simp [hd]⟩, fun hv hc hp hu => ?_⟩
  obtain ⟨-, -, -, -, -, -, -, -, hm, ⟨h1, h2, h3⟩, -⟩ := id hv
  obtain ⟨p1, p2, p3⟩ := effect_pool (s := s)
    (ds := [ms2smp s.srate (validated s.p[2] (inCC 0 s.params.maxSd) s.params.defs.sdDelay)]) hv hp hl (by simp) (by
    intro d hd
    rw [List.mem_singleton] at hd
    subst hd
    exact delay_lt_effectLen (srate_nonneg hc.1) hm (validated_delay h3))
  refine ⟨hc, poolOk_congr rfl rfl rfl rfl p1, ?_, ?_, ?_, ?_⟩
  · simp only [State.setUnit_unit, State.noteSubst_unit, State.setDb_unit, hu]
    exact ⟨validated_unit h1, validated_unit h2, idle_scalars.2.2.1, idle_scalars.2.2.2.1, idle_scalars.2.2.2.2⟩
  · intro n hn
    cases hn
    exact ⟨_, file_get_set_self _ _ _, p2, p3⟩
  · intro m hm
    simp [kindMods] at hm
  · exact countsOk_of_idle (by simp) (by simp [hu, ActiveUnit.idle]) (by simp [hu, ActiveUnit.idle])

theorem configDd_spec (h : configDd s = .ok t) : Configured s t := by
  simp only [configDd, bind_ok_iff, needContext_ok_iff, exists_const] at h
  obtain ⟨-, h⟩ := h
  have key : ∀ ms1 ms2 : Rat,
      (s.params.Valid → inDelay s.params.maxDd ms1 ∧ inDelay s.params.maxDd ms2) → ∀ t' : State,
      effectLen s s.params.maxDd ≤ s.params.lmax →
      t' = s.setDb effectDb (Db.alloc (effectLen s s.params.maxDd) [ms2smp s.srate ms1, ms2smp s.srate ms2]) →
      ∀ oks : List Bool, ∀ dry wet1 wet2 : Rat, (s.params.Valid → inUnit dry ∧ inUnit wet1 ∧ inUnit wet2) →
      Configured s ((t'.noteSubst oks).setUnit { (t'.noteSubst oks).unit with
        kind := .dd, dry := dry, wet1 := wet1, wet2 := wet2 }) := by
    rintro ms1 ms2 hms _ hl rfl oks dry wet1 wet2 hr
    refine ⟨⟨rfl, fun hd => by simp [hd]⟩, fun hv hc hp hu => ?_⟩
    have hm : 1 ≤ s.params.margin := hv.2.2.2.2.2.2.2.2.1
    obtain ⟨p1, p2, p3⟩ := effect_pool (s := s) (ds := [ms2smp s.srate ms1, ms2smp s.srate ms2]) hv hp hl (by simp) (by
      intro d hd
      simp only [List.mem_cons, List.not_mem_nil, or_false] at hd
      rcases hd with rfl | rfl
      · exact delay_lt_effectLen (srate_nonneg hc.1) hm (hms hv).1
      · exact delay_lt_effectLen (srate_nonneg hc.1) hm (hms hv).2)
    refine ⟨hc, poolOk_congr rfl rfl rfl rfl p1, ?_, ?_, ?_, ?_⟩
    · simp only [State.setUnit_unit, State.noteSubst_unit, State.setDb_unit, hu]
      exact ⟨(hr hv).1, (hr hv).2.1, (hr hv).2.2, idle_scalars.2.2.2.1, idle_scalars.2.2.2.2⟩
    · intro n hn
      cases hn
      exact ⟨_, file_get_set_self _ _ _, p2, p3⟩
    · intro m hm
      simp [kindMods] at hm
    · exact countsOk_of_idle (by simp) (by simp [hu, ActiveUnit.idle]) (by simp [hu, ActiveUnit.idle])
  have hr : s.params.Valid → inUnit (validated s.p[0] (inCC 0 1) s.params.defs.ddDry) ∧
      inUnit (validated s.p[1] (inCC 0 1) s.params.defs.ddWet1) ∧
      inUnit (validated s.p[2] (inCC 0 1) s.params.defs.ddWet2) := by
    rintro ⟨-, -, -, -, -, -, -, -, -, -, ⟨h1, h2, h3, -⟩, -⟩
    exact ⟨validated_unit h1, validated_unit h2, validated_unit h3⟩
  have hd : s.params.Valid →
      inDelay s.params.maxDd (validated s.p[3] (inCC 0 s.params.maxDd) s.params.defs.ddDelay1) ∧
      inDelay s.params.maxDd (validated s.p[4] (inCC 0 s.params.maxDd) s.params.defs.ddDelay2) := by
    rintro ⟨-, -, -, -, -, -, -, -, -, -, ⟨-, -, -, h4, h5⟩, -⟩
    exact ⟨validated_delay h4, validated_delay h5⟩
  split at h
  · simp only [effalloc_ok_iff, Except.ok.injEq] at h
    obtain ⟨t', ⟨hl, ht'⟩, rfl⟩ := h
    exact key _ _ (fun hv => (hd hv).symm) t' hl ht' _ _ _ _ hr
  · simp only [effalloc_ok_iff, Except.ok.injEq] at h
    obtain ⟨t', ⟨hl, ht'⟩, rfl⟩ := h
    exact key _ _ hd t' hl ht' _ _ _ _ hr

theorem configFd_spec (h : configFd s = .ok t) : Configured s t := by
  simp only [configFd, bind_ok_iff, needContext_ok_iff, effalloc_ok_iff, Except.ok.injEq, exists_const] at h
  obtain ⟨-, _, ⟨hl, rfl⟩, rfl⟩ := h
  refine ⟨⟨rfl, fun hd => by simp [hd]⟩, fun hv hc hp hu => ?_⟩
  obtain ⟨-, -, -, -, -, -, -, -, hm, -, -, ⟨h1, h2, h3⟩, -⟩ := id hv
  obtain ⟨p1, p2, p3⟩ := effect_pool (s := s)
    (ds := [ms2smp s.srate (validated s.p[2] (inCC 0 s.params.maxFd) s.params.defs.fdDelay)]) hv hp hl (by simp) (by
    intro d hd
    rw [List.mem_singleton] at hd
    subst hd
    exact delay_lt_effectLen (srate_nonneg hc.1) hm (validated_delay h3))
  refine ⟨hc, poolOk_congr rfl rfl rfl rfl p1, ?_, ?_, ?_, ?_⟩
  · simp only [State.setUnit_unit, State.noteSubst_unit, State.setDb_unit, hu]
    exact ⟨idle_scalars.1, idle_scalars.2.1, idle_scalars.2.2.1, validated_unit h1,
      percent_coefficient (validated_decay h2)⟩
  · intro n hn
    cases hn
    exact ⟨_, file_get_set_self _ _ _, p2, p3⟩
  · intro m hm
    simp [kindMods] at hm
  · exact countsOk_of_idle (by simp) (by simp [hu, ActiveUnit.idle]) (by simp [hu, ActiveUnit.idle])

/-- The causes a kind's rule can raise: of its context, of its effect buffer, or of what follows. -/
theorem delayKind_error {maxMs : Rat} {ds : List Nat} {f : State → Except Cause State} {c : Cause}
    (h : (do s.needContext; let t ← effalloc maxMs ds s; f t) = .error c) :
    c = .noContext ∨ c = .resourceExhaustion ∨ ∃ t, f t = .error c := by
  simp only [bind_error_iff] at h
  obtain h | ⟨_, _, h | ⟨t, _, h⟩⟩ := h
  · exact .inl (needContext_error h)
  · exact .inr (.inl (effalloc_error h))
  · exact .inr (.inr ⟨t, h⟩)

theorem configSd_error {c : Cause} (h : configSd s = .error c) : c = .noContext ∨ c = .resourceExhaustion := by
  obtain h | h | ⟨_, h⟩ := delayKind_error h
  · exact .inl h
  · exact .inr h
  · cases h

theorem configDd_error {c : Cause} (h : configDd s = .error c) : c = .noContext ∨ c = .resourceExhaustion := by
  simp only [configDd, bind_error_iff] at h
  obtain h | ⟨_, _, h⟩ := h
  · exact .inl (needContext_error h)
  · split at h
    all_goals
      obtain h | ⟨_, _, h⟩ := h
      · exact .inr (effalloc_error h)
      · cases h

theorem configFd_error {c : Cause} (h : configFd s = .error c) : c = .noContext ∨ c = .resourceExhaustion := by
  obtain h | h | ⟨_, h⟩ := delayKind_error h
  · exact .inl h
  · exact .inr h
  · cases h

/-! ### The chorus effects (R201, R206) -/

theorem isInt_iff {lo hi : Int} {q : Rat} : isInt lo hi q = true ↔ q.den = 1 ∧ lo ≤ q.num ∧ q.num ≤ hi := by
  simp [isInt]

theorem countOf_of_isInt {v : Num} (h : v.passes (isInt 1 3) = true) : 1 ≤ countOf v ∧ countOf v ≤ 3 := by
  cases v with
  | nan => cases h
  | val q =>
    simp only [Num.passes, isInt_iff] at h
    simp only [countOf]
    omega

theorem modNum_cases : ∀ m : ModNum, m = 0 ∨ m = 1 ∨ m = 2 := by decide

theorem passes_natCast {n : Nat} (h1 : 1 ≤ n) (h2 : n ≤ 3) : (Num.val (n : Rat)).passes (isInt 1 3) = true := by
  simp only [Num.passes, isInt_iff, Rat.den_natCast, Rat.num_natCast, true_and]
  omega

/-- The default operands of a MultiChorus have good counts (R9). -/
theorem ofDefault_counts {maxMs : Rat} {c : McDefault} (h : c.Valid maxMs) : (McOperands.ofDefault c).countsOk = true := by
  obtain ⟨-, -, ⟨h1, h2⟩, -, ⟨h3, h4⟩, -⟩ := h
  simp only [McOperands.countsOk, McOperands.ofDefault, Bool.and_eq_true]
  exact ⟨passes_natCast h1 h2, passes_natCast h3 h4⟩

/-- The operands `CFG.MC` uses (R201). -/
def mcOperands (s : State) : McOperands :=
  if (McOperands.ofRegs s.p).countsOk then McOperands.ofRegs s.p else McOperands.ofDefault s.params.defs.mcCfg

theorem mcOperands_counts (hv : s.params.Valid) : (mcOperands s).countsOk = true := by
  unfold mcOperands
  split
  · assumption
  · exact ofDefault_counts hv.2.2.2.2.2.2.2.2.2.2.2.2.2.1.2.2.2

theorem configMc_spec (h : configMc s = .ok t) : Configured s t := by
  simp only [configMc, bind_ok_iff, needContext_ok_iff, effalloc_ok_iff, Except.ok.injEq, exists_const,
    ← mcOperands.eq_def] at h
  obtain ⟨-, _, ⟨hl, rfl⟩, t', ht', rfl⟩ := h
  have hm := modcfgFirst_spec ht'
  have hs : ConfigStep s t' := (setDb_configStep _ _ _).trans hm.step
  refine ⟨hs.trans ⟨rfl, fun hd => by simp [hd]⟩, fun hv hc hp hu => ?_⟩
  have hcount := mcOperands_counts hv
  simp only [McOperands.countsOk, Bool.and_eq_true] at hcount
  have hnt := countOf_of_isInt hcount.1
  have hnm := countOf_of_isInt hcount.2
  obtain ⟨-, -, -, -, -, -, -, -, hmg, -, -, -, -, ⟨h1, h2, h3, -⟩, -, -, hip⟩ := id hv
  have hlen : (List.map (ms2smp s.srate) (sortAscending (List.take (countOf (mcOperands s)[2])
      [validated (mcOperands s)[3] (inCC 0 s.params.maxMc) s.params.defs.mcDelay[0],
       validated (mcOperands s)[4] (inCC 0 s.params.maxMc) s.params.defs.mcDelay[1],
       validated (mcOperands s)[5] (inCC 0 s.params.maxMc) s.params.defs.mcDelay[2]]))).length =
      countOf (mcOperands s)[2] := by
    simp only [List.length_map, length_sortAscending, List.length_take, List.length_cons, List.length_nil]
    omega
  obtain ⟨p1, p2, p3⟩ := effect_pool (s := s) hv hp hl (by rw [hlen]; omega) (by
    intro d hd
    simp only [List.mem_map, mem_sortAscending] at hd
    obtain ⟨q, hq, rfl⟩ := hd
    have hq := List.mem_of_mem_take hq
    simp only [List.mem_cons, List.not_mem_nil, or_false] at hq
    apply delay_lt_effectLen (srate_nonneg hc.1) hmg
    rcases hq with rfl | rfl | rfl
    · exact validated_delay (h3 0)
    · exact validated_delay (h3 1)
    · exact validated_delay (h3 2))
  have hpool := hm.poolOk hv p1
  refine ⟨⟨?_, (ipOf_ok hip _ _ _).1, (ipOf_ok hip _ _ _).2, ?_⟩, poolOk_congr rfl rfl rfl rfl hpool, ?_, ?_, ?_, ?_⟩
  · simpa [hs.srate] using hc.1
  · have := hc.2.2.2
    simpa [hm.mixr] using this
  · simp only [State.setUnit_unit, State.noteSubst_unit, hm.unit, State.setDb_unit, hu]
    exact ⟨validated_percent h1, validated_percent h2, idle_scalars.2.2.1, idle_scalars.2.2.2.1,
      idle_scalars.2.2.2.2⟩
  · intro n hn
    simp only [kindTaps, State.setUnit_unit, Option.mem_def, Option.some.injEq] at hn
    subst hn
    refine ⟨Db.alloc (effectLen s s.params.maxMc) _, ?_, p2.trans hlen, p3⟩
    simp only [State.setUnit_dbs, State.noteSubst_dbs, hm.dbs, State.setDb_dbs]
    exact file_get_set_self _ _ _
  · intro m hmm
    simp only [kindMods, State.setUnit_unit] at hmm
    simp only [State.setUnit_mods, State.noteSubst_mods]
    apply hm.configured m (.inl _)
    have : countOf (mcOperands s)[6] = 1 ∨ countOf (mcOperands s)[6] = 2 ∨ countOf (mcOperands s)[6] = 3 := by omega
    rcases this with e | e | e <;> rw [e] at hmm ⊢
    · have : m = 0 := Fin.ext (by simp only [Fin.val_zero]; omega)
      subst this
      exact ⟨_, List.mem_cons_self, rfl⟩
    · rcases modNum_cases m with rfl | rfl | rfl
      · exact ⟨_, List.mem_cons_self, rfl⟩
      · exact ⟨_, List.mem_cons_of_mem _ List.mem_cons_self, rfl⟩
      · exact absurd hmm (by decide)
    · rcases modNum_cases m with rfl | rfl | rfl
      · exact ⟨_, List.mem_cons_self, rfl⟩
      · exact ⟨_, List.mem_cons_of_mem _ List.mem_cons_self, rfl⟩
      · exact ⟨_, List.mem_cons_of_mem _ (List.mem_cons_of_mem _ List.mem_cons_self), rfl⟩
  · exact ⟨hnt.2, hnm.2, fun _ => ⟨hnt.1, hnm.1⟩⟩

theorem configMc_error {c : Cause} (h : configMc s = .error c) : ConfigCause c := by
  obtain h | h | ⟨_, h⟩ := delayKind_error h
  · exact .inl h
  · exact .inr (.inr h)
  · rw [bind_error_iff] at h
    obtain h | ⟨_, _, h⟩ := h
    · exact modcfgFirst_error h
    · cases h

theorem configFc_spec (h : configFc s = .ok t) : Configured s t := by
  simp only [configFc, bind_ok_iff, needContext_ok_iff, effalloc_ok_iff, Except.ok.injEq, exists_const] at h
  obtain ⟨-, _, ⟨hl, rfl⟩, t', ht', rfl⟩ := h
  have hs : ConfigStep s t' := (setDb_configStep _ _ _).trans (modcfg_configStep ht')
  obtain ⟨k1, k2, k3, k4, k5, k6⟩ := modcfg_keeps ht'
  refine ⟨hs.trans ⟨rfl, fun hd => by simp [hd]⟩, fun hv hc hp hu => ?_⟩
  obtain ⟨-, -, -, -, -, -, -, -, hmg, -, -, -, ⟨h1, h2, h3⟩, -, -, -, hip⟩ := id hv
  obtain ⟨p1, p2, p3⟩ := effect_pool (s := s)
    (ds := [ms2smp s.srate (validated s.p[2] (inCC 0 s.params.maxFc) s.params.defs.fcDelay)]) hv hp hl (by simp) (by
    intro d hd
    rw [List.mem_singleton] at hd
    subst hd
    exact delay_lt_effectLen (srate_nonneg hc.1) hmg (validated_delay h3))
  have hpool := modcfg_poolOk ht' hv p1
  refine ⟨⟨?_, (ipOf_ok hip _ _ _).1, (ipOf_ok hip _ _ _).2, ?_⟩, poolOk_congr rfl rfl rfl rfl hpool, ?_, ?_, ?_, ?_⟩
  · simpa [hs.srate] using hc.1
  · have := hc.2.2.2
    simpa [k4] using this
  · simp only [State.setUnit_unit, State.noteSubst_unit, k5, State.setDb_unit, hu]
    exact ⟨idle_scalars.1, idle_scalars.2.1, idle_scalars.2.2.1, validated_unit h1,
      percent_coefficient (validated_decay h2)⟩
  · intro n hn
    cases hn
    refine ⟨_, ?_, p2, p3⟩
    simp only [State.setUnit_dbs, State.noteSubst_dbs, k1, State.setDb_dbs]
    exact file_get_set_self _ _ _
  · intro m hmm
    simp only [kindMods, State.setUnit_unit] at hmm
    have : m = 0 := Fin.ext (by simp only [Fin.val_zero]; omega)
    exact k6 m (.inl this)
  · exact countsOk_of_idle (by simp) (by simp [k5, hu, ActiveUnit.idle])
      (by simp [k5, hu, ActiveUnit.idle])

theorem configFc_error {c : Cause} (h : configFc s = .error c) : ConfigCause c := by
  obtain h | h | ⟨_, h⟩ := delayKind_error h
  · exact .inl h
  · exact .inr (.inr h)
  · rw [bind_error_iff] at h
    obtain h | ⟨_, _, h⟩ := h
    · exact modcfg_error h
    · cases h

/-! ### The reverbs (R227, R229, R231) -/

/-- What a chain of `fucfg`s leaves. -/
structure FilterChain (s t : State) : Prop where
  step : ConfigStep s t
  ip : t.ip = s.ip
  mixr : t.mixr = s.mixr
  unit : t.unit = s.unit
  poolOk : s.params.Valid → PoolOk s → PoolOk t

theorem fucfg_chain {u : FuNum} {ty : FuType} {ms pct1 pct2 : Num} (h : fucfg u ty ms pct1 pct2 s = .ok t) :
    FilterChain s t :=
  have hk := fucfg_keeps h
  ⟨fucfg_configStep h, hk.2.2.1, hk.2.2.2.1, hk.2.2.2.2, fucfg_poolOk h⟩

theorem FilterChain.trans {u : State} (h1 : FilterChain s t) (h2 : FilterChain t u) : FilterChain s u :=
  ⟨h1.step.trans h2.step, h2.ip.trans h1.ip, h2.mixr.trans h1.mixr, h2.unit.trans h1.unit,
    fun hv hp => h2.poolOk (h1.step.params ▸ hv) (h1.poolOk hv hp)⟩

theorem finishReverb_spec {pct : Num} {kind : Kind} (h : FilterChain s t)
    (hk : ∀ u : ActiveUnit, kindTaps { u with kind := kind } = none ∧ kindMods { u with kind := kind } = 0 ∧ kind ≠ .mc) :
    Configured s (t.finishReverb pct kind) := by
  refine ⟨⟨by rw [h.step.frame]; rfl, fun hd => ?_⟩, fun hv hc hp hu => ?_⟩
  · simp [State.finishReverb, State.mixcfg, h.step.defsub hd]
  · refine ⟨⟨?_, ?_, ?_, mixcfg_ok t pct⟩, poolOk_congr rfl rfl rfl rfl (h.poolOk hv hp), ?_, ?_, ?_, ?_⟩
    · have := hc.1
      simpa [State.finishReverb, State.mixcfg, h.step.srate] using this
    · have := hc.2.1
      simpa [State.finishReverb, State.mixcfg, h.ip] using this
    · have := hc.2.2.1
      simpa [State.finishReverb, State.mixcfg, h.ip] using this
    · simp only [State.finishReverb, State.mixcfg, State.setUnit_unit, State.noteSubst_unit, h.unit, hu]
      exact idle_scalars
    · intro n hn
      rw [State.finishReverb, State.setUnit_unit, (hk _).1] at hn
      cases hn
    · intro m hm
      rw [State.finishReverb, State.setUnit_unit, (hk _).2.1] at hm
      omega
    · simp only [State.finishReverb, State.mixcfg, State.setUnit_unit, State.noteSubst_unit, h.unit, hu]
      exact countsOk_of_idle (hk ActiveUnit.idle).2.2 rfl rfl

theorem configRv1_spec (h : configRv1 s = .ok t) : Configured s t := by
  simp only [configRv1, bind_ok_iff, Except.ok.injEq] at h
  obtain ⟨_, h0, _, h1, _, h2, _, h3, _, h4, rfl⟩ := h
  exact finishReverb_spec ((fucfg_chain h0).trans ((fucfg_chain h1).trans ((fucfg_chain h2).trans
    ((fucfg_chain h3).trans (fucfg_chain h4))))) fun _ => ⟨rfl, rfl, by simp⟩

theorem configRv2_spec (h : configRv2 s = .ok t) : Configured s t := by
  simp only [configRv2, bind_ok_iff, Except.ok.injEq] at h
  obtain ⟨_, h0, _, h1, _, h2, _, h3, _, h4, _, h5, rfl⟩ := h
  exact finishReverb_spec ((fucfg_chain h0).trans ((fucfg_chain h1).trans ((fucfg_chain h2).trans
    ((fucfg_chain h3).trans ((fucfg_chain h4).trans (fucfg_chain h5)))))) fun _ => ⟨rfl, rfl, by simp⟩

theorem configRv3_spec (h : configRv3 s = .ok t) : Configured s t := by
  simp only [configRv3, bind_ok_iff, Except.ok.injEq] at h
  obtain ⟨_, h0, _, h1, _, h2, _, h3, _, h4, _, h5, _, h6, rfl⟩ := h
  exact finishReverb_spec ((fucfg_chain h0).trans ((fucfg_chain h1).trans ((fucfg_chain h2).trans
    ((fucfg_chain h3).trans ((fucfg_chain h4).trans ((fucfg_chain h5).trans (fucfg_chain h6)))))))
    fun _ => ⟨rfl, rfl, by simp⟩

/-- The operands of one `fucfg`. -/
structure FilterOperands where
  unit : FuNum
  type : FuType
  ms : Num
  pct1 : Num
  pct2 : Num

/-- `fucfg` of several filter units in order. -/
def fucfgs : List FilterOperands → State → Except Cause State
  | [], s => .ok s
  | o :: os, s => fucfg o.unit o.type o.ms o.pct1 o.pct2 s >>= fucfgs os

/-- With a rate, one filter unit whose buffer is too large makes the whole chain raise RESOURCE_EXHAUSTION (R226). -/
theorem fucfgs_full {os : List FilterOperands} (h0 : s.srate ≠ 0)
    (h : ∃ o ∈ os, s.params.lmax < fuDelay s o.ms + 1) : fucfgs os s = .error .resourceExhaustion := by
  induction os generalizing s with
  | nil => simp at h
  | cons o os ih =>
    cases hr : fucfg o.unit o.type o.ms o.pct1 o.pct2 s with
    | error c =>
      rcases fucfg_error_iff.mp hr with ⟨hz, -⟩ | ⟨-, -, rfl⟩
      · exact absurd hz h0
      · simp only [fucfgs, hr, error_bind]
    | ok t =>
      have hs := fucfg_configStep hr
      obtain ⟨w, hw, hl⟩ := h
      simp only [fucfgs, hr, ok_bind]
      refine ih (by rwa [hs.srate]) ⟨w, (List.mem_cons.mp hw).resolve_left ?_, ?_⟩
      · rintro rfl
        exact absurd (fucfg_ok_iff.mp hr).2.1 (by omega)
      · simpa only [fuDelay, hs.srate, hs.params] using hl

/-- A reverb whose filter units are configured from these operands raises RESOURCE_EXHAUSTION when one is too large. -/
theorem fucfgs_full_bind {os : List FilterOperands} {f : State → Except Cause State} (h0 : s.srate ≠ 0)
    (h : ∃ o ∈ os, s.params.lmax < fuDelay s o.ms + 1) : fucfgs os s >>= f = .error .resourceExhaustion := by
  rw [fucfgs_full h0 h, error_bind]

theorem configRv1_eq : configRv1 s = fucfgs [⟨0, .ap, s.p[1], s.p[2], .zero⟩, ⟨1, .ap, s.p[3], s.p[4], .zero⟩,
    ⟨2, .ap, s.p[5], s.p[6], .zero⟩, ⟨3, .ap, s.p[7], s.p[8], .zero⟩, ⟨4, .ap, s.p[9], s.p[10], .zero⟩] s >>=
      fun t => .ok (t.finishReverb s.p[0] .rv1) := by
  simp only [configRv1, fucfgs, bind_assoc, ok_bind]

theorem configRv2_eq : configRv2 s = fucfgs [⟨0, .cb, s.p[1], s.p[2], .zero⟩, ⟨1, .cb, s.p[3], s.p[4], .zero⟩,
    ⟨2, .cb, s.p[5], s.p[6], .zero⟩, ⟨3, .cb, s.p[7], s.p[8], .zero⟩, ⟨4, .ap, s.p[9], s.p[10], .zero⟩,
    ⟨5, .ap, s.p[11], s.p[12], .zero⟩] s >>= fun t => .ok (t.finishReverb s.p[0] .rv2) := by
  simp only [configRv2, fucfgs, bind_assoc, ok_bind]

theorem configRv3_eq : configRv3 s = fucfgs [⟨0, .lpc, s.p[1], s.p[2], s.p[3]⟩, ⟨1, .lpc, s.p[4], s.p[5], s.p[6]⟩,
    ⟨2, .lpc, s.p[7], s.p[8], s.p[9]⟩, ⟨3, .lpc, s.p[10], s.p[11], s.p[12]⟩, ⟨4, .lpc, s.p[13], s.p[14], s.p[15]⟩,
    ⟨5, .lpc, s.p[16], s.p[17], s.p[18]⟩, ⟨6, .ap, s.p[19], s.p[20], .zero⟩] s >>=
      fun t => .ok (t.finishReverb s.p[0] .rv3) := by
  simp only [configRv3, fucfgs, bind_assoc, ok_bind]

theorem configRv1_error {c : Cause} (h : configRv1 s = .error c) : c = .noContext ∨ c = .resourceExhaustion := by
  simp only [configRv1, bind_error_iff] at h
  obtain h | ⟨_, _, h | ⟨_, _, h | ⟨_, _, h | ⟨_, _, h | ⟨_, _, h⟩⟩⟩⟩⟩ := h
  all_goals first | exact fucfg_error h | cases h

theorem configRv2_error {c : Cause} (h : configRv2 s = .error c) : c = .noContext ∨ c = .resourceExhaustion := by
  simp only [configRv2, bind_error_iff] at h
  obtain h | ⟨_, _, h | ⟨_, _, h | ⟨_, _, h | ⟨_, _, h | ⟨_, _, h | ⟨_, _, h⟩⟩⟩⟩⟩⟩ := h
  all_goals first | exact fucfg_error h | cases h

theorem configRv3_error {c : Cause} (h : configRv3 s = .error c) : c = .noContext ∨ c = .resourceExhaustion := by
  simp only [configRv3, bind_error_iff] at h
  obtain h | ⟨_, _, h | ⟨_, _, h | ⟨_, _, h | ⟨_, _, h | ⟨_, _, h | ⟨_, _, h | ⟨_, _, h⟩⟩⟩⟩⟩⟩⟩ := h
  all_goals first | exact fucfg_error h | cases h

end Sys2Proof.Machine
end

