-- ==== Sys2Proof/Laws/Exec.lean ====
section
/-! SUPPORT. Everything a command can do, said once for all commands: `exec_cases` gives the four ways a command
ends, `Effect` what a command that takes effect may change, and that it keeps the invariant. -/

namespace Sys2Proof.Machine

open Sys2Proof.Safety

variable {s t : State}

/-! ### The invariant under the small changes -/

theorem inv_congr (h : StateOk s) (hp : t.params = s.params) (hs : t.srate = s.srate) (hi : t.ip = s.ip)
    (hx : t.mixr = s.mixr) (hf : t.fault = s.fault) (hc : t.cause = s.cause) (hw : t.fcmd = s.fcmd)
    (hd : t.dbs = s.dbs) (hm : t.mods = s.mods) (hu : t.fus = s.fus) (hk : t.unit = s.unit) : StateOk t := by
  unfold StateOk ParamsOk ContextOk FaultOk PoolOk UnitOk at h ⊢
  rw [hp, hs, hi, hx, hf, hc, hw, hd, hm, hu, hk]
  exact h

theorem raise_inv {c : Cause} (h : StateOk s) (hc : c ≠ .none) : StateOk (s.raise c) := by
  obtain ⟨h1, h2, -, h4, h5⟩ := h
  exact ⟨h1, h2, ⟨fun h => absurd h (by simp), fun _ => hc⟩, h4, h5⟩

/-- The same shape of an effect buffer serves the unit as well. -/
theorem shape_taps {d e : Db} (h : d.shape = e.shape) :
    d.len = e.len ∧ d.taps.map Tap.delay = e.taps.map Tap.delay ∧ d.taps.length = e.taps.length := by
  obtain ⟨h1, h2⟩ := Prod.mk.inj h
  refine ⟨h1, h2, ?_⟩
  have := congrArg List.length h2
  simpa using this

theorem map_some_of_eq {α β : Type} {f : α → β} {x y : Option α} (h : x.map f = y.map f) {a : α} (ha : y = some a) :
    ∃ b, x = some b ∧ f b = f a := by
  subst ha
  cases x with
  | none => cases h
  | some b => exact ⟨b, rfl, Option.some.inj h⟩

theorem dataStep_inv (h : DataStep s t) (hi : StateOk s) : StateOk t := by
  obtain ⟨h1, h2, h3, ⟨h4, h5, h6⟩, ⟨h7, h8, h9, h10⟩⟩ := hi
  refine ⟨?_, ?_, ?_, ⟨?_, ?_, ?_⟩, ⟨?_, ?_, ?_, ?_⟩⟩
  · unfold ParamsOk; rw [h.params]; exact h1
  · unfold ContextOk; rw [h.srate, h.ip, h.mixr]; exact h2
  · unfold FaultOk; rw [h.fault, h.cause, h.fcmd]; exact h3
  · rw [h.params]; exact h.dbsOk h4
  · rw [h.params]; exact h.modsOk h5
  · intro u fu hfu
    rw [h.fus] at hfu
    obtain ⟨c1, c2, d, hd, he⟩ := h6 u fu hfu
    obtain ⟨d', hd', hs'⟩ := map_some_of_eq (h.shapes (filterDb u)) hd
    obtain ⟨e1, e2, -⟩ := shape_taps hs'
    exact ⟨c1, c2, d', hd', by rw [e1, e2]; exact he⟩
  · rw [h.unit]; exact h7
  · intro n hn
    rw [h.unit] at hn
    obtain ⟨d, hd, hl, ht⟩ := h8 n hn
    obtain ⟨d', hd', hs'⟩ := map_some_of_eq (h.shapes effectDb) hd
    obtain ⟨e1, e2, e3⟩ := shape_taps hs'
    refine ⟨d', hd', e3.trans hl, fun t' ht' => ?_⟩
    have : t'.delay ∈ d'.taps.map Tap.delay := List.mem_map_of_mem ht'
    rw [e2] at this
    obtain ⟨t'', ht'', he⟩ := List.mem_map.mp this
    rw [← he, e1]
    exact ht t'' ht''
  · intro m hm
    rw [h.unit] at hm
    obtain ⟨md, hmd⟩ := Option.isSome_iff_exists.mp (h9 m hm)
    obtain ⟨md', hmd', -⟩ := map_some_of_eq (h.tables m) hmd
    rw [hmd']; rfl
  · rw [h.unit]; exact h10

/-! ### What a command that takes effect may change -/

/-- What a command that takes effect may change. -/
structure Effect (i : Instr) (s t : State) : Prop where
  fault : t.fault = s.fault
  cause : t.cause = s.cause
  fcmd : t.fcmd = s.fcmd
  params : t.params = s.params
  port : t.port = s.port
  pending : t.pending = s.pending
  p : ∀ k : PNum, i ≠ .pld k → i ≠ .pmv k → t.p[k] = s.p[k]
  r : i.writesR = false → t.r = s.r ∧ t.dout = s.dout
  srate : i ≠ .ctxSet → t.srate = s.srate
  mode : i ≠ .start → i ≠ .stop → t.mode = s.mode
  warm : (∀ b k, i ≠ .dbRd b k) → t.warm = s.warm
  exh : (∀ x, i ≠ .tick x) → (∀ n, i ≠ .block n) → t.exh = s.exh
  defsub : (s.defsub = true → t.defsub = true) ∧ (i.cls ≠ .cfg → t.defsub = s.defsub)
  pool : i.cls ≠ .cfg →
    (∀ b : DbNum, (t.dbs[b]).map Db.shape = (s.dbs[b]).map Db.shape) ∧
    (∀ m : ModNum, (t.mods[m]).map Modulator.table = (s.mods[m]).map Modulator.table) ∧
    t.fus = s.fus ∧ t.ip = s.ip ∧ t.mixr = s.mixr ∧ t.unit = s.unit
  inv : StateOk s → StateOk t

/-- A data path followed by a result, a warm flag and an exhaustion flag. -/
theorem Effect.ofData {i : Instr} {u : State} (hd : DataStep s u)
    (ht : t = { u with r := t.r, dout := t.dout, warm := t.warm, exh := t.exh })
    (hr : i.writesR = false → t.r = s.r ∧ t.dout = s.dout)
    (hw : (∀ b k, i ≠ .dbRd b k) → t.warm = s.warm)
    (he : (∀ x, i ≠ .tick x) → (∀ n, i ≠ .block n) → t.exh = s.exh) : Effect i s t where
  fault := by rw [ht]; exact hd.fault
  cause := by rw [ht]; exact hd.cause
  fcmd := by rw [ht]; exact hd.fcmd
  params := by rw [ht]; exact hd.params
  port := by rw [ht]; exact hd.port
  pending := by rw [ht]; exact hd.pending
  p k _ _ := by rw [ht]; dsimp only; rw [hd.p]
  r := hr
  srate _ := by rw [ht]; exact hd.srate
  mode _ _ := by rw [ht]; exact hd.mode
  warm := hw
  exh := he
  defsub := by
    have : t.defsub = s.defsub := by rw [ht]; exact hd.defsub
    exact ⟨fun h => this ▸ h, fun _ => this⟩
  pool _ := by
    rw [ht]
    exact ⟨hd.shapes, hd.tables, hd.fus, hd.ip, hd.mixr, hd.unit⟩
  inv h := by
    rw [ht]
    exact inv_congr (dataStep_inv hd h) rfl rfl rfl rfl rfl rfl rfl rfl rfl rfl rfl

/-- A configuration step. -/
theorem Effect.ofConfig {i : Instr} (hc : ConfigStep s t) (hi : i.cls = .cfg) (hv : StateOk s → StateOk t) : Effect i s t where
  fault := hc.fault
  cause := hc.cause
  fcmd := hc.fcmd
  params := hc.params
  port := hc.port
  pending := hc.pending
  p k _ _ := by rw [hc.p]
  r _ := ⟨hc.r, hc.dout⟩
  srate _ := hc.srate
  mode _ _ := hc.mode
  warm _ := hc.warm
  exh _ _ := hc.exh
  defsub := ⟨hc.defsub, fun h => absurd hi h⟩
  pool h := absurd hi h
  inv := hv

/-- Everything a command other than `RESET` can do. -/
structure Ends (i : Instr) (s t : State) : Prop where
  cases :
    (s.fault = true ∧ t = s) ∨
    (s.fault = false ∧ legalIn i.cls s.mode = false ∧ t = s.raise .modeViolation) ∨
    (s.fault = false ∧ legalIn i.cls s.mode = true ∧ ∃ c ∈ i.ownCauses, t = s.raise c) ∨
    (s.fault = false ∧ legalIn i.cls s.mode = true ∧ Effect i s t)

/-- A command whose body raises only its own causes and has only its own effect. -/
theorem Ends.ofBody {i : Instr} {body : State → Except Cause State} (h : s.command i.cls body = .next t)
    (he : ∀ c, body s = .error c → c ∈ i.ownCauses) (ho : body s = .ok t → Effect i s t) : Ends i s t := by
  obtain h | h | ⟨h1, h2, c, h3, h4⟩ | ⟨h1, h2, h3⟩ := command_cases h
  · exact ⟨.inl h⟩
  · exact ⟨.inr (.inl h)⟩
  · exact ⟨.inr (.inr (.inl ⟨h1, h2, c, he c h3, h4⟩))⟩
  · exact ⟨.inr (.inr (.inr ⟨h1, h2, ho h3⟩))⟩

/-! ### Command by command -/

/-- A rule that puts a value into `R` after a data path. -/
theorem Effect.ofOut {i : Instr} {u : State} {y : Num} (hd : DataStep s u) (hi : i.writesR = true) :
    Effect i s (u.out y) :=
  .ofData hd rfl (fun h => by rw [hi] at h; cases h) (fun _ => hd.warm) (fun _ _ => hd.exh)

theorem execNop_ends (h : execNop s = .next t) : Ends .nop s t :=
  .ofBody h (fun _ h => by cases h) fun h => by
    cases h
    exact .ofData (.refl _) rfl (fun _ => ⟨rfl, rfl⟩) (fun _ => rfl) (fun _ _ => rfl)

theorem setP_effect {i : Instr} {k : PNum} {v : Num} {u : State} (hd : DataStep s u)
    (hi : i = .pld k ∨ i = .pmv k) : Effect i s (u.setP k v) where
  fault := hd.fault
  cause := hd.cause
  fcmd := hd.fcmd
  params := hd.params
  port := hd.port
  pending := hd.pending
  p j h1 h2 := by
    rw [State.setP_p, file_get_set, hd.p]
    split
    · rename_i hj
      subst hj
      rcases hi with rfl | rfl
      · exact absurd rfl h1
      · exact absurd rfl h2
    · rfl
  r _ := ⟨hd.r, hd.dout⟩
  srate _ := hd.srate
  mode _ _ := hd.mode
  warm _ := hd.warm
  exh _ _ := hd.exh
  defsub := ⟨fun h => hd.defsub ▸ h, fun _ => hd.defsub⟩
  pool _ := ⟨hd.shapes, hd.tables, hd.fus, hd.ip, hd.mixr, hd.unit⟩
  inv h := inv_congr (dataStep_inv hd h) rfl rfl rfl rfl rfl rfl rfl rfl rfl rfl rfl

theorem execPld_ends {k : PNum} (h : execPld k s = .next t) : Ends (.pld k) s t :=
  .ofBody (i := .pld k) h (fun _ h => by cases h) fun h => by
    cases h
    exact setP_effect (dinAt_dataStep s 0) (.inl rfl)

theorem execPmv_ends {k : PNum} (h : execPmv k s = .next t) : Ends (.pmv k) s t :=
  .ofBody (i := .pmv k) h (fun _ h => by cases h) fun h => by
    cases h
    exact setP_effect (.refl _) (.inr rfl)

theorem setMode_effect {i : Instr} {m : Mode} (hi : i = .start ∨ i = .stop) : Effect i s (s.setMode m) where
  fault := rfl
  cause := rfl
  fcmd := rfl
  params := rfl
  port := rfl
  pending := rfl
  p _ _ _ := rfl
  r _ := ⟨rfl, rfl⟩
  srate _ := rfl
  mode h1 h2 := by
    rcases hi with rfl | rfl
    · exact absurd rfl h1
    · exact absurd rfl h2
  warm _ := rfl
  exh _ _ := rfl
  defsub := ⟨id, fun _ => rfl⟩
  pool _ := ⟨fun _ => rfl, fun _ => rfl, rfl, rfl, rfl, rfl⟩
  inv h := inv_congr h rfl rfl rfl rfl rfl rfl rfl rfl rfl rfl rfl

theorem execStart_ends (h : execStart s = .next t) : Ends .start s t :=
  .ofBody h (fun _ h => by cases h) fun h => by
    cases h
    exact setMode_effect (.inl rfl)

theorem execStop_ends (h : execStop s = .next t) : Ends .stop s t :=
  .ofBody h (fun _ h => by cases h) fun h => by
    cases h
    exact setMode_effect (.inr rfl)

theorem execCtxSet_ends (h : execCtxSet s = .next t) : Ends .ctxSet s t :=
  .ofBody h
    (fun c h => by
      rw [bind_error_iff] at h
      obtain h | ⟨_, _, h⟩ := h
      · simp [Instr.ownCauses, operand_error h]
      · cases h)
    fun h => by
      rw [bind_ok_iff] at h
      obtain ⟨q, hq, h⟩ := h
      cases h
      have hq1 : 1 ≤ q := by simpa using (operand_ok_iff.mp hq).2
      exact
        { fault := rfl, cause := rfl, fcmd := rfl, params := rfl, port := rfl, pending := rfl
          p := fun _ _ _ => rfl, r := fun _ => ⟨rfl, rfl⟩, srate := fun h => absurd rfl h, mode := fun _ _ => rfl
          warm := fun _ => rfl, exh := fun _ _ => rfl, defsub := ⟨id, fun _ => rfl⟩
          pool := fun _ => ⟨fun _ => rfl, fun _ => rfl, rfl, rfl, rfl, rfl⟩
          inv := fun ⟨h1, h2, h3, h4, h5⟩ => ⟨h1, ⟨.inr hq1, h2.2⟩, h3, h4, h5⟩ }

/-! #### Delay buffers -/

theorem allocDelays_error {len : Nat} {vs : List Num} {c : Cause} (h : allocDelays len vs = .error c) :
    c = .badOperand := by
  induction vs with
  | nil => cases h
  | cons v vs ih =>
    simp only [allocDelays, bind_error_iff, require_error_iff] at h
    obtain h | ⟨_, _, ⟨_, h⟩ | ⟨_, _, h | ⟨_, _, h⟩⟩⟩ := h
    · exact operand_error h
    · exact h.symm
    · exact ih h
    · cases h

theorem allocDelays_ok {len : Nat} {vs : List Num} {ds : List Nat} (h : allocDelays len vs = .ok ds) :
    ds.length = vs.length ∧ ∀ d ∈ ds, d ≤ len := by
  induction vs generalizing ds with
  | nil => cases h; exact ⟨rfl, by simp⟩
  | cons v vs ih =>
    simp only [allocDelays, bind_ok_iff, require_ok_iff, decide_eq_true_eq, Except.ok.injEq, exists_const] at h
    obtain ⟨q, _, h1, ds', h2, rfl⟩ := h
    obtain ⟨h3, h4⟩ := ih h2
    refine ⟨by simp [h3], fun d hd => ?_⟩
    rcases List.mem_cons.mp hd with rfl | hd
    · exact h1
    · exact h4 d hd

theorem disown_configStep (s : State) (b : DbNum) : ConfigStep s (s.disown b) := by
  unfold State.disown
  split
  · exact ⟨rfl, id⟩
  · split <;> exact ⟨rfl, id⟩

/-- A hand allocation leaves the owner of the buffer unconfigured, so the rest of the state stays good (R102). -/
theorem disown_inv {b : DbNum} {db : Db} (hi : StateOk s) (hdb : DbOk s.params db) : StateOk ((s.setDb b db).disown b) := by
  obtain ⟨h1, h2, h3, ⟨h4, h5, h6⟩, h7, h8, h9, h10⟩ := hi
  have hdbs : ∀ c : DbNum, ∀ d ∈ (s.dbs.set b (some db))[c], DbOk s.params d := by
    intro c d hd
    rw [file_get_set] at hd
    split at hd
    · cases hd; exact hdb
    · exact h4 c d hd
  unfold State.disown
  split
  · rename_i hb
    have hne : ∀ v : FuNum, b = filterDb v → (⟨b.val, hb⟩ : FuNum) = v := by
      intro v e
      subst e
      rfl
    refine ⟨h1, h2, h3, ⟨hdbs, h5, ?_⟩, h7, ?_, h9, h10⟩
    · intro v fu hfu
      rw [State.setFu_fus, State.setDb_fus, file_get_set] at hfu
      split at hfu
      · cases hfu
      · rename_i hv
        have : b ≠ filterDb v := fun e => hv (hne v e)
        simp only [State.setFu_dbs, State.setDb_dbs, file_get_set, this, if_false]
        exact h6 v fu hfu
    · intro n hn
      have : b ≠ effectDb := by
        rintro rfl
        simp [effectDb] at hb
      simp only [State.setFu_dbs, State.setDb_dbs, file_get_set, this, if_false]
      exact h8 n hn
  · rename_i hb
    have hb7 : b = effectDb := by
      apply Fin.ext
      simp only [effectDb, Fin.isValue]
      have := b.isLt
      show b.val = 7
      omega
    have hfu : ∀ v : FuNum, ∀ fu ∈ s.fus[v], FuOk fu (s.dbs.set b (some db))[filterDb v] := by
      intro v fu hfu
      have : b ≠ filterDb v := by
        rw [hb7]
        exact (filterDb_ne_effectDb v).symm
      rw [file_get_set, if_neg this]
      exact h6 v fu hfu
    split
    · refine ⟨h1, h2, h3, ⟨hdbs, h5, hfu⟩, h7, ?_, ?_, ?_⟩
      · intro n hn
        cases hn
      · intro m hm
        simp [kindMods] at hm
      · exact ⟨h10.1, h10.2.1, fun hk => by cases hk⟩
    · rename_i hk
      refine ⟨h1, h2, h3, ⟨hdbs, h5, hfu⟩, h7, ?_, h9, h10⟩
      intro n hn
      simp only [State.setDb_unit, kindTaps] at hn hk
      cases hkind : s.unit.kind <;> rw [hkind] at hn hk <;> simp [Kind.ownsEffectDb] at hk hn

theorem execDbAlloc_ends {b : DbNum} {nt : TapCount} (h : execDbAlloc b nt s = .next t) :
    Ends (.dbAlloc b nt) s t :=
  .ofBody (i := .dbAlloc b nt) h
    (fun c h => by
      simp only [bind_error_iff, require_error_iff] at h
      obtain h | ⟨_, _, ⟨_, h⟩ | ⟨_, _, h | ⟨_, _, h⟩⟩⟩ := h
      · simp [Instr.ownCauses, operand_error h]
      · simp [Instr.ownCauses, h.symm]
      · simp [Instr.ownCauses, allocDelays_error h]
      · cases h)
    fun h => by
      simp only [bind_ok_iff, require_ok_iff, decide_eq_true_eq, exists_const, Except.ok.injEq] at h
      obtain ⟨q, hq, hl, ds, hds, rfl⟩ := h
      have hq1 : 1 ≤ q := by simpa using (operand_ok_iff.mp hq).2
      obtain ⟨hlen, hle⟩ := allocDelays_ok hds
      have h1 : 1 ≤ floorInt q := le_floorInt_iff.mpr (by exact_mod_cast hq1)
      refine .ofConfig ((setDb_configStep s b _).trans (disown_configStep _ b)) rfl (fun hi => ?_)
      refine disown_inv hi (Db.alloc_ok (by omega) hl ?_ hle)
      rw [hlen, List.length_take]
      simp only [List.length_cons, List.length_nil]
      omega

theorem execDbWr_ends {b : DbNum} {src : Src} (h : execDbWr b src s = .next t) : Ends (.dbWr b src) s t :=
  .ofBody (i := .dbWr b src) h
    (fun c h => by
      rw [bind_error_iff] at h
      obtain h | ⟨_, _, h⟩ := h
      · simp [Instr.ownCauses, (buffer_error_iff.mp h).2]
      · cases h)
    fun h => by
      rw [bind_ok_iff] at h
      obtain ⟨db, hdb, h⟩ := h
      have hin := input_dataStep s src
      have hdb' : (s.input src).1.dbs[b] = some db := by
        have := buffer_ok_iff.mp hdb
        unfold State.input State.dinAt State.draw
        split
        · split <;> exact this
        · exact this
      cases h
      have hset := setDb_dataStep (db' := db.write (s.input src).2) hdb' (Db.write_shape db _)
        fun hok => Db.write_ok hok _
      have hd := hin.trans hset
      exact .ofData hd rfl (fun _ => ⟨hd.r, hd.dout⟩) (fun _ => hd.warm) (fun _ _ => hd.exh)

theorem execDbRd_ends {b : DbNum} {k : TapNum} (h : execDbRd b k s = .next t) : Ends (.dbRd b k) s t :=
  .ofBody (i := .dbRd b k) h
    (fun c h => by
      simp only [bind_error_iff] at h
      obtain h | ⟨_, _, h | ⟨_, _, h⟩⟩ := h
      · simp [Instr.ownCauses, (buffer_error_iff.mp h).2]
      · simp [Instr.ownCauses, (tap_error_iff.mp h).2]
      · split at h <;> cases h)
    fun h => by
      simp only [bind_ok_iff] at h
      obtain ⟨db, _, tap, _, h⟩ := h
      split at h <;> cases h
      all_goals
        exact .ofData (.refl s) rfl (fun h => by cases h) (fun h => absurd rfl (h b k)) (fun _ _ => rfl)

theorem execDbAdv_ends {b : DbNum} (h : execDbAdv b s = .next t) : Ends (.dbAdv b) s t :=
  .ofBody (i := .dbAdv b) h
    (fun c h => by
      rw [bind_error_iff] at h
      obtain h | ⟨_, _, h⟩ := h
      · simp [Instr.ownCauses, (buffer_error_iff.mp h).2]
      · cases h)
    fun h => by
      rw [bind_ok_iff] at h
      obtain ⟨db, hdb, h⟩ := h
      cases h
      have hd := setDb_dataStep (db' := db.advance) (buffer_ok_iff.mp hdb) (Db.advance_shape db) Db.advance_ok
      exact .ofData hd rfl (fun _ => ⟨hd.r, hd.dout⟩) (fun _ => hd.warm) (fun _ _ => hd.exh)

/-- The commands that read one position of one buffer into `R`. -/
theorem readAt_error {b : DbNum} {f : Db → Rat → State} {v : Num} {c : Cause}
    (h : (do let db ← s.buffer b; let a ← anyNumber v; .ok (f db a) : Except Cause State) = .error c) :
    c = .notReady ∨ c = .badOperand := by
  simp only [bind_error_iff] at h
  obtain h | ⟨_, _, h | ⟨_, _, h⟩⟩ := h
  · exact .inl (buffer_error_iff.mp h).2
  · exact .inr (anyNumber_error h)
  · cases h

theorem readAt_ok {b : DbNum} {f : Db → Rat → State} {v : Num}
    (h : (do let db ← s.buffer b; let a ← anyNumber v; .ok (f db a) : Except Cause State) = .ok t) :
    ∃ db a, s.dbs[b] = some db ∧ v = .val a ∧ t = f db a := by
  simp only [bind_ok_iff, Except.ok.injEq] at h
  obtain ⟨db, h1, a, h2, h3⟩ := h
  exact ⟨db, a, buffer_ok_iff.mp h1, anyNumber_ok_iff.mp h2, h3.symm⟩

theorem execDbPeek_ends {b : DbNum} (h : execDbPeek b s = .next t) : Ends (.dbPeek b) s t :=
  .ofBody (i := .dbPeek b) h
    (fun c h => by rcases readAt_error h with rfl | rfl <;> simp [Instr.ownCauses])
    fun h => by
      obtain ⟨db, a, _, _, rfl⟩ := readAt_ok h
      exact .ofOut (.refl s) rfl

theorem execDbMpos_ends {b : DbNum} {k : TapNum} (h : execDbMpos b k s = .next t) : Ends (.dbMpos b k) s t :=
  .ofBody (i := .dbMpos b k) h
    (fun c h => by
      simp only [bind_error_iff] at h
      obtain h | ⟨_, _, h | ⟨_, _, h | ⟨_, _, h⟩⟩⟩ := h
      · simp [Instr.ownCauses, (buffer_error_iff.mp h).2]
      · simp [Instr.ownCauses, (tap_error_iff.mp h).2]
      · simp [Instr.ownCauses, anyNumber_error h]
      · cases h)
    fun h => by
      simp only [bind_ok_iff, Except.ok.injEq] at h
      obtain ⟨db, _, tap, _, q, _, rfl⟩ := h
      exact .ofOut (.refl s) rfl

/-! #### Interpolator and modulators -/

theorem execIpCfg_ends (h : execIpCfg s = .next t) : Ends .ipCfg s t :=
  .ofBody h (fun _ h => by cases h) fun h => by
    cases h
    refine .ofConfig ⟨rfl, fun hd => by simp [hd]⟩ rfl (fun hi => ?_)
    obtain ⟨h1, h2, h3, h4, h5⟩ := hi
    have hip := ipOf_ok (h1.2.2.2.2.2.2.2.2.2.2.2.2.2.2.2.2) s.p[0] s.p[1] s.p[2]
    exact ⟨h1, ⟨h2.1, hip.1, hip.2, h2.2.2.2⟩, h3, poolOk_congr rfl rfl rfl rfl h4, h5⟩

theorem execIpLin_ends {b : DbNum} (h : execIpLin b s = .next t) : Ends (.ipLin b) s t :=
  .ofBody (i := .ipLin b) h
    (fun c h => by rcases readAt_error h with rfl | rfl <;> simp [Instr.ownCauses])
    fun h => by
      obtain ⟨db, a, _, _, rfl⟩ := readAt_ok h
      exact .ofOut (.refl s) rfl

theorem execIpBl_ends {b : DbNum} (h : execIpBl b s = .next t) : Ends (.ipBl b) s t :=
  .ofBody (i := .ipBl b) h
    (fun c h => by rcases readAt_error h with rfl | rfl <;> simp [Instr.ownCauses])
    fun h => by
      obtain ⟨db, a, _, _, rfl⟩ := readAt_ok h
      exact .ofOut (.refl s) rfl

theorem execIpRd_ends {b : DbNum} (h : execIpRd b s = .next t) : Ends (.ipRd b) s t :=
  .ofBody (i := .ipRd b) h
    (fun c h => by rcases readAt_error h with rfl | rfl <;> simp [Instr.ownCauses])
    fun h => by
      obtain ⟨db, a, _, _, rfl⟩ := readAt_ok h
      exact .ofOut (.refl s) rfl

theorem modcfg_inv {m : ModNum} {sh fr dp : Num} (h : modcfg m sh fr dp s = .ok t) (hi : StateOk s) : StateOk t := by
  obtain ⟨h1, h2, h3, h4, h5, h6, h7, h8⟩ := hi
  have hs := modcfg_configStep h
  obtain ⟨k1, k2, k3, k4, k5, k6⟩ := modcfg_keeps h
  refine ⟨?_, ?_, ?_, modcfg_poolOk h h1 h4, ?_, ?_, ?_, ?_⟩
  · unfold ParamsOk; rw [hs.params]; exact h1
  · unfold ContextOk; rw [hs.srate, k3, k4]; exact h2
  · unfold FaultOk; rw [hs.fault, hs.cause, hs.fcmd]; exact h3
  · rw [k5]; exact h5
  · rw [k5, k1]; exact h6
  · rw [k5]; exact fun j hj => k6 j (.inr (h7 j hj))
  · rw [k5]; exact h8

theorem execModCfg_ends {m : ModNum} (h : execModCfg m s = .next t) : Ends (.modCfg m) s t :=
  .ofBody (i := .modCfg m) h
    (fun c h => by rcases modcfg_error h with rfl | rfl | rfl <;> simp [Instr.ownCauses])
    fun h => .ofConfig (modcfg_configStep h) rfl (modcfg_inv h)

theorem execModNext_ends {m : ModNum} (h : execModNext m s = .next t) : Ends (.modNext m) s t :=
  .ofBody (i := .modNext m) h
    (fun c h => by
      simp only [bind_error_iff, Prod.exists] at h
      obtain h | ⟨_, _, _, h⟩ := h
      · simp [Instr.ownCauses, modnext_error h]
      · cases h)
    fun h => by
      simp only [bind_ok_iff, Prod.exists, Except.ok.injEq] at h
      obtain ⟨u, c, hm, rfl⟩ := h
      exact .ofOut (modnext_dataStep hm) rfl

/-! #### Filters and engines -/

theorem fucfg_inv {u : FuNum} {ty : FuType} {ms pct1 pct2 : Num} (h : fucfg u ty ms pct1 pct2 s = .ok t)
    (hi : StateOk s) : StateOk t := by
  obtain ⟨h1, h2, h3, h4, h5, h6, h7, h8⟩ := hi
  have hs := fucfg_configStep h
  obtain ⟨k1, k2, k3, k4, k5⟩ := fucfg_keeps h
  refine ⟨?_, ?_, ?_, fucfg_poolOk h h1 h4, ?_, ?_, ?_, ?_⟩
  · unfold ParamsOk; rw [hs.params]; exact h1
  · unfold ContextOk; rw [hs.srate, k3, k4]; exact h2
  · unfold FaultOk; rw [hs.fault, hs.cause, hs.fcmd]; exact h3
  · rw [k5]; exact h5
  · rw [k5, k1]; exact h6
  · rw [k5, k2]; exact h7
  · rw [k5]; exact h8

theorem execApCfg_ends {u : FuNum} (h : execApCfg u s = .next t) : Ends (.apCfg u) s t :=
  .ofBody (i := .apCfg u) h
    (fun c h => by rcases fucfg_error h with rfl | rfl <;> simp [Instr.ownCauses])
    fun h => .ofConfig (fucfg_configStep h) rfl (fucfg_inv h)

theorem execCbCfg_ends {u : FuNum} (h : execCbCfg u s = .next t) : Ends (.cbCfg u) s t :=
  .ofBody (i := .cbCfg u) h
    (fun c h => by rcases fucfg_error h with rfl | rfl <;> simp [Instr.ownCauses])
    fun h => .ofConfig (fucfg_configStep h) rfl (fucfg_inv h)

theorem execLpcCfg_ends {u : FuNum} (h : execLpcCfg u s = .next t) : Ends (.lpcCfg u) s t :=
  .ofBody (i := .lpcCfg u) h
    (fun c h => by rcases fucfg_error h with rfl | rfl <;> simp [Instr.ownCauses])
    fun h => .ofConfig (fucfg_configStep h) rfl (fucfg_inv h)

theorem tickOfType_error {ty : FuType} {u : FuNum} {src : Src} {c : Cause} (h : tickOfType ty u src s = .error c) :
    c = .notReady := by
  simp only [tickOfType, bind_error_iff, require_error_iff, Prod.exists] at h
  obtain h | ⟨_, _, ⟨_, h⟩ | ⟨_, _, h | ⟨_, _, _, h⟩⟩⟩ := h
  · exact (filter_error_iff.mp h).2
  · exact h.symm
  · exact futick_error h
  · cases h

theorem tickOfType_ok {ty : FuType} {u : FuNum} {src : Src} (h : tickOfType ty u src s = .ok t) :
    ∃ w y, DataStep s w ∧ t = w.out y := by
  simp only [tickOfType, bind_ok_iff, Prod.exists, Except.ok.injEq] at h
  obtain ⟨_, _, _, _, w, y, hf, rfl⟩ := h
  exact ⟨w, y, (input_dataStep s src).trans (futick_dataStep hf), rfl⟩

theorem execApTick_ends {u : FuNum} {src : Src} (h : execApTick u src s = .next t) : Ends (.apTick u src) s t :=
  .ofBody (i := .apTick u src) h (fun c h => by simp [Instr.ownCauses, tickOfType_error h]) fun h => by
    obtain ⟨w, y, hd, rfl⟩ := tickOfType_ok h
    exact .ofOut hd rfl

theorem execCbTick_ends {u : FuNum} {src : Src} (h : execCbTick u src s = .next t) : Ends (.cbTick u src) s t :=
  .ofBody (i := .cbTick u src) h (fun c h => by simp [Instr.ownCauses, tickOfType_error h]) fun h => by
    obtain ⟨w, y, hd, rfl⟩ := tickOfType_ok h
    exact .ofOut hd rfl

theorem execLpcTick_ends {u : FuNum} {src : Src} (h : execLpcTick u src s = .next t) : Ends (.lpcTick u src) s t :=
  .ofBody (i := .lpcTick u src) h (fun c h => by simp [Instr.ownCauses, tickOfType_error h]) fun h => by
    obtain ⟨w, y, hd, rfl⟩ := tickOfType_ok h
    exact .ofOut hd rfl

theorem execSerTick_ends {a b : FuNum} {src : Src} (h : execSerTick a b src s = .next t) :
    Ends (.serTick a b src) s t :=
  .ofBody (i := .serTick a b src) h
    (fun c h => by
      simp only [ser, bind_error_iff, require_error_iff, Prod.exists] at h
      obtain ⟨_, h⟩ | ⟨_, _, h | ⟨_, _, _, h⟩⟩ := h
      · simp [Instr.ownCauses, h.symm]
      · simp [Instr.ownCauses, serUnits_error h]
      · cases h)
    fun h => by
      simp only [ser, bind_ok_iff, Prod.exists, Except.ok.injEq] at h
      obtain ⟨_, _, w, y, hs, rfl⟩ := h
      exact .ofOut ((input_dataStep s src).trans (serUnits_dataStep hs)) rfl

theorem execParTick_ends {a b : FuNum} {src : Src} {c : Bool} (h : execParTick a b src c s = .next t) :
    Ends (.parTick a b src c) s t :=
  .ofBody (i := .parTick a b src c) h
    (fun c h => by
      simp only [par, bind_error_iff, require_error_iff, Prod.exists] at h
      obtain ⟨_, h⟩ | ⟨_, _, h | ⟨_, _, _, h⟩⟩ := h
      · simp [Instr.ownCauses, h.symm]
      · simp [Instr.ownCauses, parUnits_error h]
      · cases h)
    fun h => by
      simp only [par, bind_ok_iff, Prod.exists] at h
      obtain ⟨_, _, w, y, hs, h⟩ := h
      have hd := (input_dataStep s src).trans (parUnits_dataStep hs)
      cases c <;> cases h
      · exact .ofOut hd rfl
      · exact .ofOut (hd.trans (clampS_dataStep w y)) rfl

theorem execMixSet_ends (h : execMixSet s = .next t) : Ends .mixSet s t :=
  .ofBody h (fun _ h => by cases h) fun h => by
    cases h
    refine .ofConfig (mixcfg_configStep s s.p[0]) rfl (fun hi => ?_)
    obtain ⟨h1, h2, h3, h4, h5⟩ := hi
    exact ⟨h1, ⟨h2.1, h2.2.1, h2.2.2.1, mixcfg_ok s s.p[0]⟩, h3, poolOk_congr rfl rfl rfl rfl h4, h5⟩

theorem execMix_ends {k : PNum} {src : Src} (h : execMix k src s = .next t) : Ends (.mix k src) s t :=
  .ofBody (i := .mix k src) h (fun _ h => by cases h) fun h => by
    cases h
    exact .ofOut ((input_dataStep s src).trans (mix_dataStep _ _ _)) rfl

/-! #### The active unit -/

theorem clearPool_configStep (s : State) : ConfigStep s s.clearPool := ⟨rfl, id⟩

/-- A `CFG` command of a kind. -/
theorem configure_ends {i : Instr} {rule : State → Except Cause State} (hc : i.cls = .cfg)
    (h : s.configure rule = .next t) (he : ∀ u c, rule u = .error c → c ∈ i.ownCauses)
    (hr : ∀ u v, rule u = .ok v → Configured u v) : Ends i s t := by
  unfold State.configure at h
  rw [← hc] at h
  refine .ofBody h (fun c h => he _ c h) fun h => ?_
  have hk := hr _ _ h
  refine .ofConfig ((clearPool_configStep s).trans hk.step) hc (fun hi => ?_)
  obtain ⟨h1, h2, h3, h4, h5⟩ := hi
  obtain ⟨g1, g2, g3⟩ := hk.good h1 h2 (poolOk_clearPool s) rfl
  refine ⟨?_, g1, ?_, g2, g3⟩
  · unfold ParamsOk; rw [hk.step.params]; exact h1
  · unfold FaultOk; rw [hk.step.fault, hk.step.cause, hk.step.fcmd]; exact h3

theorem execTick_ends {src : Src} (h : execTick src s = .next t) : Ends (.tick src) s t :=
  .ofBody (i := .tick src) h
    (fun c h => by
      simp only [bind_error_iff, require_error_iff, Prod.exists] at h
      obtain ⟨_, h⟩ | ⟨_, _, h | ⟨_, _, _, h⟩⟩ := h
      · simp [Instr.ownCauses, h.symm]
      · simp [Instr.ownCauses, unitTick_error h]
      · cases h)
    fun h => by
      simp only [bind_ok_iff, Prod.exists, Except.ok.injEq] at h
      obtain ⟨_, _, w, y, hs, rfl⟩ := h
      have hd := (input_dataStep s src).trans (unitTick_dataStep hs)
      exact .ofData hd rfl (fun h => by cases h) (fun _ => hd.warm) (fun h => absurd rfl (h src))

theorem execBlock_ends {n : BitVec 16} (h : execBlock n s = .next t) : Ends (.block n) s t :=
  .ofBody (i := .block n) h
    (fun c h => by
      simp only [bind_error_iff, require_error_iff] at h
      obtain ⟨_, h⟩ | ⟨_, _, h | ⟨_, _, h⟩⟩ := h
      · simp [Instr.ownCauses, h.symm]
      · simp [Instr.ownCauses, blockLoop_error h]
      · cases h)
    fun h => by
      simp only [bind_ok_iff, Except.ok.injEq] at h
      obtain ⟨_, _, w, hs, rfl⟩ := h
      obtain ⟨u, ys, hd, rfl, _⟩ := blockLoop_dataStep hs
      exact .ofData hd rfl (fun h => by cases h) (fun _ => hd.warm) (fun _ h => absurd rfl (h n))

/-- Everything a command other than `RESET` can do (R286, R287, R288, R300). -/
theorem exec_ends {i : Instr} (hi : i ≠ .reset) (h : exec i s = .next t) : Ends i s t := by
  cases i with
  | nop => exact execNop_ends h
  | reset => exact absurd rfl hi
  | pld k => exact execPld_ends h
  | pmv k => exact execPmv_ends h
  | ctxSet => exact execCtxSet_ends h
  | start => exact execStart_ends h
  | stop => exact execStop_ends h
  | dbAlloc b nt => exact execDbAlloc_ends h
  | dbWr b src => exact execDbWr_ends h
  | dbRd b k => exact execDbRd_ends h
  | dbAdv b => exact execDbAdv_ends h
  | dbPeek b => exact execDbPeek_ends h
  | dbMpos b k => exact execDbMpos_ends h
  | ipCfg => exact execIpCfg_ends h
  | ipLin b => exact execIpLin_ends h
  | ipBl b => exact execIpBl_ends h
  | ipRd b => exact execIpRd_ends h
  | modCfg m => exact execModCfg_ends h
  | modNext m => exact execModNext_ends h
  | apCfg u => exact execApCfg_ends h
  | cbCfg u => exact execCbCfg_ends h
  | lpcCfg u => exact execLpcCfg_ends h
  | apTick u src => exact execApTick_ends h
  | cbTick u src => exact execCbTick_ends h
  | lpcTick u src => exact execLpcTick_ends h
  | serTick a b src => exact execSerTick_ends h
  | parTick a b src c => exact execParTick_ends h
  | mixSet => exact execMixSet_ends h
  | mix k src => exact execMix_ends h
  | cfgSd => exact configure_ends rfl h (fun u c h => by
      rcases configSd_error h with rfl | rfl <;> simp [Instr.ownCauses]) fun _ _ => configSd_spec
  | cfgDd => exact configure_ends rfl h (fun u c h => by
      rcases configDd_error h with rfl | rfl <;> simp [Instr.ownCauses]) fun _ _ => configDd_spec
  | cfgFd => exact configure_ends rfl h (fun u c h => by
      rcases configFd_error h with rfl | rfl <;> simp [Instr.ownCauses]) fun _ _ => configFd_spec
  | cfgMc => exact configure_ends rfl h (fun u c h => by
      rcases configMc_error h with rfl | rfl | rfl <;> simp [Instr.ownCauses]) fun _ _ => configMc_spec
  | cfgFc => exact configure_ends rfl h (fun u c h => by
      rcases configFc_error h with rfl | rfl | rfl <;> simp [Instr.ownCauses]) fun _ _ => configFc_spec
  | cfgRv1 => exact configure_ends rfl h (fun u c h => by
      rcases configRv1_error h with rfl | rfl <;> simp [Instr.ownCauses]) fun _ _ => configRv1_spec
  | cfgRv2 => exact configure_ends rfl h (fun u c h => by
      rcases configRv2_error h with rfl | rfl <;> simp [Instr.ownCauses]) fun _ _ => configRv2_spec
  | cfgRv3 => exact configure_ends rfl h (fun u c h => by
      rcases configRv3_error h with rfl | rfl <;> simp [Instr.ownCauses]) fun _ _ => configRv3_spec
  | tick src => exact execTick_ends h
  | block n => exact execBlock_ends h

/-- Every command answers a next state: a fault is a state too (R284). -/
theorem exec_next (i : Instr) (s : State) : ∃ t, exec i s = .next t := by
  cases i <;>
    dsimp only [exec, execReset, execNop, execPld, execPmv, execCtxSet, execStart, execStop, execDbAlloc, execDbWr, execDbRd, execDbAdv, execDbPeek, execDbMpos, execIpCfg, execIpLin, execIpBl, execIpRd, execModCfg, execModNext, execApCfg, execCbCfg, execLpcCfg, execApTick, execCbTick, execLpcTick, execSerTick, execParTick, execMixSet, execMix, execCfgSd, execCfgDd, execCfgFd, execCfgMc, execCfgFc, execCfgRv1, execCfgRv2, execCfgRv3, execTick, execBlock, State.configure] <;>
    first | exact command_next s _ _ | exact ⟨_, rfl⟩

end Sys2Proof.Machine
end

