-- ==== Sys2Proof/Laws/Ready.lean ====
section
/-! SUPPORT. In a good state a unit that is there runs: a configured filter unit ticks, a ready range of filter units
ticks, the modulators and the taps the active unit needs are there, and one sample goes through it (R260). -/

namespace Sys2Proof.Machine

open Sys2Proof.Safety

variable {s t : State}

theorem mem_unitRange {a b u : FuNum} : u ∈ unitRange a b ↔ a ≤ u ∧ u ≤ b := by
  unfold unitRange
  simp only [List.mem_filter, decide_eq_true_eq]
  refine ⟨fun h => h.2, fun h => ⟨?_, h⟩⟩
  clear h
  revert u
  decide

theorem ready_iff {a b : FuNum} : s.ready a b = true ↔ ∀ u, a ≤ u → u ≤ b → s.fus[u].isSome = true := by
  simp only [State.ready, List.all_eq_true, mem_unitRange, and_imp]

/-- A filter unit's buffer has the taps its type reads (R161), so a sample goes through it. -/
theorem sample_ok {fu : Fu} {db : Db} (h : db.taps.map Tap.delay = fuDelays fu.type db.len) (x : Num) :
    ∃ r, fu.sample db x = .ok r := by
  have hl : db.taps.length = (fuDelays fu.type db.len).length := by rw [← h, List.length_map]
  unfold Fu.sample
  cases ht : fu.type
  · rw [ht] at hl
    simp [Db.tap, List.getElem?_eq_getElem (show 0 < db.taps.length by simp [hl, fuDelays])]
  · rw [ht] at hl
    simp [Db.tap, List.getElem?_eq_getElem (show 0 < db.taps.length by simp [hl, fuDelays])]
  · rw [ht] at hl
    simp [Db.tap, List.getElem?_eq_getElem (show 0 < db.taps.length by simp [hl, fuDelays]),
      List.getElem?_eq_getElem (show 1 < db.taps.length by simp [hl, fuDelays])]

/-- A configured filter unit of a good pool ticks. -/
theorem futick_ok {u : FuNum} (hp : PoolOk s) (hu : s.fus[u].isSome = true) (x : Num) : ∃ r, futick u x s = .ok r := by
  obtain ⟨fu, hf⟩ := Option.isSome_iff_exists.mp hu
  obtain ⟨-, -, db, hd, hdel⟩ := hp.2.2 u fu hf
  obtain ⟨r, hr⟩ := sample_ok hdel x
  simp only [futick, filter_ok_iff.mpr hf, buffer_ok_iff.mpr hd, hr, ok_bind]
  exact ⟨_, rfl⟩

/-- A data path keeps a good pool good. -/
theorem DataStep.poolOk (h : DataStep s t) (hi : StateOk s) : PoolOk t := (dataStep_inv h hi).2.2.2.1

/-- Units in series, all configured, run. -/
theorem serUnits_ok {us : List FuNum} (hi : StateOk s) (hu : ∀ u ∈ us, s.fus[u].isSome = true) (v : Num) :
    ∃ r, serUnits us v s = .ok r := by
  induction us generalizing s v with
  | nil => exact ⟨_, rfl⟩
  | cons u us ih =>
    obtain ⟨⟨t, y⟩, h⟩ := futick_ok hi.2.2.2.1 (hu u (by simp)) v
    have hd := futick_dataStep h
    obtain ⟨r, hr⟩ := ih (dataStep_inv hd hi) (fun w hw => by rw [hd.fus]; exact hu w (by simp [hw])) y
    exact ⟨r, by simp only [serUnits, h, ok_bind, hr]⟩

/-- Units in parallel, all configured, run. -/
theorem parUnits_ok {us : List FuNum} (hi : StateOk s) (hu : ∀ u ∈ us, s.fus[u].isSome = true) (x acc : Num) :
    ∃ r, parUnits x us acc s = .ok r := by
  induction us generalizing s acc with
  | nil => exact ⟨_, rfl⟩
  | cons u us ih =>
    obtain ⟨⟨t, y⟩, h⟩ := futick_ok hi.2.2.2.1 (hu u (by simp)) x
    have hd := futick_dataStep h
    obtain ⟨r, hr⟩ := ih (dataStep_inv hd hi) (fun w hw => by rw [hd.fus]; exact hu w (by simp [hw])) (acc.add y)
    exact ⟨r, by simp only [parUnits, h, ok_bind, hr]⟩

theorem ser_ok {a b : FuNum} (hi : StateOk s) (hr : s.ready a b = true) (x : Num) : ∃ r, ser a b x s = .ok r :=
  serUnits_ok hi (fun u hu => ready_iff.mp hr u (mem_unitRange.mp hu).1 (mem_unitRange.mp hu).2) x

theorem par_ok {a b : FuNum} (hi : StateOk s) (hr : s.ready a b = true) (x : Num) : ∃ r, par a b x s = .ok r :=
  parUnits_ok hi (fun u hu => ready_iff.mp hr u (mem_unitRange.mp hu).1 (mem_unitRange.mp hu).2) x .zero

/-- Part of a ready range is ready, and readiness is of the filter units alone. -/
theorem ready_mono {a b c d : FuNum} (hr : s.ready a b = true) (hf : t.fus = s.fus) (h1 : a ≤ c) (h2 : d ≤ b) :
    t.ready c d = true := by
  rw [ready_iff] at hr ⊢
  intro u hu1 hu2
  rw [hf]
  exact hr u (le_trans h1 hu1) (le_trans hu2 h2)

/-- A configured modulator of a good pool gives a coefficient. -/
theorem modnext_ok {m : ModNum} (hp : PoolOk s) (hm : s.mods[m].isSome = true) : ∃ r, modnext m s = .ok r := by
  obtain ⟨md, h⟩ := Option.isSome_iff_exists.mp hm
  obtain ⟨-, -, -, -, hidx, -⟩ := hp.2.1 m md h
  exact ⟨(_, md.tab[md.idx]), modnext_ok_iff.mpr ⟨md, h, List.getElem?_eq_getElem hidx, rfl⟩⟩

theorem modnext_isSome {m k : ModNum} {c : Rat} (h : modnext m s = .ok (t, c)) :
    t.mods[k].isSome = s.mods[k].isSome := by
  have := congrArg Option.isSome ((modnext_dataStep h).tables k)
  simpa only [Option.isSome_map] using this

theorem coefficients_ok {ms : List ModNum} (hi : StateOk s) (hm : ∀ m ∈ ms, s.mods[m].isSome = true) :
    ∃ r, coefficients ms s = .ok r ∧ r.2.length = ms.length := by
  induction ms generalizing s with
  | nil => exact ⟨_, rfl, rfl⟩
  | cons m ms ih =>
    obtain ⟨⟨t, c⟩, h⟩ := modnext_ok hi.2.2.2.1 (hm m (by simp))
    obtain ⟨⟨u, cs⟩, hr, hl⟩ := ih (dataStep_inv (modnext_dataStep h) hi)
      (fun k hk => by rw [modnext_isSome h]; exact hm k (by simp [hk]))
    exact ⟨(u, c :: cs), by simp only [coefficients, h, ok_bind, hr], by simpa using hl⟩

theorem tap_ok {db : Db} {k : Nat} (h : k < db.taps.length) : db.tap k = .ok db.taps[k] :=
  tap_ok_iff.mpr (List.getElem?_eq_getElem h)

theorem coefficientOf_ok {cs : List Rat} (h : 0 < cs.length) (k : Nat) : ∃ c, coefficientOf cs k = .ok c := by
  unfold coefficientOf
  rw [List.getElem?_eq_getElem (Nat.mod_lt k h)]
  exact ⟨_, rfl⟩

theorem sumTaps_ok {db : Db} {ip : Ip} {cs : List Rat} {ks : List Nat} (hc : 0 < cs.length)
    (hk : ∀ k ∈ ks, k < db.taps.length) (acc : Num) : ∃ r, sumTaps db ip cs ks acc = .ok r := by
  induction ks generalizing acc with
  | nil => exact ⟨_, rfl⟩
  | cons k ks ih =>
    obtain ⟨c, h⟩ := coefficientOf_ok hc k
    obtain ⟨r, hr⟩ := ih (fun j hj => hk j (by simp [hj]))
      (acc.add (db.mread ip (db.taps[k]'(hk k (by simp))) c))
    exact ⟨r, by simp only [sumTaps, tap_ok (hk k (by simp)), h, ok_bind, hr]⟩

/-- The buffer and the taps of a unit that owns `DB[7]` (R38). -/
theorem effect_ok {n : Nat} (hi : StateOk s) (hk : kindTaps s.unit = some n) :
    ∃ db, s.dbs[effectDb] = some db ∧ db.taps.length = n := by
  obtain ⟨-, h, -, -⟩ := hi.2.2.2.2
  obtain ⟨db, hd, hl, -⟩ := h n hk
  exact ⟨db, hd, hl⟩

/-- One sample goes through a unit that is there (R260). -/
theorem unitTick_ok (hi : StateOk s) (hr : s.unitReady = true) (x : Num) : ∃ r, unitTick x s = .ok r := by
  unfold State.unitReady at hr
  have hmods := hi.2.2.2.2.2.2.1
  have hmc := hi.2.2.2.2.2.2.2
  cases hk : s.unit.kind <;> simp only [hk] at hr
  · cases hr
  · obtain ⟨db, hd, hl⟩ := effect_ok (n := 1) hi (by simp [kindTaps, hk])
    simp only [unitTick, hk, tickSd, buffer_ok_iff.mpr hd, ok_bind, tap_ok (show 0 < db.taps.length by omega)]
    exact ⟨_, rfl⟩
  · obtain ⟨db, hd, hl⟩ := effect_ok (n := 2) hi (by simp [kindTaps, hk])
    simp only [unitTick, hk, tickDd, buffer_ok_iff.mpr hd, ok_bind,
      tap_ok (show 0 < db.taps.length by omega), tap_ok (show 1 < db.taps.length by omega)]
    exact ⟨_, rfl⟩
  · obtain ⟨db, hd, hl⟩ := effect_ok (n := 1) hi (by simp [kindTaps, hk])
    simp only [unitTick, hk, tickFd, buffer_ok_iff.mpr hd, ok_bind, tap_ok (show 0 < db.taps.length by omega)]
    exact ⟨_, rfl⟩
  · obtain ⟨ht, hm3, hmin⟩ := hmc
    obtain ⟨-, hm1⟩ := hmin hk
    have hsome : ∀ m ∈ (([0, 1, 2] : List ModNum).take s.unit.nm), s.mods[m].isSome = true := by
      intro m hm
      refine hmods m ?_
      simp only [kindMods, hk]
      obtain ⟨i, hi', rfl⟩ := List.mem_take_iff_getElem.mp hm
      have : i < s.unit.nm := by simp at hi'; omega
      have h3 : i < 3 := by omega
      interval_cases i <;> exact this
    obtain ⟨⟨t, cs⟩, hc, hcl⟩ := coefficients_ok hi hsome
    have hst := coefficients_dataStep hc
    obtain ⟨db, hd, hl⟩ := effect_ok (n := s.unit.nt) (dataStep_inv hst hi) (by simp [kindTaps, hst.unit, hk])
    have hcs : 0 < cs.length := by
      simp only [List.length_take, List.length_cons, List.length_nil] at hcl
      omega
    obtain ⟨acc, ha⟩ := sumTaps_ok (ip := t.ip) (db := db) (ks := List.range s.unit.nt) hcs
      (fun k hk => by rw [hl]; exact List.mem_range.mp hk) .zero
    simp only [unitTick, hk, tickMc, hc, ok_bind, buffer_ok_iff.mpr hd, ha]
    exact ⟨_, rfl⟩
  · obtain ⟨⟨t, c⟩, hc⟩ := modnext_ok hi.2.2.2.1 (hmods 0 (by simp [kindMods, hk]))
    have hst := modnext_dataStep hc
    obtain ⟨db, hd, hl⟩ := effect_ok (n := 1) (dataStep_inv hst hi) (by simp [kindTaps, hst.unit, hk])
    simp only [unitTick, hk, tickFc, hc, ok_bind, buffer_ok_iff.mpr hd, tap_ok (show 0 < db.taps.length by omega)]
    exact ⟨_, rfl⟩
  · obtain ⟨⟨t, y⟩, h⟩ := ser_ok hi hr x
    simp only [unitTick, hk, tickRv1, h, ok_bind]
    exact ⟨_, rfl⟩
  · obtain ⟨⟨t, y⟩, h⟩ := par_ok (a := 0) (b := 3) hi (ready_mono hr rfl (le_refl 0) (by decide)) x
    have hst : DataStep s t := parUnits_dataStep h
    obtain ⟨⟨u, z⟩, h2⟩ := ser_ok (a := 4) (b := 5) (dataStep_inv hst hi)
      (ready_mono hr hst.fus (by decide) (le_refl 5)) y
    simp only [unitTick, hk, tickRv2, h, ok_bind, h2]
    exact ⟨_, rfl⟩
  · obtain ⟨⟨t, y⟩, h⟩ := par_ok (a := 0) (b := 5) hi (ready_mono hr rfl (le_refl 0) (by decide)) x
    have hst : DataStep s (t.clampS y).1 := (parUnits_dataStep h).trans (clampS_dataStep _ _)
    obtain ⟨⟨u, z⟩, h2⟩ := futick_ok (hst.poolOk hi) (u := 6) (by rw [hst.fus]; exact ready_iff.mp hr 6 (by decide) (le_refl 6))
      (t.clampS y).2
    simp only [unitTick, hk, tickRv3, h, ok_bind, h2]
    exact ⟨_, rfl⟩

/-- A data path keeps the active unit ready. -/
theorem DataStep.unitReady (h : DataStep s t) : t.unitReady = s.unitReady := by
  unfold State.unitReady State.ready
  rw [h.unit, h.fus]

end Sys2Proof.Machine
end

