-- ==== Sys2Proof/Laws/Frames.lean ====
section
/-! SUPPORT. How a command in its mode runs, and that a data path reads neither `R`, the ports, `EXH` nor what `DOUT`
has presented: it does the same whatever they are. From these the engines and the units are put together out of the
commands of their parts (R221 to R223, R234, R261). -/

namespace Sys2Proof.Machine

open Sys2Proof.Safety

variable {s t : State}

/-- A data command in RUNNING runs its body. -/
theorem command_data (hf : s.fault = false) (hm : s.mode = .running) (body : State → Except Cause State) :
    s.command .data body = s.settle (body s) := command_legal hf (by rw [hm]; rfl)

/-- A configuration command in STOPPED runs its body. -/
theorem command_cfg (hf : s.fault = false) (hm : s.mode = .stopped) (body : State → Except Cause State) :
    s.command .cfg body = s.settle (body s) := command_legal hf (by rw [hm]; rfl)

/-- Taking the input sample touches no instance. -/
theorem input_keeps {src : Src} {x : Num} (h : s.input src = (t, x)) :
    DataStep s t ∧ t.dbs = s.dbs ∧ t.mods = s.mods := by
  have ht : t = (s.input src).1 := by rw [h]
  subst ht
  refine ⟨input_dataStep s src, ?_, ?_⟩ <;> unfold State.input State.dinAt State.draw <;> (split <;> try split) <;> rfl

/-! ### What a data path does not read -/

/-- The state with other outputs and other ports. -/
abbrev State.withOutputs (s : State) (r : Num) (dout : List Num) (port : Ports) (exh : Bool) : State :=
  { s with r := r, dout := dout, port := port, exh := exh }

theorem State.out_eq_withOutputs (s : State) (v : Num) : s.out v = s.withOutputs v (s.dout ++ [v]) s.port s.exh := rfl

theorem clampS_withOutputs {v y : Num} (h : s.clampS v = (t, y)) (r : Num) (dout : List Num) (port : Ports) (exh : Bool) :
    (s.withOutputs r dout port exh).clampS v = (t.withOutputs r dout port exh, y) := by
  cases v <;>
    (simp only [State.clampS, State.draw, Prod.mk.injEq] at h ⊢; obtain ⟨rfl, rfl⟩ := h; exact ⟨rfl, rfl⟩)

theorem mix_withOutputs {d w y : Num} (h : s.mix d w = (t, y)) (r : Num) (dout : List Num) (port : Ports) (exh : Bool) :
    (s.withOutputs r dout port exh).mix d w = (t.withOutputs r dout port exh, y) := clampS_withOutputs h r dout port exh

theorem futick_withOutputs {u : FuNum} {x y : Num} (h : futick u x s = .ok (t, y)) (r : Num) (dout : List Num)
    (port : Ports) (exh : Bool) :
    futick u x (s.withOutputs r dout port exh) = .ok (t.withOutputs r dout port exh, y) := by
  obtain ⟨fu, db, st, raw, h1, h2, h3, h4⟩ := futick_ok_iff.mp h
  refine futick_ok_iff.mpr ⟨fu, db, st, raw, h1, h2, h3, ?_⟩
  cases raw <;>
    (simp only [State.clampFilter, State.draw, Prod.mk.injEq] at h4 ⊢; obtain ⟨rfl, rfl⟩ := h4; exact ⟨rfl, rfl⟩)

theorem serUnits_withOutputs {us : List FuNum} {v y : Num} (h : serUnits us v s = .ok (t, y)) (r : Num)
    (dout : List Num) (port : Ports) (exh : Bool) :
    serUnits us v (s.withOutputs r dout port exh) = .ok (t.withOutputs r dout port exh, y) := by
  induction us generalizing s v with
  | nil => cases h; rfl
  | cons u us ih =>
    simp only [serUnits, bind_ok_iff, Prod.exists] at h
    obtain ⟨s1, v1, h1, h2⟩ := h
    simp only [serUnits, futick_withOutputs h1 r dout port exh, ok_bind, ih h2]

theorem parUnits_withOutputs {us : List FuNum} {x acc y : Num} (h : parUnits x us acc s = .ok (t, y)) (r : Num)
    (dout : List Num) (port : Ports) (exh : Bool) :
    parUnits x us acc (s.withOutputs r dout port exh) = .ok (t.withOutputs r dout port exh, y) := by
  induction us generalizing s acc with
  | nil => cases h; rfl
  | cons u us ih =>
    simp only [parUnits, bind_ok_iff, Prod.exists] at h
    obtain ⟨s1, v1, h1, h2⟩ := h
    simp only [parUnits, futick_withOutputs h1 r dout port exh, ok_bind, ih h2]

theorem modnext_withOutputs {m : ModNum} {c : Rat} (h : modnext m s = .ok (t, c)) (r : Num) (dout : List Num)
    (port : Ports) (exh : Bool) :
    modnext m (s.withOutputs r dout port exh) = .ok (t.withOutputs r dout port exh, c) := by
  obtain ⟨md, h1, h2, rfl⟩ := modnext_ok_iff.mp h
  exact modnext_ok_iff.mpr ⟨md, h1, h2, rfl⟩

theorem coefficients_withOutputs {ms : List ModNum} {cs : List Rat} (h : coefficients ms s = .ok (t, cs)) (r : Num)
    (dout : List Num) (port : Ports) (exh : Bool) :
    coefficients ms (s.withOutputs r dout port exh) = .ok (t.withOutputs r dout port exh, cs) := by
  induction ms generalizing s cs with
  | nil => cases h; rfl
  | cons m ms ih =>
    simp only [coefficients, bind_ok_iff, Prod.exists] at h
    obtain ⟨s1, c, h1, s2, cs', h2, h3⟩ := h
    cases h3
    simp only [coefficients, modnext_withOutputs h1 r dout port exh, ok_bind, ih h2]

/-- One sample through the active unit is the same whatever the outputs and the ports are. -/
theorem unitTick_withOutputs {x y : Num} (h : unitTick x s = .ok (t, y)) (r : Num) (dout : List Num) (port : Ports)
    (exh : Bool) : unitTick x (s.withOutputs r dout port exh) = .ok (t.withOutputs r dout port exh, y) := by
  cases hk : s.unit.kind
  · simp only [unitTick, hk] at h; cases h
  · simp only [unitTick, hk, tickSd, bind_ok_iff, Except.ok.injEq] at h ⊢
    obtain ⟨db, h1, tap, h2, h3⟩ := h
    exact ⟨db, h1, tap, h2, clampS_withOutputs h3 r dout port exh⟩
  · simp only [unitTick, hk, tickDd, bind_ok_iff, Except.ok.injEq] at h ⊢
    obtain ⟨db, h1, tap, h2, tap', h4, h3⟩ := h
    exact ⟨db, h1, tap, h2, tap', h4, clampS_withOutputs h3 r dout port exh⟩
  · simp only [unitTick, hk, tickFd, bind_ok_iff, Except.ok.injEq] at h ⊢
    obtain ⟨db, h1, tap, h2, h3⟩ := h
    exact ⟨db, h1, tap, h2, clampS_withOutputs h3 r dout port exh⟩
  · simp only [unitTick, hk, tickMc, bind_ok_iff, Except.ok.injEq, Prod.exists] at h ⊢
    obtain ⟨u, cs, h1, db, h2, acc, h4, h3⟩ := h
    exact ⟨_, cs, coefficients_withOutputs h1 r dout port exh, db, h2, acc, h4, clampS_withOutputs h3 r dout port exh⟩
  · simp only [unitTick, hk, tickFc, bind_ok_iff, Except.ok.injEq, Prod.exists] at h ⊢
    obtain ⟨u, c, h1, db, h2, tap, h4, h3⟩ := h
    exact ⟨_, c, modnext_withOutputs h1 r dout port exh, db, h2, tap, h4, clampS_withOutputs h3 r dout port exh⟩
  · simp only [unitTick, hk, tickRv1, ser, bind_ok_iff, Except.ok.injEq, Prod.exists] at h ⊢
    obtain ⟨u, w, h1, h3⟩ := h
    exact ⟨_, w, serUnits_withOutputs h1 r dout port exh, mix_withOutputs h3 r dout port exh⟩
  · simp only [unitTick, hk, tickRv2, ser, par, bind_ok_iff, Except.ok.injEq, Prod.exists] at h ⊢
    obtain ⟨u, v, h0, u', w, h1, h3⟩ := h
    exact ⟨_, v, parUnits_withOutputs h0 r dout port exh, _, w, serUnits_withOutputs h1 r dout port exh,
      mix_withOutputs h3 r dout port exh⟩
  · simp only [unitTick, hk, tickRv3, par, bind_ok_iff, Except.ok.injEq, Prod.exists] at h ⊢
    obtain ⟨u, v, h0, u', w, h1, h3⟩ := h
    have hc := clampS_withOutputs (t := (u.clampS v).1) (y := (u.clampS v).2) rfl r dout port exh
    refine ⟨_, v, parUnits_withOutputs h0 r dout port exh, u'.withOutputs r dout port exh, w, ?_,
      mix_withOutputs h3 r dout port exh⟩
    rw [hc]
    exact futick_withOutputs h1 r dout port exh

/-! ### Commands over a ready unit -/

/-- Presenting a value keeps a good state good. -/
theorem out_good {v : Num} (h : StateOk s) : StateOk (s.out v) :=
  inv_congr h rfl rfl rfl rfl rfl rfl rfl rfl rfl rfl rfl

/-- `TICK` on a ready unit (R260). -/
theorem execTick_of_unitTick {s' : State} {src : Src} {x y : Num} (hf : s.fault = false) (hm : s.mode = .running)
    (hr : s.unitReady = true) (hin : s.input src = (s', x)) (hu : unitTick x s' = .ok (t, y)) :
    execTick src s = .next (t.out y).latchExh := by
  simp only [execTick, command_data hf hm, hr, require_true, ok_bind, hin, hu, settle_ok]

/-- The loop of `BLOCK` runs on a ready unit (R261). -/
theorem blockLoop_ok {n i : Nat} (hs : StateOk s) (hr : s.unitReady = true) : ∃ t, blockLoop n i s = .ok t := by
  induction n generalizing s i with
  | zero => exact ⟨s, rfl⟩
  | succ n ih =>
    have d0 := dinAt_dataStep s i
    have hs1 := dataStep_inv d0 hs
    have hr1 := d0.unitReady.trans hr
    obtain ⟨⟨t, y⟩, h⟩ := unitTick_ok hs1 hr1 (s.dinAt i).2
    have d1 := unitTick_dataStep h
    obtain ⟨u, hu⟩ := ih (i := i + 1) (out_good (v := y) (dataStep_inv d1 hs1)) (d1.unitReady.trans hr1)
    exact ⟨u, by simp only [blockLoop, h, ok_bind, hu]⟩

end Sys2Proof.Machine
end

