-- ==== Sys2Proof/Laws/PerInstr.lean ====
section
/-! SUPPORT. One statement made of every command: the word of the command carries the command's opcode, as the
opcode map numbers it (R85). -/

namespace Sys2Proof.Laws.OpcodeOf

/-- The opcode column of R85. -/
def opcode : Instr → BitVec 8
  | .nop => 0x00
  | .reset => 0x01
  | .pld _ => 0x02
  | .pmv _ => 0x03
  | .ctxSet => 0x04
  | .start => 0x05
  | .stop => 0x06
  | .dbAlloc _ _ => 0x10
  | .dbWr _ _ => 0x11
  | .dbRd _ _ => 0x12
  | .dbAdv _ => 0x13
  | .dbPeek _ => 0x14
  | .dbMpos _ _ => 0x15
  | .ipCfg => 0x20
  | .ipLin _ => 0x21
  | .ipBl _ => 0x22
  | .ipRd _ => 0x23
  | .modCfg _ => 0x30
  | .modNext _ => 0x31
  | .apCfg _ => 0x40
  | .cbCfg _ => 0x41
  | .lpcCfg _ => 0x42
  | .apTick _ _ => 0x44
  | .cbTick _ _ => 0x45
  | .lpcTick _ _ => 0x46
  | .serTick _ _ _ => 0x50
  | .parTick _ _ _ _ => 0x51
  | .mixSet => 0x52
  | .mix _ _ => 0x53
  | .cfgSd => 0x60
  | .cfgDd => 0x60
  | .cfgFd => 0x60
  | .cfgMc => 0x60
  | .cfgFc => 0x60
  | .cfgRv1 => 0x60
  | .cfgRv2 => 0x60
  | .cfgRv3 => 0x60
  | .tick _ => 0x61
  | .block _ => 0x62

def Statement (i : Instr) : Prop := opcField (encode i) = opcode i

theorem nop : Statement .nop := opcField_wordOf ..
theorem reset : Statement .reset := opcField_wordOf ..
theorem pld (k : PNum) : Statement (.pld k) := opcField_wordOfK ..
theorem pmv (k : PNum) : Statement (.pmv k) := opcField_wordOfK ..
theorem ctxSet : Statement .ctxSet := opcField_wordOf ..
theorem start : Statement .start := opcField_wordOf ..
theorem stop : Statement .stop := opcField_wordOf ..
theorem dbAlloc (b : DbNum) (nt : TapCount) : Statement (.dbAlloc b nt) := opcField_wordOf ..
theorem dbWr (b : DbNum) (src : Src) : Statement (.dbWr b src) := opcField_wordOf ..
theorem dbRd (b : DbNum) (t : TapNum) : Statement (.dbRd b t) := opcField_wordOf ..
theorem dbAdv (b : DbNum) : Statement (.dbAdv b) := opcField_wordOf ..
theorem dbPeek (b : DbNum) : Statement (.dbPeek b) := opcField_wordOf ..
theorem dbMpos (b : DbNum) (t : TapNum) : Statement (.dbMpos b t) := opcField_wordOf ..
theorem ipCfg : Statement .ipCfg := opcField_wordOf ..
theorem ipLin (b : DbNum) : Statement (.ipLin b) := opcField_wordOf ..
theorem ipBl (b : DbNum) : Statement (.ipBl b) := opcField_wordOf ..
theorem ipRd (b : DbNum) : Statement (.ipRd b) := opcField_wordOf ..
theorem modCfg (m : ModNum) : Statement (.modCfg m) := opcField_wordOf ..
theorem modNext (m : ModNum) : Statement (.modNext m) := opcField_wordOf ..
theorem apCfg (u : FuNum) : Statement (.apCfg u) := opcField_wordOf ..
theorem cbCfg (u : FuNum) : Statement (.cbCfg u) := opcField_wordOf ..
theorem lpcCfg (u : FuNum) : Statement (.lpcCfg u) := opcField_wordOf ..
theorem apTick (u : FuNum) (src : Src) : Statement (.apTick u src) := opcField_wordOf ..
theorem cbTick (u : FuNum) (src : Src) : Statement (.cbTick u src) := opcField_wordOf ..
theorem lpcTick (u : FuNum) (src : Src) : Statement (.lpcTick u src) := opcField_wordOf ..
theorem serTick (a : FuNum) (b : FuNum) (src : Src) : Statement (.serTick a b src) := opcField_wordOf ..
theorem parTick (a : FuNum) (b : FuNum) (src : Src) (clamp : Bool) : Statement (.parTick a b src clamp) := opcField_wordOf ..
theorem mixSet : Statement .mixSet := opcField_wordOf ..
theorem mix (k : PNum) (src : Src) : Statement (.mix k src) := opcField_wordOfK ..
theorem cfgSd : Statement .cfgSd := opcField_wordOf ..
theorem cfgDd : Statement .cfgDd := opcField_wordOf ..
theorem cfgFd : Statement .cfgFd := opcField_wordOf ..
theorem cfgMc : Statement .cfgMc := opcField_wordOf ..
theorem cfgFc : Statement .cfgFc := opcField_wordOf ..
theorem cfgRv1 : Statement .cfgRv1 := opcField_wordOf ..
theorem cfgRv2 : Statement .cfgRv2 := opcField_wordOf ..
theorem cfgRv3 : Statement .cfgRv3 := opcField_wordOf ..
theorem tick (src : Src) : Statement (.tick src) := opcField_wordOf ..
theorem block (n : BitVec 16) : Statement (.block n) := opcField_wordOf ..

end Sys2Proof.Laws.OpcodeOf
end

