-- ==== Sys2Proof/Tests/Slice0.lean ====
section
/-! SUPPORT. Tests. Expected values are the spec's: the words and the vectors of spec/95_test_vectors.md (named at each
test), or hand calculation from a rule. Then, for every statement with hypotheses, a state that meets them. -/

namespace Sys2Proof.Tests

open Sys2Proof.Machine Sys2Proof.Claims

-- One evaluation at a time: each takes a thread with a large stack.
set_option Elab.async false

/-! ### Small states -/

def dflMod : ModDefault := { shape := .sine, freq := 1, depth := 0 }

/-- A record of defaults, each in its range; the wet default of V-SD4. -/
def dfl : Defaults :=
  { sdDry := 0, sdWet := 1 / 4, sdDelay := 0, ddDry := 0, ddWet1 := 0, ddWet2 := 0, ddDelay1 := 0, ddDelay2 := 0
    fdGain := 0, fdDecay := 0, fdDelay := 0, fcGain := 0, fcDecay := 0, fcDelay := 0, mcDry := 0, mcWet := 0
    mcDelay := #v[0, 0, 0]
    mcCfg := { dry := 0, wet := 0, taps := 1, delays := #v[0, 0, 0], mods := 1, mod0 := dflMod, mod1 := dflMod
               mod2 := dflMod, policy := .linear, stdf := 1, newf := 1 }
    fuDelay := 0, fuDecay := 0, fuDecay2 := 0, shape := .sine, freq := 1, depth := 0, policy := .linear
    stdf := 1, newf := 1 }

/-- The configuration the vectors assume (95_test_vectors.md §0, §2.7: maximum delays of 7 ms). -/
def prm : Params :=
  { lmax := 100000, nmax := 100000, maxSd := 7, maxDd := 7, maxFd := 7, maxMc := 7, maxFc := 7, maxFu := 1000
    margin := 1, defs := dfl, clamp := .reference, saw := .reference, tri := .reference }

/-- STOPPED, `SRATE` 1000. -/
def stopped : State := { State.reset with params := prm, srate := 1000 }

/-- RUNNING, `SRATE` 1000. -/
def running : State := { stopped with mode := .running }

/-- Parameter registers from 0 up. -/
def withP (s : State) (vs : List Num) : State := { s with p := Vector.ofFn fun k => vs.getD k .zero }

def nums (qs : List Rat) : List Num := qs.map .val

/-- A value offered on `DIN`. -/
def offering (s : State) (q : Rat) : State := { s with port := { s.port with din := [.val q] } }

/-- The buffer V-DB1 ends with. -/
def dbV : Db := { len := 4, mem := [(0, .val (1 / 32)), (1, .val (1 / 64)), (2, .val (1 / 8)), (3, .val (1 / 16))]
                  wp := 2, taps := [⟨2, 0⟩] }

/-- The buffer of V-IP1. -/
def dbI : Db := { len := 4, mem := [(1, .val 1), (2, .val (1 / 2)), (3, .val (1 / 4))], wp := 0, taps := [] }

def withDb (s : State) (b : DbNum) (db : Db) : State := { s with dbs := s.dbs.set b (some db) }

/-- A modulator of constant coefficient 1 (square, depth 0). -/
def one : Modulator := { shape := .square, freq := 10, depth := 0, tab := [1, 1], idx := 1 }

/-- The modulator of V-MOD3, `idx` at its last entry. -/
def modV : Modulator :=
  { shape := .square, freq := 10, depth := 1 / 4, tab := [3 / 4, 3 / 4, 5 / 4, 5 / 4], idx := 3 }

/-- A fresh filter unit, delay 1 sample, decay 50 %. -/
def withFu (s : State) (u : FuNum) (ty : FuType) : State :=
  { withDb s (filterDb u) (Db.alloc 2 (Safety.fuDelays ty 2)) with
    fus := s.fus.set u (some { type := ty, g1 := 1 / 2, g2 := if ty = .lpc then 1 / 2 else 0 }) }

/-- An active unit over a fresh effect buffer of 8 cells. -/
def withUnit (s : State) (u : ActiveUnit) (delays : List Nat) : State :=
  { withDb s effectDb (Db.alloc 8 delays) with unit := u }

def sdOn : State := withUnit running { ActiveUnit.idle with kind := .sd, dry := 1, wet1 := 1 / 2 } [3]
def ddOn : State := withUnit running { ActiveUnit.idle with kind := .dd, dry := 1, wet1 := 1 / 2, wet2 := 1 / 4 } [1, 2]
def fdOn : State := withUnit running { ActiveUnit.idle with kind := .fd, gain := 1 / 2, g := 1 / 2 } [2]
def mcOn : State :=
  { withUnit running { ActiveUnit.idle with kind := .mc, dry := 1, wet1 := 1 / 2, nt := 2, nm := 1 } [1, 3] with
    mods := #v[some one, none, none] }
def fcOn : State :=
  { withUnit running { ActiveUnit.idle with kind := .fc, gain := 1, g := 1 / 2 } [2] with mods := #v[some one, none, none] }

/-- Every filter unit configured: `first` up to unit 5, an Allpass last. -/
def allFu (s : State) (first : FuType) : State :=
  withFu (withFu (withFu (withFu (withFu (withFu (withFu s 0 first) 1 first) 2 first) 3 first) 4 first) 5 first) 6 .ap

def rv1On : State := { allFu running .ap with unit := { ActiveUnit.idle with kind := .rv1 } }
def rv2On : State := { allFu running .cb with unit := { ActiveUnit.idle with kind := .rv2 } }
def rv3On : State := { allFu running .lpc with unit := { ActiveUnit.idle with kind := .rv3 }, mixr := 1 }

/-- What a command leaves; a command that does not go on leaves the state (none does). -/
def after (i : Instr) (s : State) : State :=
  match exec i s with
  | .next t => t
  | _ => s

/-! ### Well-formedness: each check refuses an ill-formed term -/

theorem test_wf_refuses_series_range : (Instr.serTick 5 4 .r).wf = false := by decide
theorem test_wf_refuses_parallel_range : (Instr.parTick 1 0 .din true).wf = false := by decide
theorem test_wf_accepts_one_unit : (Instr.serTick 6 6 .din).wf = true := by decide

/-! ### Decoding: the words of 95_test_vectors.md §2.1, and a word of every other row from the formats of R82, R85 -/

theorem test_decode_system :
    decode 0x00000000 = .ok .nop ∧ decode 0x01000000 = .ok .reset ∧ decode 0x02000000 = .ok (.pld 0) ∧
    decode 0x021F0000 = .ok (.pld 31) ∧ decode 0x03040000 = .ok (.pmv 4) ∧ decode 0x04000000 = .ok .ctxSet ∧
    decode 0x05000000 = .ok .start ∧ decode 0x06000000 = .ok .stop := by decide

theorem test_decode_delay_buffer :
    decode 0x10730000 = .ok (.dbAlloc 7 3) ∧ decode 0x11700001 = .ok (.dbWr 7 .r) ∧
    decode 0x12720000 = .ok (.dbRd 7 2) ∧ decode 0x13700000 = .ok (.dbAdv 7) ∧ decode 0x14000000 = .ok (.dbPeek 0) ∧
    decode 0x15700000 = .ok (.dbMpos 7 0) := by decide

theorem test_decode_interpolator_modulator :
    decode 0x20000000 = .ok .ipCfg ∧ decode 0x21700000 = .ok (.ipLin 7) ∧ decode 0x22700000 = .ok (.ipBl 7) ∧
    decode 0x23700000 = .ok (.ipRd 7) ∧ decode 0x30200000 = .ok (.modCfg 2) ∧ decode 0x31000000 = .ok (.modNext 0) := by
  decide

theorem test_decode_filters :
    decode 0x40600000 = .ok (.apCfg 6) ∧ decode 0x41300000 = .ok (.cbCfg 3) ∧ decode 0x42000000 = .ok (.lpcCfg 0) ∧
    decode 0x44000000 = .ok (.apTick 0 .din) ∧ decode 0x45300000 = .ok (.cbTick 3 .din) ∧
    decode 0x46000000 = .ok (.lpcTick 0 .din) := by decide

theorem test_decode_engines_mixer :
    decode 0x50450001 = .ok (.serTick 4 5 .r) ∧ decode 0x51060003 = .ok (.parTick 0 6 .r true) ∧
    decode 0x51020002 = .ok (.parTick 0 2 .din true) ∧ decode 0x52000000 = .ok .mixSet ∧
    decode 0x53010001 = .ok (.mix 1 .r) ∧ decode 0x531F0001 = .ok (.mix 31 .r) := by decide

theorem test_decode_facade :
    decode 0x60100000 = .ok .cfgSd ∧ decode 0x60200000 = .ok .cfgDd ∧ decode 0x60300000 = .ok .cfgFd ∧
    decode 0x60400000 = .ok .cfgMc ∧ decode 0x60500000 = .ok .cfgFc ∧ decode 0x60600000 = .ok .cfgRv1 ∧
    decode 0x60700000 = .ok .cfgRv2 ∧ decode 0x60800000 = .ok .cfgRv3 ∧ decode 0x61000001 = .ok (.tick .r) ∧
    decode 0x6200FFFF = .ok (.block 65535) := by decide

/-- The illegal words of §2.1, each with its reason. -/
theorem test_decode_illegal :
    decode 0x00000001 = .error .mustBeZero ∧ decode 0x02200000 = .error .mustBeZero ∧
    decode 0x02000001 = .error .mustBeZero ∧ decode 0x07000000 = .error .undefinedOpcode ∧
    decode 0x10740000 = .error .tapCountTooLarge ∧ decode 0x10800000 = .error .noSuchInstance ∧
    decode 0x12730000 = .error .noSuchTap ∧ decode 0x11700002 = .error .mustBeZero ∧
    decode 0x13710000 = .error .mustBeZero ∧ decode 0x30300000 = .error .noSuchInstance ∧
    decode 0x40700000 = .error .noSuchInstance ∧ decode 0x43000000 = .error .undefinedOpcode ∧
    decode 0x52000001 = .error .mustBeZero := by decide

theorem test_decode_illegal_composition :
    decode 0x50540000 = .error .emptyRange ∧ decode 0x50010002 = .error .mustBeZero ∧
    decode 0x51070000 = .error .noSuchInstance ∧ decode 0x53200000 = .error .mustBeZero ∧
    decode 0x60000000 = .error .noSuchKind ∧ decode 0x60900000 = .error .noSuchKind ∧
    decode 0x60110000 = .error .mustBeZero ∧ decode 0x61000002 = .error .mustBeZero ∧
    decode 0x62010000 = .error .mustBeZero ∧ decode 0x63000000 = .error .undefinedOpcode ∧
    decode 0xFFFFFFFF = .error .undefinedOpcode ∧ decode 0x21800000 = .error .noSuchInstance := by decide

/-- V-SYS3: `TICK` offered while STOPPED is a mode violation, with its word in `FCMD`. -/
theorem test_step_runs_offered_word :
    (match step (stopped.withFetchWord 32 0x61000000) with
      | .next t => t.statusPort
      | _ => (0, 0)) = (0x00000202, 0x61000000) := by decide +kernel

/-- V-SYS3: decoding precedes the mode check. -/
theorem test_step_illegal_word :
    (match step (running.withFetchWord 32 0x60900000) with
      | .next t => t.status
      | _ => 0) = 0x00000103 := by decide +kernel

/-! ### One step of each command -/

/-- R250. -/
theorem test_nop : after .nop running = running := by decide +kernel

/-- R251, R310: also from the fault state, and `STATUS` reads 0. -/
theorem test_reset : (after .reset (running.raise .notReady)).statusPort = (0, 0) ∧
    (after .reset (withP running (nums [5]))).p[0] = .val 0 := by decide +kernel

/-- V-SYS1. -/
theorem test_pld : (after (.pld 31) (offering stopped (7 / 3))).p[31] = .val (7 / 3) := by decide +kernel

/-- V-SYS1. -/
theorem test_pmv : (after (.pmv 4) { stopped with r := .val (5 / 7) }).p[4] = .val (5 / 7) := by decide +kernel

theorem test_ctxSet : (after .ctxSet (withP stopped (nums [1]))).srate = 1 := by decide +kernel

/-- V-SYS2. -/
theorem test_ctxSet_zero : (after .ctxSet { State.reset with params := prm }).status = 0x00000502 := by decide +kernel

theorem test_start_stop : (after .start stopped).mode = .running ∧ (after .stop running).mode = .stopped := by
  decide +kernel

/-- V-DB1, the buffer `DB.ALLOC 7, 1` leaves. -/
theorem test_dbAlloc : (after (.dbAlloc 7 1) (withP stopped (nums [4, 2]))).dbs[7] = some ⟨4, [], 0, [⟨2, -2⟩]⟩ := by
  decide +kernel

/-- V-FU1: an allocation by hand unconfigures the filter unit that owned the buffer. -/
theorem test_dbAlloc_disowns : (after (.dbAlloc 0 1) (withP (withFu stopped 0 .ap) (nums [4, 2]))).fus[0] = none := by
  decide +kernel

/-- V-DB1, round 5: the write at cell 1, nothing else moves. -/
theorem test_dbWr : (after (.dbWr 7 .din) (offering (withDb running 7 { dbV with wp := 1 }) (1 / 4))).dbs[7] =
    some { dbV with mem := [(0, .val (1 / 32)), (1, .val (1 / 4)), (2, .val (1 / 8)), (3, .val (1 / 16))], wp := 2 } := by
  decide +kernel

/-- V-DB1, rounds 2 and 0: warm, and cold. -/
theorem test_dbRd :
    ((after (.dbRd 7 0) (withDb running 7 { dbV with taps := [⟨2, 2⟩] })).r,
      (after (.dbRd 7 0) (withDb running 7 { dbV with taps := [⟨2, 2⟩] })).warm) = (.val (1 / 8), true) ∧
    ((after (.dbRd 7 0) (withDb { running with warm := true } 7 (Db.alloc 4 [2]))).r,
      (after (.dbRd 7 0) (withDb { running with warm := true } 7 (Db.alloc 4 [2]))).warm) = (.val 0, false) := by
  decide +kernel

/-- V-DB1, rounds 0 and 5: up from a negative pointer, and past the last cell. -/
theorem test_dbAdv :
    (after (.dbAdv 7) (withDb running 7 (Db.alloc 4 [2]))).dbs[7] = some ⟨4, [], 0, [⟨2, -1⟩]⟩ ∧
    (after (.dbAdv 7) (withDb running 7 ⟨4, [], 0, [⟨2, 3⟩]⟩)).dbs[7] = some ⟨4, [], 0, [⟨2, 0⟩]⟩ := by decide +kernel

/-- V-DB2: cell (-3) mod 4, and floor(-1/2) mod 4; in either mode. -/
theorem test_dbPeek : (after (.dbPeek 7) (withDb (withP stopped (nums [-3])) 7 dbV)).r = .val (1 / 64) ∧
    (after (.dbPeek 7) (withDb (withP running (nums [-1 / 2])) 7 dbV)).r = .val (1 / 16) := by decide +kernel

/-- V-DB3. -/
theorem test_dbMpos : (after (.dbMpos 7 0) (withDb (withP running (nums [5 / 4])) 7 dbV)).r = .val (7 / 2) := by
  decide +kernel

/-- R121: a good set, and a frequency of 0, which is replaced and noted. -/
theorem test_ipCfg : (after .ipCfg (withP stopped (nums [1, 2, 3]))).ip = ⟨.bandlimited, 2, 3⟩ ∧
    (after .ipCfg (withP stopped (nums [1, 0, 3]))).status = 0x00000008 := by decide +kernel

/-- V-IP1, p = -1/2. -/
theorem test_ipLin : (after (.ipLin 7) (withDb (withP running (nums [-1 / 2])) 7 dbI)).r = .val (1 / 8) := by
  decide +kernel

/-- V-IP2: the kernel with stdf = 2, newf = 1 at offset 0. -/
theorem test_ipBl_kernel : (Ip.kernel ⟨.bandlimited, 2, 1⟩ 0) = 1 / 2 := by decide +kernel

/-- V-IP1, p = 2.000001 and p = 2.00001: the integral test is strict. -/
theorem test_ipRd :
    (after (.ipRd 7) (withDb (withP running (nums [2000001 / 1000000])) 7 dbI)).r = .val (1 / 2) ∧
    (after (.ipRd 7) (withDb (withP running (nums [200001 / 100000])) 7 dbI)).r = .val (199999 / 400000) := by
  decide +kernel

/-- V-MOD1, `SRATE` 40: the sine and the saw. -/
theorem test_modCfg :
    ((after (.modCfg 0) (withP { stopped with srate := 40 } (nums [0, 10, 1 / 2]))).mods[0]).map Modulator.tab =
      some [1, 3 / 2, 1, 1 / 2] ∧
    ((after (.modCfg 0) (withP { stopped with srate := 40 } (nums [1, 10, 1 / 2]))).mods[0]).map Modulator.tab =
      some [1, 3 / 2, 0, 1 / 2] := by decide +kernel

/-- V-MOD4: a table of no entries. -/
theorem test_modCfg_empty : (after (.modCfg 0) (withP { stopped with srate := 3 } (nums [0, 10]))).status = 0x00000502 := by
  decide +kernel

/-- V-MOD3: the last entry, and back to the first. -/
theorem test_modNext : (after (.modNext 1) { running with mods := #v[none, some modV, none] }).r = .val (5 / 4) ∧
    ((after (.modNext 1) { running with mods := #v[none, some modV, none] }).mods[1]).map Modulator.idx = some 0 := by
  decide +kernel

/-- V-AP1, V-CB1, V-LPC1: the unit and the buffer of (1, 50, 50). -/
theorem test_filterCfg :
    (after (.apCfg 0) (withP stopped (nums [1, 50]))).dbs[0] = some (Db.alloc 2 [1]) ∧
    (after (.cbCfg 6) (withP stopped (nums [1, 50]))).fus[6] = some ⟨.cb, 1 / 2, 0⟩ ∧
    (after (.lpcCfg 0) (withP stopped (nums [1, 50, 25]))).fus[0] = some ⟨.lpc, 1 / 2, 1 / 4⟩ ∧
    (after (.lpcCfg 0) (withP stopped (nums [1, 50, 25]))).dbs[0] = some (Db.alloc 2 [1, 2]) := by decide +kernel

/-- V-FU1: a decay of 100 is replaced and noted. -/
theorem test_filterCfg_decay : (after (.apCfg 0) (withP stopped (nums [1, 100]))).status = 0x00000008 := by decide +kernel

/-- V-AP2: the output is clamped, the stored value is not. -/
theorem test_apTick : (after (.apTick 0 .din) (offering (withFu running 0 .ap) 3)).r = .val (-9999 / 10000) ∧
    ((after (.apTick 0 .din) (offering (withFu running 0 .ap) 3)).dbs[0]).map Db.mem = some [(0, .val 3)] := by
  decide +kernel

/-- V-AP1, the second tick: the tap is warm and reads 1. -/
theorem test_apTick_warm : (after (.apTick 0 .din) (offering (withDb (withFu running 0 .ap) 0
    ⟨2, [(0, .val 1)], 1, [⟨1, 0⟩]⟩) 0)).r = .val (3 / 4) := by decide +kernel

/-- V-CB1, the second tick. -/
theorem test_cbTick : (after (.cbTick 0 .din) (offering (withDb (withFu running 0 .cb) 0
    ⟨2, [(0, .val 1)], 1, [⟨1, 0⟩]⟩) 0)).r = .val (-1 / 4) := by decide +kernel

/-- V-LPC1, tick 2: both taps warm. -/
theorem test_lpcTick : (after (.lpcTick 0 .din) (offering (withDb (withFu running 0 .lpc) 0
    ⟨2, [(0, .val 1), (1, .val (1 / 2))], 0, [⟨1, 1⟩, ⟨2, 0⟩]⟩) 0)).r = .val (-1 / 4) := by decide +kernel

/-- V-FU1: a tick of another type. -/
theorem test_cbTick_wrong_type : (after (.cbTick 0 .din) (withFu running 0 .ap)).status = 0x00000403 := by decide +kernel

/-- V-SER1, first tick. -/
theorem test_serTick : (after (.serTick 0 1 .din) (offering (withFu (withFu running 0 .ap) 1 .ap) 1)).r = .val (1 / 4) := by
  decide +kernel

/-- V-PAR1, first tick: unclamped, and clamped. -/
theorem test_parTick :
    (after (.parTick 0 1 .din false) (offering (withFu (withFu running 0 .cb) 1 .cb) 1)).r = .val (-1) ∧
    (after (.parTick 0 1 .din true) (offering (withFu (withFu running 0 .cb) 1 .cb) 1)).r = .val (-9999 / 10000) := by
  decide +kernel

/-- V-MIX1: 30 percent, and 120. -/
theorem test_mixSet : (after .mixSet (withP stopped (nums [30]))).mixr = 3 / 10 ∧
    (after .mixSet (withP stopped (nums [120]))).status = 0x00000008 := by decide +kernel

/-- V-MIX1: 30 percent, dry 1/2, wet -1/2. -/
theorem test_mix : (after (.mix 1 .r) { withP running (nums [0, 1 / 2]) with mixr := 3 / 10, r := .val (-1 / 2) }).r =
    .val (1 / 5) := by decide +kernel

/-- V-SD2's unit with 7 ms at most; the scalars V-SD4 gives, with `DEFSUB`. -/
theorem test_cfgSd : (after .cfgSd (withP stopped (nums [1, 1 / 2, 3]))).dbs[7] = some (Db.alloc 8 [3]) ∧
    (after .cfgSd (withP stopped (nums [1, 3 / 2, 3]))).unit.wet1 = 1 / 4 ∧
    (after .cfgSd (withP stopped (nums [1, 3 / 2, 3]))).status = 0x00001008 := by decide +kernel

/-- V-DD1: the delays sorted, the weights not. -/
theorem test_cfgDd : (after .cfgDd (withP stopped (nums [1, 1 / 2, 1 / 4, 2, 1]))).dbs[7] = some (Db.alloc 8 [1, 2]) ∧
    (after .cfgDd (withP stopped (nums [1, 1 / 2, 1 / 4, 2, 1]))).unit.wet1 = 1 / 2 := by decide +kernel

theorem test_cfgFd : (after .cfgFd (withP stopped (nums [1 / 2, 50, 2]))).unit =
    { ActiveUnit.idle with kind := .fd, gain := 1 / 2, g := 1 / 2 } := by decide +kernel

/-- V-MC2's operands, at `SRATE` 40 so that the tables have 4 entries. -/
def mcRegs : List Num := nums [100, 50, 2, 3, 1, 0, 2, 3, 10, 1 / 2, 3, 10, 0, 0, 0, 0, 0, 1, 1]

theorem test_cfgMc :
    (after .cfgMc (withP stopped mcRegs)).dbs[7] = some (Db.alloc 8 [1, 3]) ∧
    ((after .cfgMc (withP { stopped with srate := 40 } mcRegs)).mods.toList.map fun m => m.map Modulator.tab) =
      [some [1 / 2, 1 / 2, 3 / 2, 3 / 2], some [1, 1, 1, 1], none] := by decide +kernel

/-- V-FC1. -/
theorem test_cfgFc : (after .cfgFc (withP { stopped with srate := 40 } (nums [1, 50, 2, 3, 10, 0, 0, 1, 1]))).unit =
    { ActiveUnit.idle with kind := .fc, gain := 1, g := 1 / 2 } := by decide +kernel

/-- V-RV1: five Allpasses and no more. -/
theorem test_cfgRv1 :
    ((after .cfgRv1 (withP stopped (nums [50, 1, 50, 1, 50, 1, 50, 1, 50, 1, 50]))).fus.toList.map
      fun u => u.map Fu.type) = [some .ap, some .ap, some .ap, some .ap, some .ap, none, none] := by decide +kernel

/-- Program 2: the capacities of the six buffers. -/
theorem test_cfgRv2 :
    ((after .cfgRv2 (withP stopped (nums [50, 1, 50, 2, 50, 3, 50, 4, 50, 1, 50, 2, 50]))).dbs.toList.map
      fun d => d.map Db.len) = [some 2, some 3, some 4, some 5, some 2, some 3, none, none] := by decide +kernel

/-- V-RV4. -/
theorem test_cfgRv3 :
    (after .cfgRv3 (withP stopped (nums ([100] ++ (List.replicate 6 [1, 50, 50]).flatten ++ [1, 50])))).status =
      0x00008000 ∧
    (after .cfgRv3 (withP stopped (nums ([100] ++ (List.replicate 6 [1, 50, 50]).flatten ++ [1, 50])))).fus[6] =
      some ⟨.ap, 1 / 2, 0⟩ := by decide +kernel

/-- V-SYS3: `CFG.SD` without a sample rate. -/
theorem test_cfg_no_context : (after .cfgSd { stopped with srate := 0 }).status = 0x00000602 := by decide +kernel

/-- V-SD2, the first sample of the impulse; V-RV4, the first sample. -/
theorem test_tick : (after (.tick .din) (offering sdOn 1)).r = .val (9999 / 10000) ∧
    (after (.tick .din) (offering rv3On (1 / 8))).r = .val (3 / 16) := by decide +kernel

/-- V-DD1 with both taps warm on a 1 and a 0; V-FC1's third sample; V-FD1's third sample. -/
theorem test_tick_warm :
    (after (.tick .din) (offering (withDb ddOn 7 ⟨8, [(0, .val 1)], 2, [⟨1, 1⟩, ⟨2, 0⟩]⟩) 0)).r = .val (1 / 4) ∧
    (after (.tick .din) (offering (withDb fcOn 7 ⟨8, [(0, .val 1)], 2, [⟨2, 0⟩]⟩) 0)).r = .val (1 / 2) ∧
    (after (.tick .din) (offering (withDb fdOn 7 ⟨8, [(0, .val 1)], 2, [⟨2, 0⟩]⟩) 0)).r = .val (1 / 4) := by
  decide +kernel

/-- V-MC1's third sample by the sum of two taps with coefficient 1: 1/8 + 1/2 * (1/4 + 0); R36 with `SRC_EXH` high. -/
theorem test_tick_chorus :
    (after (.tick .din) (offering (withDb mcOn 7 ⟨8, [(1, .val (1 / 4))], 2, [⟨1, 1⟩, ⟨3, -1⟩]⟩) (1 / 8))).r = .val (1 / 4) ∧
    (after (.tick .din) { offering mcOn 0 with port := ⟨0, [.val 0], true⟩ }).exh = true := by decide +kernel

/-- V-FD1, the first two samples in one block; V-SYS5: `BLOCK 0`. -/
theorem test_block :
    (after (.block 2) { fdOn with port := ⟨0, [.val 1, .val 0], false⟩ }).dout = [.val (1 / 2), .val 0] ∧
    after (.block 0) { fdOn with exh := true } = fdOn := by decide +kernel

/-- The modulator of V-MOD3 is good; with an entry above 1 + depth it is not (R147). -/
theorem test_modOk_bounds_entries : Safety.ModOk prm modV ∧
    ¬ Safety.ModOk prm { modV with tab := [3 / 4, 3 / 4, 5 / 4, 2] } := by decide +kernel

/-- `DB.ALLOC 7` removes a MultiChorus and leaves its counts, which stay from 0 to 3 (R102, R264). -/
theorem test_counts_after_alloc :
    (after (.dbAlloc 7 0) (withP { mcOn with mode := .stopped } (nums [4]))).unit.kind = .none ∧
    (after (.dbAlloc 7 0) (withP { mcOn with mode := .stopped } (nums [4]))).unit.nt = 2 ∧
    Safety.CountsOk (after (.dbAlloc 7 0) (withP { mcOn with mode := .stopped } (nums [4]))).unit := by decide +kernel

/-! ### Witnesses: a state and operands that meet the hypotheses of each statement, all of them together -/

/-- The ports that offer a word, and a stream of one command. -/
def ports (w : CmdWord) : Ports := { word := w, din := [], srcExh := false }
def offered (s : State) (w : CmdWord) : State := { s with pending := [.command (ports w)] }

theorem prm_valid : prm.Valid := by
  refine ⟨?_, ?_, ?_, ?_, ?_, ?_, ?_, ?_, ?_, ?_, ?_, ?_, ?_, ?_, ?_, ?_, ?_⟩ <;> decide +kernel

/-- A good state over the parameters of these tests. -/
theorem good (s : State) (hp : s.params = prm) (h1 : Safety.ContextOk s := by decide +kernel)
    (h2 : Safety.FaultOk s := by decide +kernel) (h3 : Safety.PoolOk s := by decide +kernel)
    (h4 : Safety.UnitOk s := by decide +kernel) : Safety.StateOk s :=
  ⟨by rw [Safety.ParamsOk, hp]; exact prm_valid, h1, h2, h3, h4⟩

theorem stopped_good : Safety.StateOk stopped := good _ rfl
theorem running_good : Safety.StateOk running := good _ rfl
theorem mcOn_good : Safety.StateOk mcOn := good _ rfl
theorem fcOn_good : Safety.StateOk fcOn := good _ rfl
theorem fdOn_good : Safety.StateOk fdOn := good _ rfl
theorem rv1On_good : Safety.StateOk rv1On := good _ rfl
theorem rv2On_good : Safety.StateOk rv2On := good _ rfl
theorem rv3On_good : Safety.StateOk rv3On := good _ rfl

/-- `Wrapped` from its parts. -/
theorem wrapped_of {p w : Rat} {len : Nat} (k : Int) (h : 0 ≤ w ∧ w < len ∧ p = w + len * k) : Wrapped p len w :=
  ⟨h.1, h.2.1, k, h.2.2⟩

theorem witness_DecodeUndoesEncode : ∃ i : Instr, i.wf = true := ⟨.parTick 0 6 .r true, by decide⟩
theorem witness_LegalWordIsItsCommandsWord : ∃ w i, decode w = .ok i := ⟨0x50450001, .serTick 4 5 .r, by decide⟩
theorem witness_StepRunsDecodedCommand :
    ∃ (s : State) (q : Ports) (rest : List HostEvent) (i : Instr),
      s.pending = .command q :: rest ∧ decode q.word = .ok i :=
  ⟨offered running 0x61000001, ports 0x61000001, [], .tick .r, by decide⟩
theorem witness_IllegalWordFaults :
    ∃ (s : State) (q : Ports) (rest : List HostEvent) (e : Illegal),
      s.fault = false ∧ s.pending = .command q :: rest ∧ decode q.word = .error e :=
  ⟨offered running 0x60900000, ports 0x60900000, [], .noSuchKind, by decide⟩
theorem witness_ResetGivesResetValues : ∃ (s : State) (rest : List HostEvent), s.pending = .hardwareReset :: rest :=
  ⟨{ running with pending := [.hardwareReset] }, [], rfl⟩
theorem witness_FaultStateIsTerminal :
    (∃ s : State, s.fault = true ∧ s.pending ≠ [] ∧
      ∀ e ∈ s.pending, e ≠ .hardwareReset ∧ ∀ q, e = .command q → q.word ≠ 0x01000000) ∧
    ∃ (s : State) (q : Ports) (rest : List HostEvent), s.fault = true ∧ s.pending = .command q :: rest ∧
      q.word = 0x01000000 := by
  refine ⟨⟨offered (running.raise .notReady) 0, rfl, by decide, ?_⟩,
    offered (running.raise .notReady) 0x01000000, ports 0x01000000, [], rfl, rfl, rfl⟩
  intro e he
  simp only [offered, List.mem_singleton] at he
  subst he
  refine ⟨by decide, fun q hq => ?_⟩
  cases hq
  decide
theorem witness_WrongModeFaults :
    (∃ (i : Instr) (s : State), s.fault = false ∧ i.cls = .cfg ∧ s.mode = .running) ∧
    (∃ (i : Instr) (s : State), s.fault = false ∧ i.cls = .data ∧ s.mode = .stopped) ∧
    ∃ (i : Instr) (s t : State), s.fault = false ∧ i.cls = .any ∧ exec i s = .next t ∧ t.fault = true :=
  ⟨⟨.mixSet, running, by decide⟩, ⟨.block 0, stopped, by decide⟩, .dbPeek 0, running, _, rfl, rfl, rfl, rfl⟩
theorem witness_FaultsAreAllOrNothing :
    ∃ (i : Instr) (s t : State), s.fault = false ∧ exec i s = .next t ∧ t.fault = true :=
  ⟨.dbPeek 0, running, _, rfl, rfl, rfl⟩
theorem witness_OnlyListedFaultsAreRaised :
    ∃ (i : Instr) (s t : State), s.fault = false ∧ exec i s = .next t ∧ t.fault = true :=
  ⟨.mixSet, running, _, rfl, rfl, rfl⟩
theorem witness_WritersOfRegistersAndFlags :
    ∃ (i : Instr) (s t : State), exec i s = .next t ∧ i ≠ .reset ∧ i ≠ .pld 4 ∧ i ≠ .pmv 4 ∧ i ≠ .ctxSet ∧ i ≠ .start ∧
      i ≠ .stop ∧ (∀ b k, i ≠ .dbRd b k) ∧ (∀ x, i ≠ .tick x) ∧ (∀ n, i ≠ .block n) ∧ i.cls ≠ .cfg ∧ s.defsub = true :=
  ⟨.pld 3, { stopped with defsub := true }, _, rfl, by decide, by decide, by decide, by decide, by decide, by decide,
    by simp, by simp, by simp, by decide, rfl⟩
theorem witness_CommandsThatKeepTheResult :
    ∃ (i : Instr) (s t : State), exec i s = .next t ∧ ∃ k, i = .pmv k := ⟨.pmv 3, stopped, _, rfl, 3, rfl⟩
theorem witness_DataCommandsAllocateNothing :
    ∃ (i : Instr) (s t : State), i.cls = .data ∧ exec i s = .next t ∧ t.fault = false :=
  ⟨.dbAdv 7, withDb running 7 dbV, _, rfl, rfl, rfl⟩
theorem witness_StepKeepsGoodState :
    ∃ s t : State, Safety.StateOk s ∧ s.pending ≠ [] ∧ step s = .next t :=
  ⟨offered running 0x61000000, _, good _ rfl, by decide, rfl⟩
theorem witness_NopStartStop : ∃ s : State, s.fault = false := ⟨stopped, rfl⟩
theorem witness_LoadsWriteOneParameter :
    (∃ (s : State) (v : Num) (rest : List Num), s.fault = false ∧ s.port.din = v :: rest) ∧
    ∃ s : State, s.fault = false ∧ s.port.din = [] := ⟨⟨offering running 1, .val 1, [], rfl, rfl⟩, running, rfl, rfl⟩

/-- The least rate, the greatest refused one that has few digits, and a value that is not a number. -/
theorem witness_CtxSetSetsRate :
    (∃ (s : State) (q : Rat), s.fault = false ∧ s.mode = .stopped ∧ s.p[0] = .val q ∧ 1 ≤ q) ∧
    (∃ (s : State) (q : Rat), s.fault = false ∧ s.mode = .stopped ∧ s.p[0] = .val q ∧ q < 1) ∧
    ∃ s : State, s.fault = false ∧ s.mode = .stopped ∧ s.p[0] = .nan :=
  ⟨⟨withP stopped (nums [1]), 1, by decide +kernel⟩, ⟨withP stopped (nums [999 / 1000]), 999 / 1000, by decide +kernel⟩,
    withP stopped [.nan], by decide +kernel⟩

/-- The boundary: one cell, and three taps of delay 1, 0 and 1 in it. -/
theorem witness_DbAllocBuildsBuffer :
    ∃ (nt : TapCount) (s : State) (cap : Rat) (q : Nat → Rat),
      s.fault = false ∧ s.mode = .stopped ∧ s.p[0] = .val cap ∧ 1 ≤ cap ∧ cap.floor ≤ s.params.lmax ∧
      ∀ k, k < nt.val → reg s (1 + k) = .val (q k) ∧ 0 ≤ q k ∧ (q k).floor ≤ cap.floor :=
  ⟨3, withP stopped (nums [1, 1, 0, 1]), 1, fun k => [1, 0, 1].getD k 0, by decide +kernel⟩

/-- Each check: the capacity below 1, one above `LMAX`, and a delay one above the capacity `LMAX`. -/
theorem witness_DbAllocFaultOrder :
    (∃ (s : State) (cap : Rat), s.fault = false ∧ s.mode = .stopped ∧ s.p[0] = .val cap ∧ cap < 1) ∧
    (∃ (s : State) (cap : Rat), s.fault = false ∧ s.mode = .stopped ∧ s.p[0] = .val cap ∧ 1 ≤ cap ∧
      (s.params.lmax : Int) < cap.floor) ∧
    ∃ (nt : TapCount) (s : State) (cap : Rat) (k : Nat) (q : Rat), s.fault = false ∧ s.mode = .stopped ∧
      s.p[0] = .val cap ∧ 1 ≤ cap ∧ cap.floor ≤ s.params.lmax ∧ k < nt.val ∧ reg s (1 + k) = .val q ∧
      cap.floor < q.floor :=
  ⟨⟨stopped, 0, by decide +kernel⟩, ⟨withP stopped (nums [100001]), 100001, by decide +kernel⟩,
    1, withP stopped (nums [100000, 100001]), 100000, 0, 100001, by decide +kernel⟩
theorem witness_InputSampleBySource :
    (∃ (s : State) (v : Num) (rest : List Num), s.port.din = v :: rest) ∧ ∃ s : State, s.port.din = [] :=
  ⟨⟨offering running 1, .val 1, [], rfl⟩, running, rfl⟩
theorem witness_DbWrStoresSample :
    (∃ (b : DbNum) (src : Src) (s s' : State) (x : Num) (db : Db), s.fault = false ∧ s.mode = .running ∧
      s.dbs[b] = some db ∧ Safety.DbOk s.params db ∧ s.input src = (s', x)) ∧
    ∃ (b : DbNum) (src : Src) (s s' : State) (x : Num), s.fault = false ∧ s.mode = .running ∧ s.dbs[b] = none ∧
      s.input src = (s', x) :=
  ⟨⟨7, .r, withDb running 7 dbV, _, _, dbV, by decide +kernel, by decide +kernel, by decide +kernel, by decide +kernel, rfl⟩,
    7, .r, running, _, _, by decide +kernel, by decide +kernel, by decide +kernel, rfl⟩
theorem witness_DbRdReadsTap :
    (∃ (b : DbNum) (k : TapNum) (s : State) (db : Db) (tap : Tap), s.fault = false ∧ s.mode = .running ∧
      s.dbs[b] = some db ∧ db.taps[k.val]? = some tap) ∧
    (∃ (b : DbNum) (s : State), s.fault = false ∧ s.mode = .running ∧ s.dbs[b] = none) ∧
    ∃ (b : DbNum) (k : TapNum) (s : State) (db : Db), s.fault = false ∧ s.mode = .running ∧ s.dbs[b] = some db ∧
      db.taps.length ≤ k.val :=
  ⟨⟨7, 0, withDb running 7 dbV, dbV, ⟨2, 0⟩, by decide +kernel⟩, ⟨7, running, by decide +kernel⟩,
    7, 1, withDb running 7 dbV, dbV, by decide +kernel⟩
theorem witness_DbAdvAdvancesTaps :
    (∃ (b : DbNum) (s : State) (db : Db), s.fault = false ∧ s.mode = .running ∧ s.dbs[b] = some db ∧
      Safety.DbOk s.params db) ∧
    ∃ (b : DbNum) (s : State), s.fault = false ∧ s.mode = .running ∧ s.dbs[b] = none :=
  ⟨⟨7, withDb running 7 dbV, dbV, by decide +kernel⟩, 7, running, by decide +kernel⟩
theorem witness_DbPeekReadsCell :
    (∃ (b : DbNum) (s : State) (db : Db) (q : Rat), s.fault = false ∧ s.dbs[b] = some db ∧ s.p[0] = .val q ∧
      1 ≤ db.len) ∧
    (∃ (b : DbNum) (s : State), s.fault = false ∧ s.dbs[b] = none) ∧
    ∃ (b : DbNum) (s : State) (db : Db), s.fault = false ∧ s.dbs[b] = some db ∧ s.p[0] = .nan :=
  ⟨⟨7, withDb (withP stopped (nums [-1])) 7 dbV, dbV, -1, by decide +kernel⟩, ⟨7, stopped, by decide +kernel⟩,
    7, withDb (withP stopped [.nan]) 7 dbV, dbV, by decide +kernel⟩
theorem witness_DbMposGivesPosition :
    (∃ (b : DbNum) (k : TapNum) (s : State) (db : Db) (tap : Tap) (q : Rat), s.fault = false ∧ s.mode = .running ∧
      s.dbs[b] = some db ∧ db.taps[k.val]? = some tap ∧ s.p[0] = .val q ∧ 1 ≤ db.len) ∧
    (∃ (b : DbNum) (s : State), s.fault = false ∧ s.mode = .running ∧ s.dbs[b] = none) ∧
    (∃ (b : DbNum) (k : TapNum) (s : State) (db : Db), s.fault = false ∧ s.mode = .running ∧ s.dbs[b] = some db ∧
      db.taps.length ≤ k.val) ∧
    ∃ (b : DbNum) (k : TapNum) (s : State) (db : Db), s.fault = false ∧ s.mode = .running ∧ s.dbs[b] = some db ∧
      k.val < db.taps.length ∧ s.p[0] = .nan :=
  ⟨⟨7, 0, withDb (withP running (nums [1])) 7 dbV, dbV, ⟨2, 0⟩, 1, by decide +kernel⟩, ⟨7, running, by decide +kernel⟩,
    ⟨7, 1, withDb running 7 dbV, dbV, by decide +kernel⟩, 7, 0, withDb (withP running [.nan]) 7 dbV, dbV, by decide +kernel⟩

/-- Both ends of the range of a delay: 0, and the capacity. -/
theorem witness_ExactDelay :
    (∃ (len : Nat) (delays : List Nat) (k : Nat), 1 ≤ len ∧ delays[k]? = some 0 ∧ 0 ≤ len) ∧
    ∃ (len : Nat) (delays : List Nat) (k : Nat), 1 ≤ len ∧ delays[k]? = some len :=
  ⟨⟨4, [0, 4], 0, by decide⟩, 4, [0, 4], 1, by decide⟩
theorem witness_IpCfgSetsInterpolator : ∃ s : State, s.fault = false ∧ s.mode = .stopped := ⟨stopped, rfl, rfl⟩

/-- A position below 0: it wraps to the last cell. -/
theorem witness_InterpolatedReads :
    ∃ (b : DbNum) (s : State) (db : Db) (q w : Rat), (s.fault = false ∧ s.mode = .running ∧ s.dbs[b] = some db ∧
      s.p[0] = .val q ∧ 1 ≤ db.len) ∧ Wrapped q db.len w :=
  ⟨7, withDb (withP running (nums [-1 / 2])) 7 dbI, dbI, -1 / 2, 7 / 2, by decide +kernel,
    wrapped_of (-1) (by decide +kernel)⟩

/-- Both clauses: the integral position 7 (cell 3), and a position between two equal cells. -/
theorem witness_LinearReadIsExact :
    (∃ (b : DbNum) (s : State) (db : Db) (q v : Rat) (f : Nat) (k : Int), s.fault = false ∧ s.mode = .running ∧
      s.dbs[b] = some db ∧ s.p[0] = .val q ∧ f < db.len ∧ memRead db.mem f = .val v ∧ (f : Int) + db.len * k = q.floor ∧
      q = q.floor ∧ memRead db.mem ((f + 1) % db.len) ≠ .nan) ∧
    ∃ (b : DbNum) (s : State) (db : Db) (q v : Rat) (f : Nat) (k : Int), s.fault = false ∧ s.mode = .running ∧
      s.dbs[b] = some db ∧ s.p[0] = .val q ∧ f < db.len ∧ memRead db.mem f = .val v ∧ (f : Int) + db.len * k = q.floor ∧
      memRead db.mem ((f + 1) % db.len) = .val v :=
  ⟨⟨7, withDb (withP running (nums [7])) 7 dbI, dbI, 7, 1 / 4, 3, 1, by decide +kernel⟩,
    7, withDb (withP running (nums [3 / 2])) 7 (Db.alloc 4 []), Db.alloc 4 [], 3 / 2, 0, 1, 0, by decide +kernel⟩
theorem witness_EqualFrequenciesReadTheCell :
    ∃ (b : DbNum) (s : State) (db : Db) (q w : Rat) (c : Int), (s.fault = false ∧ s.mode = .running ∧
      s.dbs[b] = some db ∧ s.p[0] = .val q ∧ 1 ≤ db.len ∧ c ≠ 0 ∧ s.ip.stdf = c ∧ s.ip.newf = c) ∧
      Wrapped q db.len w ∧ ∀ i, memRead db.mem i ≠ .nan :=
  ⟨7, withDb (withP running (nums [3 / 2])) 7 (Db.alloc 4 []), Db.alloc 4 [], 3 / 2, 3 / 2, 1, by decide +kernel,
    wrapped_of 0 (by decide +kernel), fun _ => by simp [Db.alloc]⟩

/-- Table lengths 1 (`SRATE` 5, 10 Hz: round(1/2)) and `NMAX`. -/
theorem witness_ModCfgBuildsTable :
    (∃ s : State, Safety.StateOk s ∧ (s.fault = false ∧ s.mode = .stopped ∧ s.srate ≠ 0) ∧ TableFits s s.p[1]) ∧
    ∃ s : State, Safety.StateOk s ∧ (s.fault = false ∧ s.mode = .stopped ∧ s.srate ≠ 0) ∧ TableFits s s.p[1] :=
  ⟨⟨withP { stopped with srate := 5 } (nums [0, 10]), good _ rfl, by decide +kernel, by unfold TableFits; decide +kernel⟩,
    withP { stopped with srate := 1000000 } (nums [0, 10]), good _ rfl, by decide +kernel,
    by unfold TableFits; decide +kernel⟩

/-- Each check at its boundary: no rate; a filter buffer of `LMAX` + 1 cells; an effect buffer of `LMAX` + 1, for each
of the five kinds; the first and the last filter unit of each reverb; a table of no entry and one of `NMAX` + 1. -/
theorem witness_ConfigurationFaultOrder :
    (∃ s : State, s.fault = false ∧ s.mode = .stopped ∧ s.srate = 0) ∧
    (∃ s : State, s.fault = false ∧ s.mode = .stopped ∧ s.srate ≠ 0 ∧ s.params.lmax < filterDelay s s.p[0] + 1) ∧
    (∃ s : State, s.fault = false ∧ s.mode = .stopped ∧ s.srate ≠ 0 ∧
      ∀ m ∈ [s.params.maxSd, s.params.maxDd, s.params.maxFd, s.params.maxMc, s.params.maxFc],
        s.params.lmax < effectCapacity s m) ∧
    (∃ s : State, s.fault = false ∧ s.mode = .stopped ∧ s.srate ≠ 0 ∧ ∀ k ∈ [1, 9, 11, 19],
      (k ∈ reverbDelays .cfgRv1 ∨ k ∈ reverbDelays .cfgRv2 ∨ k ∈ reverbDelays .cfgRv3) ∧
      s.params.lmax < filterDelay s (reg s k) + 1) ∧
    (∃ s : State, Safety.StateOk s ∧ s.fault = false ∧ s.mode = .stopped ∧ s.srate ≠ 0 ∧
      effectCapacity s s.params.maxFc ≤ s.params.lmax ∧ TableFault s s.p[1] .badOperand ∧ TableFault s s.p[4] .badOperand) ∧
    ∃ s : State, Safety.StateOk s ∧ s.fault = false ∧ s.mode = .stopped ∧ s.srate ≠ 0 ∧
      effectCapacity s s.params.maxFc ≤ s.params.lmax ∧ TableFault s s.p[1] .resourceExhaustion ∧
      TableFault s s.p[4] .resourceExhaustion :=
  ⟨⟨{ stopped with srate := 0 }, rfl, rfl, rfl⟩,
    ⟨withP { stopped with srate := 100000 } (nums [1000]), by decide +kernel⟩,
    ⟨{ stopped with params := { prm with lmax := 7 } }, by decide +kernel⟩,
    ⟨{ stopped with srate := 100000, p := Vector.replicate 32 (.val 1000) }, by decide +kernel⟩,
    ⟨withP { stopped with srate := 4 } (nums [0, 10, 0, 0, 10]), good _ rfl, by unfold TableFault tableEntries; decide +kernel⟩,
    withP { stopped with srate := 1000005 } (nums [0, 10, 0, 0, 10]), good _ rfl,
    by unfold TableFault tableEntries; decide +kernel⟩

/-- `CFG.MC` with two modulators, the first of which fits exactly: 1 entry before one of none, `NMAX` before more. -/
theorem witness_ConfigurationFaultOrder_chorus :
    (∃ (s : State) (q : McOperands) (before after : List Num) (fr : Num), Safety.StateOk s ∧ (s.fault = false ∧
      s.mode = .stopped ∧ s.srate ≠ 0 ∧ effectCapacity s s.params.maxMc ≤ s.params.lmax ∧ q = chorusOperands s ∧
      q[6] = .val (2 : Nat) ∧ [q[8], q[11], q[14]].take 2 = before ++ fr :: after) ∧
      (∀ f ∈ before, TableFits s f) ∧ TableFault s fr .badOperand) ∧
    ∃ (s : State) (q : McOperands) (before after : List Num) (fr : Num), Safety.StateOk s ∧ (s.fault = false ∧
      s.mode = .stopped ∧ s.srate ≠ 0 ∧ effectCapacity s s.params.maxMc ≤ s.params.lmax ∧ q = chorusOperands s ∧
      q[6] = .val (2 : Nat) ∧ [q[8], q[11], q[14]].take 2 = before ++ fr :: after) ∧
      (∀ f ∈ before, TableFits s f) ∧ TableFault s fr .resourceExhaustion :=
  ⟨⟨withP { stopped with srate := 4 } (nums [100, 50, 1, 0, 0, 0, 2, 3, 8, 0, 3, 10]), _, [.val 8], [], .val 10,
      good _ rfl, ⟨rfl, rfl, by decide +kernel, by decide +kernel, rfl, by decide +kernel, by decide +kernel⟩,
      by unfold TableFits; decide +kernel, by unfold TableFault; decide +kernel⟩,
    withP { stopped with srate := 1000000 } (nums [100, 50, 1, 0, 0, 0, 2, 3, 10, 0, 3, 9]), _, [.val 10], [], .val 9,
      good _ rfl, ⟨rfl, rfl, by decide +kernel, by decide +kernel, rfl, by decide +kernel, by decide +kernel⟩,
      by unfold TableFits; decide +kernel, by unfold TableFault; decide +kernel⟩
theorem witness_ModNextGivesEntry :
    (∃ (m : ModNum) (s : State) (md : Modulator), s.fault = false ∧ s.mode = .running ∧ s.mods[m] = some md ∧
      md.idx < md.tab.length) ∧
    ∃ (m : ModNum) (s : State), s.fault = false ∧ s.mode = .running ∧ s.mods[m] = none :=
  ⟨⟨1, { running with mods := #v[none, some modV, none] }, modV, by decide +kernel⟩, 1, running, by decide +kernel⟩
theorem witness_ModulatorIsPeriodic :
    ∃ (m : ModNum) (s : State) (md : Modulator), s.fault = false ∧ s.mode = .running ∧ s.mods[m] = some md ∧
      md.idx < md.tab.length := ⟨1, { running with mods := #v[none, some modV, none] }, modV, by decide +kernel⟩

/-- A table of each shape, built by `MOD.CFG` at `SRATE` 40. -/
def tableOf (sh : Rat) : Modulator :=
  ((after (.modCfg 0) (withP { stopped with srate := 40 } (nums [sh, 10, 1 / 2]))).mods[0]).getD one

theorem built_tableOf (sh : Rat) (n : List Rat) (h : (tableOf sh).shape = validatedShape (.val sh) prm.defs.shape ∧
    (tableOf sh).freq = 10 ∧ (tableOf sh).depth = 1 / 2 ∧ (tableOf sh).tab = n ∧ n.length = 4 ∧ (tableOf sh).idx = 0 ∧
    ∀ i, i < 4 → n[i]? = some (wave prm (tableOf sh).shape i 4 (1 / 2))) :
    Built { stopped with srate := 40 } (.val sh) (.val 10) (.val (1 / 2)) (tableOf sh) := by
  obtain ⟨h1, h2, h3, h4, h5, h6, h7⟩ := h
  refine ⟨h1, ?_, ?_, ?_, ?_, h6⟩
  · rw [h2]; decide +kernel
  · rw [h3]; decide +kernel
  · rw [h2, h4, h5]; decide +kernel
  · rw [h3, h4, h5]; exact h7

/-- A sine's first entry, a saw's least, and a square's first of the second half. -/
theorem witness_TableRanges :
    ∃ s : State, Safety.StateOk s ∧
      (∃ sh fr dp md, Built s sh fr dp md ∧ md.tab[0]? = some 1 ∧ md.shape = .sine) ∧
      (∃ sh fr dp md, Built s sh fr dp md ∧ md.tab[2]? = some 0 ∧ md.shape = .saw) ∧
      ∃ sh fr dp md, Built s sh fr dp md ∧ md.tab[2]? = some (3 / 2) ∧ md.shape = .square :=
  ⟨{ stopped with srate := 40 }, good _ rfl,
    ⟨_, _, _, _, built_tableOf 0 [1, 3 / 2, 1, 1 / 2] (by decide +kernel), by decide +kernel⟩,
    ⟨_, _, _, _, built_tableOf 1 [1, 3 / 2, 0, 1 / 2] (by decide +kernel), by decide +kernel⟩,
    _, _, _, _, built_tableOf 3 [1 / 2, 1 / 2, 3 / 2, 3 / 2] (by decide +kernel), by decide +kernel⟩

/-- The largest delay, in a buffer of exactly `LMAX` cells. -/
theorem witness_FilterCfgBuildsUnit :
    ∃ s : State, s.fault = false ∧ s.mode = .stopped ∧ s.srate ≠ 0 ∧ filterDelay s s.p[0] + 1 ≤ s.params.lmax :=
  ⟨withP { stopped with srate := 99999 } (nums [1000]), by decide +kernel⟩
theorem witness_ApTickRunsAllpass :
    ∃ (u : FuNum) (src : Src) (s s' : State) (x : Num) (fu : Fu) (db : Db) (tap : Tap),
      (s.fault = false ∧ s.mode = .running ∧ s.fus[u] = some fu ∧ fu.type = .ap ∧ s.dbs[filterDb u] = some db ∧
      Safety.DbOk s.params db ∧ db.taps[0]? = some tap) ∧ s.input src = (s', x) :=
  ⟨6, .r, withFu running 6 .ap, _, _, ⟨.ap, 1 / 2, 0⟩, Db.alloc 2 [1], ⟨1, -1⟩, by decide +kernel, rfl⟩
theorem witness_CbTickRunsComb :
    ∃ (u : FuNum) (src : Src) (s s' : State) (x : Num) (fu : Fu) (db : Db) (tap : Tap),
      (s.fault = false ∧ s.mode = .running ∧ s.fus[u] = some fu ∧ fu.type = .cb ∧ s.dbs[filterDb u] = some db ∧
      Safety.DbOk s.params db ∧ db.taps[0]? = some tap) ∧ s.input src = (s', x) :=
  ⟨0, .r, withFu running 0 .cb, _, _, ⟨.cb, 1 / 2, 0⟩, Db.alloc 2 [1], ⟨1, -1⟩, by decide +kernel, rfl⟩
theorem witness_LpcTickRunsLowPassComb :
    ∃ (u : FuNum) (src : Src) (s s' : State) (x : Num) (fu : Fu) (db : Db) (tap0 tap1 : Tap),
      (s.fault = false ∧ s.mode = .running ∧ s.fus[u] = some fu ∧ fu.type = .lpc ∧ s.dbs[filterDb u] = some db ∧
      Safety.DbOk s.params db ∧ db.taps[0]? = some tap0 ∧ db.taps[1]? = some tap1) ∧ s.input src = (s', x) :=
  ⟨0, .r, withFu running 0 .lpc, _, _, ⟨.lpc, 1 / 2, 1 / 2⟩, Db.alloc 2 [1, 2], ⟨1, -1⟩, ⟨2, -2⟩, by decide +kernel, rfl⟩

/-- Each clause: no buffer; a tap not in use, the first of them; a `P[0]` that is not a number; a unit of type NONE, and
of another type; a range whose last unit is of type NONE. -/
theorem witness_NotReadyCommandsFault :
    (∃ (s : State) (b : DbNum), s.fault = false ∧ s.mode = .running ∧ s.dbs[b] = none) ∧
    (∃ (s : State) (b : DbNum) (db : Db), s.fault = false ∧ s.mode = .running ∧ s.dbs[b] = some db ∧ s.p[0] = .nan) ∧
    (∃ (s : State) (u : FuNum) (ty : FuType), s.fault = false ∧ s.mode = .running ∧ s.fus[u] = none ∧
      (s.fus[u]).map Fu.type ≠ some ty) ∧
    (∃ (s : State) (u : FuNum) (ty : FuType), s.fault = false ∧ s.mode = .running ∧ s.fus[u] ≠ none ∧
      (s.fus[u]).map Fu.type ≠ some ty) ∧
    ∃ (s : State) (a b u : FuNum), s.fault = false ∧ s.mode = .running ∧ a ≤ u ∧ u ≤ b ∧ s.fus[a] ≠ none ∧
      s.fus[u] = none :=
  ⟨⟨running, 7, by decide +kernel⟩,
    ⟨withDb (withP running [.nan]) 7 dbV, 7, dbV, by decide +kernel⟩, ⟨running, 0, .ap, by decide +kernel⟩,
    ⟨withFu running 0 .ap, 0, .cb, by decide +kernel⟩, withFu running 0 .ap, 0, 1, 1, by decide +kernel⟩

/-- The widest range. -/
theorem witness_SerTickIsChainOfTicks :
    ∃ (a b : FuNum) (src : Src) (s s' : State) (x : Num), Safety.StateOk s ∧ (s.fault = false ∧ s.mode = .running ∧
      ∀ u, a ≤ u → u ≤ b → (s.fus[u]).isSome = true) ∧ s.input src = (s', x) :=
  ⟨0, 6, .r, rv1On, _, _, rv1On_good, by decide +kernel, rfl⟩
theorem witness_ParTickIsSumOfTicks :
    ∃ (a b : FuNum) (src : Src) (s s' : State) (x : Num), Safety.StateOk s ∧ (s.fault = false ∧ s.mode = .running ∧
      ∀ u, a ≤ u → u ≤ b → (s.fus[u]).isSome = true) ∧ s.input src = (s', x) :=
  ⟨0, 6, .r, rv3On, _, _, rv3On_good, by decide +kernel, rfl⟩

/-- Both ends of the range, and just outside. -/
theorem witness_MixSetSetsRatio :
    (∃ s : State, s.fault = false ∧ s.mode = .stopped ∧ s.p[0] = .val 0) ∧
    (∃ s : State, s.fault = false ∧ s.mode = .stopped ∧ s.p[0] = .val 100) ∧
    ∃ (s : State) (q : Rat), s.fault = false ∧ s.mode = .stopped ∧ s.p[0] = .val q ∧ 100 < q :=
  ⟨⟨stopped, by decide +kernel⟩, ⟨withP stopped (nums [100]), by decide +kernel⟩,
    withP stopped (nums [1001 / 10]), 1001 / 10, by decide +kernel⟩
theorem witness_MixBlendsDryAndWet :
    ∃ (src : Src) (s s' : State) (x : Num), s.fault = false ∧ s.mode = .running ∧ s.input src = (s', x) :=
  ⟨.r, running, _, _, rfl, rfl, rfl⟩
theorem witness_ClampLaws :
    (∃ v : Rat, -(9999 / 10000) ≤ v ∧ v ≤ 9999 / 10000) ∧ ∃ v w : Rat, v ≤ w :=
  ⟨⟨9999 / 10000, by norm_num⟩, 0, 1, by norm_num⟩

/-- The capacity of the effect buffer exactly `LMAX`, for each of the delay kinds. -/
theorem witness_CfgBuildsDelayUnits :
    ∃ s : State, s.fault = false ∧ s.mode = .stopped ∧ s.srate ≠ 0 ∧
      effectCapacity s s.params.maxSd ≤ s.params.lmax ∧ effectCapacity s s.params.maxDd ≤ s.params.lmax ∧
      effectCapacity s s.params.maxFd ≤ s.params.lmax :=
  ⟨{ stopped with params := { prm with lmax := 8 } }, by decide +kernel⟩

/-- The registers of V-MC2 with three modulators, and the whole-unit default when a count is 0. -/
theorem witness_CfgMcBuildsMultiChorus :
    (∃ (s : State) (q : McOperands) (nt nm : Nat), Safety.StateOk s ∧ (s.fault = false ∧ s.mode = .stopped ∧
      s.srate ≠ 0 ∧ effectCapacity s s.params.maxMc ≤ s.params.lmax ∧
      (s.p[2].passes (isInt 1 3) && s.p[6].passes (isInt 1 3)) = true ∧ q = McOperands.ofRegs s.p ∧
      q[2] = .val nt ∧ q[6] = .val nm) ∧ TableFits s q[8] ∧ TableFits s q[11] ∧ TableFits s q[14] ∧ 3 ≤ nm) ∧
    ∃ (s : State) (q : McOperands) (nt nm : Nat), Safety.StateOk s ∧ (s.fault = false ∧ s.mode = .stopped ∧
      s.srate ≠ 0 ∧ effectCapacity s s.params.maxMc ≤ s.params.lmax ∧
      (s.p[2].passes (isInt 1 3) && s.p[6].passes (isInt 1 3)) = false ∧ q = McOperands.ofDefault s.params.defs.mcCfg ∧
      q[2] = .val nt ∧ q[6] = .val nm) ∧ TableFits s q[8] ∧ nm < 2 :=
  ⟨⟨withP stopped (nums [100, 50, 2, 3, 1, 0, 3, 3, 10, 1 / 2, 3, 10, 0, 0, 10, 0, 0, 1, 1]),
      McOperands.ofRegs (withP stopped (nums [100, 50, 2, 3, 1, 0, 3, 3, 10, 1 / 2, 3, 10, 0, 0, 10, 0, 0, 1, 1])).p,
      2, 3, good _ rfl, by decide +kernel, by unfold TableFits; decide +kernel⟩,
    stopped, McOperands.ofDefault stopped.params.defs.mcCfg, 1, 1, stopped_good, by decide +kernel,
    by unfold TableFits; decide +kernel⟩
theorem witness_CfgFcBuildsFeedbackChorus :
    ∃ s : State, Safety.StateOk s ∧ (s.fault = false ∧ s.mode = .stopped ∧ s.srate ≠ 0 ∧
      effectCapacity s s.params.maxFc ≤ s.params.lmax) ∧ TableFits s s.p[4] :=
  ⟨stopped, stopped_good, by decide +kernel, by unfold TableFits; decide +kernel⟩
theorem witness_CfgRvBuildsReverb :
    ∃ s : State, s.fault = false ∧ s.mode = .stopped ∧ s.srate ≠ 0 ∧
      (∀ j, j < 6 → filterDelay s (reg s (1 + 2 * j)) + 1 ≤ s.params.lmax) ∧
      ∀ j, j < 7 → filterDelay s (reg s (1 + 3 * j)) + 1 ≤ s.params.lmax := ⟨stopped, by decide +kernel⟩
theorem witness_TickRunsDelayUnits :
    (∃ (src : Src) (s s' : State) (x : Num) (db : Db) (tap : Tap), (s.fault = false ∧ s.mode = .running ∧
      s.dbs[effectDb] = some db ∧ Safety.DbOk s.params db ∧ s.unit.kind = .sd ∧ db.taps = [tap]) ∧
      s.input src = (s', x)) ∧
    (∃ (src : Src) (s s' : State) (x : Num) (db : Db) (tap0 tap1 : Tap), (s.fault = false ∧ s.mode = .running ∧
      s.dbs[effectDb] = some db ∧ Safety.DbOk s.params db ∧ s.unit.kind = .dd ∧ db.taps = [tap0, tap1]) ∧
      s.input src = (s', x)) ∧
    ∃ (src : Src) (s s' : State) (x : Num) (db : Db) (tap : Tap), (s.fault = false ∧ s.mode = .running ∧
      s.dbs[effectDb] = some db ∧ Safety.DbOk s.params db ∧ s.unit.kind = .fd ∧ db.taps = [tap]) ∧
      s.input src = (s', x) :=
  ⟨⟨.r, sdOn, _, _, Db.alloc 8 [3], ⟨3, -3⟩, by decide +kernel, rfl⟩,
    ⟨.r, ddOn, _, _, Db.alloc 8 [1, 2], ⟨1, -1⟩, ⟨2, -2⟩, by decide +kernel, rfl⟩,
    .r, fdOn, _, _, Db.alloc 8 [2], ⟨2, -2⟩, by decide +kernel, rfl⟩
theorem witness_TickRunsMultiChorus :
    ∃ (src : Src) (s s' : State) (x : Num) (db : Db) (c : Nat → Rat), Safety.StateOk s ∧ (s.fault = false ∧
      s.mode = .running ∧ s.unit.kind = .mc ∧ s.dbs[effectDb] = some db) ∧ s.input src = (s', x) ∧
      ∀ m : ModNum, m.val < s.unit.nm → ∃ md, s.mods[m] = some md ∧ md.tab[md.idx]? = some (c m) := by
  refine ⟨.r, mcOn, _, _, Db.alloc 8 [1, 3], fun _ => 1, mcOn_good, by decide +kernel, rfl, ?_⟩
  intro m hm
  have h0 : m = 0 := Fin.ext (Nat.lt_one_iff.mp hm)
  subst h0
  exact ⟨one, rfl, rfl⟩
theorem witness_TickRunsFeedbackChorus :
    ∃ (src : Src) (s s' : State) (x : Num) (db : Db) (md : Modulator) (c : Rat) (tap : Tap), Safety.StateOk s ∧
      (s.fault = false ∧ s.mode = .running ∧ s.unit.kind = .fc ∧ s.dbs[effectDb] = some db ∧ db.taps[0]? = some tap ∧
      s.mods[0] = some md ∧ md.tab[md.idx]? = some c) ∧ s.input src = (s', x) :=
  ⟨.r, fcOn, _, _, Db.alloc 8 [2], one, 1, ⟨2, -2⟩, fcOn_good, by decide +kernel, rfl⟩

/-- Each of the three kinds. -/
theorem witness_ReverbTickIsCommandChain :
    (∃ (k : PNum) (s : State) (x : Num), Safety.StateOk s ∧ (s.fault = false ∧ s.mode = .running ∧ s.port.din = [x] ∧
      s.p[k] = x ∧ s.unitReady = true ∧ s.unit.kind = .rv1)) ∧
    (∃ (k : PNum) (s : State) (x : Num), Safety.StateOk s ∧ (s.fault = false ∧ s.mode = .running ∧ s.port.din = [x] ∧
      s.p[k] = x ∧ s.unitReady = true ∧ s.unit.kind = .rv2)) ∧
    ∃ (k : PNum) (s : State) (x : Num) (fu : Fu), Safety.StateOk s ∧ (s.fault = false ∧ s.mode = .running ∧
      s.port.din = [x] ∧ s.p[k] = x ∧ s.unitReady = true ∧ s.unit.kind = .rv3 ∧ s.fus[6] = some fu ∧ fu.type = .ap) :=
  ⟨⟨31, offering rv1On 0, .val 0, good _ rfl, by decide +kernel⟩,
    ⟨31, offering rv2On 0, .val 0, good _ rfl, by decide +kernel⟩,
    31, offering rv3On 0, .val 0, ⟨.ap, 1 / 2, 0⟩, good _ rfl, by decide +kernel⟩

/-- A unit that is there; no unit; and each reverb without its last filter unit. -/
theorem witness_ReadyUnitNeverFaults :
    (∃ s : State, Safety.StateOk s ∧ (s.fault = false ∧ s.mode = .running ∧ s.unitReady = true)) ∧
    (∃ s : State, s.fault = false ∧ s.mode = .running ∧ s.unit.kind = .none) ∧
    (∃ (s : State) (u : FuNum), s.fault = false ∧ s.mode = .running ∧ s.unit.kind = .rv1 ∧ u.val ≤ 4 ∧ s.fus[u] = none) ∧
    (∃ (s : State) (u : FuNum), s.fault = false ∧ s.mode = .running ∧ s.unit.kind = .rv2 ∧ u.val ≤ 5 ∧ s.fus[u] = none) ∧
    ∃ (s : State) (u : FuNum), s.fault = false ∧ s.mode = .running ∧ s.unit.kind = .rv3 ∧ s.fus[u] = none :=
  ⟨⟨rv2On, rv2On_good, by decide +kernel⟩, ⟨running, by decide +kernel⟩,
    ⟨{ rv1On with fus := rv1On.fus.set 4 none }, 4, by decide +kernel⟩,
    ⟨{ rv2On with fus := rv2On.fus.set 5 none }, 5, by decide +kernel⟩,
    { rv3On with fus := rv3On.fus.set 6 none }, 6, by decide +kernel⟩
theorem witness_BlockIsTicks :
    (∃ (n : BitVec 16) (s : State), Safety.StateOk s ∧ (s.fault = false ∧ s.mode = .running ∧ s.unitReady = true ∧
      s.port.din.length = n.toNat ∧ n = 1)) ∧
    ∃ (n : BitVec 16) (s : State), Safety.StateOk s ∧ (s.fault = false ∧ s.mode = .running ∧ s.unitReady = true ∧
      s.port.din.length = n.toNat ∧ n = 0) :=
  ⟨⟨1, offering fdOn 1, good _ rfl, by decide +kernel⟩, 0, fdOn, fdOn_good, by decide +kernel⟩

/-- A delay of one sample, and a delay of the whole buffer. -/
theorem witness_SingleDelayClosedForm :
    (∃ (s : State) (len : Nat), s.fault = false ∧ s.mode = .running ∧ s.unit.kind = .sd ∧
      s.dbs[effectDb] = some (Db.alloc len [1]) ∧ 1 < len) ∧
    ∃ (s : State) (len : Nat), s.fault = false ∧ s.mode = .running ∧ s.unit.kind = .sd ∧
      s.dbs[effectDb] = some (Db.alloc len [len]) ∧ 1 ≤ len :=
  ⟨⟨withDb sdOn effectDb (Db.alloc 8 [1]), 8, by decide +kernel⟩,
    withDb sdOn effectDb (Db.alloc 8 [8]), 8, by decide +kernel⟩
theorem witness_MixZeroReturnsDry :
    ∃ (s : State) (x : Rat), Safety.StateOk s ∧ (s.fault = false ∧ s.mode = .running ∧ s.unitReady = true ∧
      s.unit.kind ∈ [Kind.rv1, .rv2, .rv3] ∧ s.port.din = [.val x] ∧ s.mixr = 0) ∧ Numeric s := by
  refine ⟨{ offering rv1On 2 with mixr := 0 }, 2, good _ rfl, by decide +kernel, ?_⟩
  have h : ∀ b : DbNum, ∀ db ∈ ({ offering rv1On 2 with mixr := 0 } : State).dbs[b], db.mem = [] := by decide +kernel
  intro b db hd i
  rw [h b db hd]
  simp

end Sys2Proof.Tests
end

section
/-! PROOFS. The statements of the scope family: the reset state is good and every step keeps the good state (R9, R41,
R264); the laws of the clamps (R15, R23, R270); what `IP.CFG`, `MOD.CFG` and the filter configurations leave (R121,
R141, R161); the interpolator's reads at a wrapped position (R122, R126, R127). -/

namespace Sys2Proof.Proofs

open Sys2Proof.Machine Sys2Proof.Claims Sys2Proof.Safety

variable {s t u : State}

/-! ### The reset state -/

/-- Whatever was in the block, a reset leaves a good state when the open parameters meet R9 (R41, R310). -/
theorem toReset_stateOk (hv : ParamsOk s) : StateOk s.toReset := by
  have hcontext : ContextOk s.toReset :=
    ⟨.inl rfl, by norm_num [State.toReset, State.reset], by norm_num [State.toReset, State.reset],
      by norm_num [State.toReset, State.reset], by norm_num [State.toReset, State.reset]⟩
  have hfault : FaultOk s.toReset := ⟨fun _ => ⟨rfl, rfl⟩, nofun⟩
  have hpool : PoolOk s.toReset := poolOk_congr (s := s.clearPool) rfl rfl rfl rfl (poolOk_clearPool s)
  have hunit : UnitOk s.toReset := ⟨idle_scalars, nofun, fun _ hm => absurd hm (Nat.not_lt_zero _),
    countsOk_of_idle nofun rfl rfl⟩
  exact ⟨hv, hcontext, hfault, hpool, hunit⟩

/-- Settles O16: the reset state is the reset of itself, and its parameters meet R9. -/
theorem resetStateIsGood : Obligations.ResetStateIsGood :=
  toReset_stateOk (s := State.reset) params_valid

/-! ### Every step keeps the good state -/

/-- No command raises the cause that says there is no fault (R285, R300). -/
theorem ne_none_of_mem_ownCauses {i : Instr} {c : Cause} (h : c ∈ i.ownCauses) : c ≠ .none := by
  rintro rfl
  cases i <;> simp [Instr.ownCauses] at h

/-- In each of the ways a command ends it keeps the good state. -/
theorem ends_stateOk {i : Instr} (h : Ends i s t) (hs : StateOk s) : StateOk t := by
  obtain ⟨-, rfl⟩ | ⟨-, -, rfl⟩ | ⟨-, -, c, hc, rfl⟩ | ⟨-, -, he⟩ := h.cases
  · exact hs
  · exact raise_inv hs nofun
  · exact raise_inv hs (ne_none_of_mem_ownCauses hc)
  · exact he.inv hs

theorem exec_stateOk {i : Instr} (hs : StateOk s) (h : exec i s = .next t) : StateOk t := by
  by_cases hi : i = .reset
  · subst hi
    cases h
    exact toReset_stateOk hs.1
  · exact ends_stateOk (exec_ends hi h) hs

theorem illegal_stateOk (hs : StateOk s) (h : s.illegal = .next t) : StateOk t := by
  unfold State.illegal at h
  split at h
  · cases h; exact hs
  · cases h; exact raise_inv hs nofun

/-- Taking a command off the stream touches nothing the invariant speaks of. -/
theorem takeEvent_command_stateOk (hs : StateOk s) (h : s.takeEvent = .command u) : StateOk u := by
  unfold State.takeEvent at h
  split at h
  · cases h
  · cases h; exact inv_congr hs rfl rfl rfl rfl rfl rfl rfl rfl rfl rfl rfl
  · cases h

theorem takeEvent_hardwareReset_params (h : s.takeEvent = .hardwareReset u) : u.params = s.params := by
  unfold State.takeEvent at h
  split at h
  · cases h
  · cases h
  · cases h; rfl

/-- Settles O17: waiting, a hardware reset, an illegal word and each of the ways a command ends keep the invariant. -/
theorem stepKeepsGoodState : Obligations.StepKeepsGoodState := by
  intro s t hs h
  unfold step at h
  split at h
  case h_1 => cases h; exact hs
  case h_2 u hu =>
    cases h
    exact toReset_stateOk (by rw [ParamsOk, takeEvent_hardwareReset_params hu]; exact hs.1)
  case h_3 u hu =>
    have hgood := takeEvent_command_stateOk hs hu
    split at h
    · exact illegal_stateOk hgood h
    · exact exec_stateOk hgood h

/-! ### The clamps -/

theorem clamp9999_eq_cut (v : Rat) : clamp9999 v = cut v := by
  unfold clamp9999 cut Config.clamp
  split_ifs with hlo hhi
  · rw [max_eq_right hlo.le, min_eq_left (by norm_num)]
  · rw [max_eq_left (not_lt.mp hlo), min_eq_right hhi.le]
  · rw [max_eq_left (not_lt.mp hlo), min_eq_left (not_lt.mp hhi)]

/-- The bounds of the clamp are each other's negatives, and negation exchanges `min` and `max`. -/
theorem clamp9999_neg (v : Rat) : clamp9999 (-v) = -clamp9999 v := by
  have hbounds : -Config.clamp ≤ Config.clamp := by norm_num [Config.clamp]
  unfold clamp9999
  calc min (max (-v) (-Config.clamp)) Config.clamp
      = min (max (-v) (-Config.clamp)) (max Config.clamp (-Config.clamp)) := by rw [max_eq_left hbounds]
    _ = max (min (-v) Config.clamp) (-Config.clamp) := (max_min_distrib_right _ _ _).symm
    _ = -min (max v (-Config.clamp)) Config.clamp := by rw [← max_neg_neg, ← min_neg_neg, neg_neg]

theorem clamp9999_mono {v w : Rat} (h : v ≤ w) : clamp9999 v ≤ clamp9999 w :=
  min_le_min_right _ (max_le_max_right _ h)

theorem clamp9999_idem (v : Rat) : clamp9999 (clamp9999 v) = clamp9999 v :=
  clamp9999_of_mem (clamp9999_bounds v).1 (clamp9999_bounds v).2

/-- Settles O48, from the laws of each clamp. -/
theorem clampLaws : Obligations.ClampLaws :=
  ⟨fun p v => ⟨fun h => clampSample_of_mem h.1 h.2, clampSample_bounds p v⟩,
    fun v _ => ⟨clamp9999_eq_cut v, clamp9999_neg v, clamp9999_idem v, clamp9999_mono⟩⟩

/-! ### `IP.CFG` -/

theorem validatedPolicy_eq (v : Num) (d : Policy) :
    validatedPolicy v d = if v = .val 0 then .linear else if v = .val 1 then .bandlimited else d := by
  cases v <;> simp [validatedPolicy]

theorem ipOf_ipSet (s : State) (policy stdf newf : Num) :
    IpSet s policy stdf newf (ipOf s.params.defs policy stdf newf) :=
  ⟨validatedPolicy_eq policy _, rfl, rfl⟩

theorem passes_isPolicy (v : Num) : v.passes isPolicy = (decide (v = .val 0) || decide (v = .val 1)) := by
  cases v <;> simp [Num.passes, isPolicy]

theorem ipTests_any_not (policy stdf newf : Num) :
    (ipTests policy stdf newf).any not = !ipInRange policy stdf newf := by
  simp [ipTests, ipInRange, passes_isPolicy, Bool.or_assoc]

/-- Settles O30: the command in its mode, with `IP` and `DEFSUB` as `ipOf` and the range tests give them. -/
theorem ipCfgSetsInterpolator : Obligations.IpCfgSetsInterpolator := by
  intro s hf hm
  refine ⟨_, ipOf_ipSet s _ _ _, ?_⟩
  rw [← ipTests_any_not]
  exact command_cfg hf hm fun s =>
    .ok { s.noteSubst (ipTests s.p[0] s.p[1] s.p[2]) with ip := ipOf s.params.defs s.p[0] s.p[1] s.p[2] }

/-! ### The interpolator's reads -/

theorem floorMod_of_wrapped {q w : Rat} {len : Nat} (hl : 1 ≤ len) (h : Wrapped q len w) : floorMod q len = w :=
  (floorMod_eq_iff hl).mpr h

theorem natCast_cellOf {w : Rat} (h : 0 ≤ w) : ((cellOf w : Nat) : Int) = floorInt w :=
  Int.toNat_of_nonneg (floorInt_nonneg h)

theorem linear_of_wrapped {db : Db} {q w : Rat} (hl : 1 ≤ db.len) (h : Wrapped q db.len w) :
    db.linear q = lineAt db w := by
  have hcell : ((cellOf w : Nat) : Rat) = (floorInt w : Rat) := by exact_mod_cast natCast_cellOf h.1
  unfold Db.linear
  simp only [floorMod_of_wrapped hl h, ← hcell]
  rfl

theorem kernel_eq_kernelAt (ip : Ip) (i : Int) : ip.kernel i = kernelAt ip i := by
  unfold Ip.kernel kernelAt
  rw [min_comm, min_def, min_def]

/-- The kernel's offsets are those of R126: -255 to 256. -/
theorem kernelOffsets_eq : kernelOffsets = (List.range 512).map fun k : Nat => (k : Int) - 255 := by
  unfold kernelOffsets
  refine List.map_congr_left fun k _ => ?_
  simp only [Config.halfWidth]
  omega

theorem bandlimited_of_wrapped {db : Db} {ip : Ip} {q w : Rat} (hl : 1 ≤ db.len) (h : Wrapped q db.len w) :
    db.bandlimited ip q = kernelSum db ip w.floor.toNat := by
  have hcell : floorInt w = ((w.floor.toNat : Nat) : Int) := (natCast_cellOf h.1).symm
  unfold Db.bandlimited kernelSum
  simp only [floorMod_of_wrapped hl h, hcell, kernelOffsets_eq, List.foldl_map, kernel_eq_kernelAt]
  rfl

theorem interp_of_wrapped {db : Db} {ip : Ip} {q w : Rat} (hl : 1 ≤ db.len) (h : Wrapped q db.len w) :
    db.interp ip q = readAt db ip w := by
  unfold Db.interp readAt
  simp only [floorMod_of_wrapped hl h, truncInt_of_nonneg h.1, linear_of_wrapped hl h, bandlimited_of_wrapped hl h]
  cases ip.policy <;> rfl

/-- A data command that puts out what it reads of one allocated buffer at the position `P[0]`. -/
theorem command_readAt {b : DbNum} {db : Db} {q : Rat} (hf : s.fault = false) (hm : s.mode = .running)
    (hd : s.dbs[b] = some db) (hp : s.p[0] = .val q) (read : State → Db → Rat → Num) :
    s.command .data (fun s => do
      let db ← s.buffer b
      let pos ← anyNumber s.p[0]
      .ok (s.out (read s db pos))) = .next (shown s (read s db q)) := by
  rw [command_data hf hm, buffer_ok_iff.mpr hd, hp]
  rfl

/-- Settles O31: each read at `P[0]` is the read at its wrapped position. -/
theorem interpolatedReads : Obligations.InterpolatedReads := by
  intro b s db q w hf hm hd hp hl hw
  rw [← linear_of_wrapped hl hw, ← bandlimited_of_wrapped hl hw, ← interp_of_wrapped hl hw]
  exact ⟨command_readAt hf hm hd hp fun _ db pos => db.linear pos,
    command_readAt hf hm hd hp fun s db pos => db.bandlimited s.ip pos,
    command_readAt hf hm hd hp fun s db pos => db.interp s.ip pos⟩

/-! ### `MOD.CFG` -/

/-- In a good state a modulator's period `SRATE / freq` is not negative. -/
theorem period_nonneg (hs : StateOk s) (fr : Num) :
    0 ≤ s.srate / validated fr (inCC (1 / 2) 10) s.params.defs.freq := by
  obtain ⟨hv, hc, -⟩ := hs
  obtain ⟨-, -, -, -, -, -, -, -, -, -, -, -, -, -, -, ⟨hfreq, -⟩, -⟩ := hv
  have hf : inFreq (validated fr (inCC (1 / 2) 10) s.params.defs.freq) :=
    validated_spec (good := inFreq) (fun _ => inCC_iff.mp) hfreq
  exact div_nonneg (srate_nonneg hc.1) (by linarith [hf.1])

theorem tableLength_eq_tableEntries (hs : StateOk s) (fr : Num) : tableLength s fr = tableEntries s fr := by
  unfold tableLength roundInt
  rw [if_pos (period_nonneg hs fr)]
  rfl

theorem waveTable_getElem? (p : Params) (shape : Shape) (depth : Rat) {i n : Nat} (hi : i < n) :
    (waveTable p shape n depth)[i]? = some (wave p shape i n depth) := by
  simp [waveTable, hi]

theorem modulatorOf_length (s : State) (sh fr dp : Num) :
    (modulatorOf s sh fr dp).tab.length = (tableLength s fr).toNat := waveTable_length ..

theorem modulatorOf_built (hs : StateOk s) {sh fr dp : Num} (hfit : TableFits s fr) :
    Built s sh fr dp (modulatorOf s sh fr dp) where
  shape_eq := rfl
  freq_eq := rfl
  depth_eq := rfl
  length_eq := by
    rw [modulatorOf_length, tableLength_eq_tableEntries hs, Int.toNat_of_nonneg (by linarith [hfit.1])]
    rfl
  entries i hi := by
    rw [modulatorOf_length] at hi ⊢
    exact waveTable_getElem? _ _ _ hi
  idx_eq := rfl

theorem modTests_any_not (sh fr dp : Num) : (modTests sh fr dp).any not = !modInRange sh fr dp := by
  simp [modTests, modInRange, Bool.or_assoc]

/-- Settles O34: with a length that fits, `modcfg` puts the modulator of its operands into the file. -/
theorem modCfgBuildsTable : Obligations.ModCfgBuildsTable := by
  intro m s hs hf hm hrate hfit
  refine ⟨_, modulatorOf_built hs hfit, ?_⟩
  rw [← modTests_any_not]
  have hbody := modcfg_ok_iff (m := m) (sh := s.p[0]) (dp := s.p[2]) |>.mpr ⟨hrate,
    by rw [tableLength_eq_tableEntries hs]; exact hfit.1, by rw [tableLength_eq_tableEntries hs]; exact hfit.2, rfl⟩
  exact (command_cfg hf hm _).trans (by rw [hbody]; rfl)

/-! ### Filter configuration -/

theorem alloc_fresh (len : Nat) (ds : List Nat) : Fresh (Db.alloc len ds) len ds :=
  ⟨rfl, fun _ => rfl, memory_empty_wf, rfl, rfl⟩

/-- The second decay is an operand of a LowPassComb only, so the others' is not looked at (R161). -/
theorem secondDecay_eq (ty : FuType) (pct2 : Num) (d : Defaults) :
    secondDecay ty pct2 d = if ty = .lpc then validated pct2 (inCO 0 100) d.fuDecay2 / 100 else 0 := by
  cases ty <;> rfl

theorem fuDelays_succ (ty : FuType) (d : Nat) : fuDelays ty (d + 1) = if ty = .lpc then [d, d + 1] else [d] := by
  cases ty <;> rfl

theorem fuTests_any_not (s : State) (ty : FuType) (ms pct1 pct2 : Num) :
    (fuTests ty s.params.maxFu ms pct1 pct2).any not = !filterInRange s ty ms pct1 pct2 := by
  cases ty <;> simp [fuTests, filterInRange, Bool.or_assoc]

/-- With a rate and a capacity that fits, `fucfg` leaves the unit and the buffer of R161. -/
theorem fucfg_of_fits (u : FuNum) (ty : FuType) {ms pct1 pct2 : Num} (hrate : s.srate ≠ 0)
    (hcap : filterDelay s ms + 1 ≤ s.params.lmax) :
    ∃ fu db, FilterSet s ty ms pct1 pct2 fu db ∧ fucfg u ty ms pct1 pct2 s = .ok { s with
      dbs := s.dbs.set (filterDb u) db, fus := s.fus.set u fu
      defsub := s.defsub || !filterInRange s ty ms pct1 pct2 } := by
  refine ⟨_, _, ⟨rfl, _, rfl, alloc_fresh _ _⟩, fucfg_ok_iff.mpr ⟨hrate, hcap, ?_⟩⟩
  rw [← fuTests_any_not, ← secondDecay_eq, ← fuDelays_succ]
  rfl

/-- Settles O39: each of the three commands is `fucfg` with its type, a second decay being read by `LPC.CFG` alone. -/
theorem filterCfgBuildsUnit : Obligations.FilterCfgBuildsUnit := by
  intro u ty i s hf hm hrate hcap hi
  have hexec : exec i s = s.command .cfg fun s => fucfg u ty s.p[0] s.p[1] s.p[2] s := by
    subst hi
    cases ty <;> rfl
  obtain ⟨fu, db, hset, hbody⟩ := fucfg_of_fits u ty (pct1 := s.p[1]) (pct2 := s.p[2]) hrate hcap
  exact ⟨fu, db, hset, by rw [hexec, command_cfg hf hm, hbody, settle_ok]⟩

end Sys2Proof.Proofs
end

section
/-! PROOFS. The statements of the state family: a step runs the decoded command (R20, R262); reset and the layout of
`STATUS` (R33, R41, R310); who writes which register and flag, and that a data command reconfigures nothing (R22 to R33,
R263); the parameter loads (R252, R253); `TICK` of the basic delay units (R182, R185, R187). -/

namespace Sys2Proof.Proofs

open Sys2Proof.Machine Sys2Proof.Claims Sys2Proof.Safety

variable {s : State}

/-! ### Steps -/

theorem takeEvent_of_command {ports : Ports} {rest : List HostEvent} (h : s.pending = .command ports :: rest) :
    s.takeEvent = .command { s with port := ports, pending := rest, dout := [] } := by
  simp only [State.takeEvent, h]

theorem takeEvent_of_hardwareReset {rest : List HostEvent} (h : s.pending = .hardwareReset :: rest) :
    s.takeEvent = .hardwareReset { s with pending := rest, dout := [] } := by
  simp only [State.takeEvent, h]

/-- Settles O5: the command is taken off the stream, and its word decodes to `i`. -/
theorem stepRunsDecodedCommand : Obligations.StepRunsDecodedCommand := by
  intro s ports rest i hp hd
  simp only [step, takeEvent_of_command hp, hd]

/-- A hardware reset does what the command `RESET` does (R310). -/
theorem step_of_hardwareReset {rest : List HostEvent} (h : s.pending = .hardwareReset :: rest) :
    step s = exec .reset { s with pending := rest, dout := [] } := by
  simp only [step, takeEvent_of_hardwareReset h]
  rfl

/-! ### Reset and the status port -/

theorem toReset_statusPort (s : State) : s.toReset.statusPort = (0, 0) := by
  have hreset : State.reset.statusPort = (0, 0) := by decide
  exact hreset

/-- Settles O7: `toReset` writes the values of R41, and a hardware reset is a `RESET` at the event taken. -/
theorem resetGivesResetValues : Obligations.ResetGivesResetValues :=
  ⟨fun _ => rfl, fun _ _ h => ⟨step_of_hardwareReset h, _, step_of_hardwareReset h, toReset_statusPort _⟩⟩

/-- The number of two fields side by side. -/
theorem toNat_append_eq_add {m n : Nat} (x : BitVec m) (y : BitVec n) :
    (x ++ y).toNat = x.toNat * 2 ^ n + y.toNat := by
  rw [BitVec.toNat_append, ← Nat.shiftLeft_add_eq_or_of_lt y.isLt, Nat.shiftLeft_eq]

theorem mode_bit_toNat (m : Mode) : m.bit.toNat = if m = .running then 1 else 0 := by
  cases m <;> rfl

/-- Settles O15: the number of `STATUS` is the sum of its fields at their places; the codes are by evaluation. -/
theorem statusLayout : Obligations.StatusLayout := by
  refine ⟨fun s => ?_, rfl, rfl⟩
  have hplace (b : Bool) (n : Nat) : (if b then n else 0) = b.toNat * n := by cases b <;> simp
  simp only [State.status, toNat_append_eq_add, mode_bit_toNat, BitVec.toNat_ofBool, BitVec.ofNat_eq_ofNat,
    BitVec.toNat_ofNat, Nat.zero_mod, hplace]
  ring

/-! ### Who writes what -/

/-- Settles O12: a command that is ignored or faults writes none of them; for one that takes effect `Effect` says it. -/
theorem writersOfRegistersAndFlags : Obligations.WritersOfRegistersAndFlags := by
  intro i s t h hi
  obtain ⟨-, rfl⟩ | ⟨-, -, rfl⟩ | ⟨-, -, c, -, rfl⟩ | ⟨-, -, he⟩ := (exec_ends hi h).cases
  · simp
  · simp
  · simp
  · exact ⟨he.p, he.srate, he.mode, he.warm, he.exh, he.defsub⟩

/-- Of a modulator, its table without the index holds all that is configured (R30). -/
theorem modulator_fields_of_table {x y : Option Modulator} (h : x.map Modulator.table = y.map Modulator.table) :
    x.map (fun d => (d.shape, d.freq, d.depth, d.tab)) = y.map fun d => (d.shape, d.freq, d.depth, d.tab) := by
  have hfields := congrArg (Option.map fun d => (d.shape, d.freq, d.depth, d.tab)) h
  rw [Option.map_map, Option.map_map] at hfields
  exact hfields

/-- Settles O14: a data command is no configuration command, so its effect leaves the pool's shapes and tables. -/
theorem dataCommandsAllocateNothing : Obligations.DataCommandsAllocateNothing := by
  intro i s t hcls h
  have hi : i ≠ .reset := by rintro rfl; cases hcls
  obtain ⟨-, rfl⟩ | ⟨-, -, rfl⟩ | ⟨-, -, c, -, rfl⟩ | ⟨-, -, he⟩ := (exec_ends hi h).cases
  · simp
  · simp
  · simp
  · obtain ⟨hshapes, htables, hfus, hip, hmixr, hunit⟩ := he.pool (by rw [hcls]; nofun)
    exact ⟨hshapes, fun m => modulator_fields_of_table (htables m), hfus, hunit, hip, hmixr, he.params⟩

/-! ### Parameter loads -/

theorem dinAt_of_offered {k : Nat} {v : Num} (h : s.port.din[k]? = some v) : s.dinAt k = (s, v) := by
  simp only [State.dinAt, h]

theorem dinAt_of_not_offered {k : Nat} (h : s.port.din[k]? = none) : s.dinAt k = s.draw := by
  simp only [State.dinAt, h]

theorem exec_pld (k : PNum) (hf : s.fault = false) :
    exec (.pld k) s = .next ((s.dinAt 0).1.setP k (s.dinAt 0).2) := by
  simp only [exec, execPld, command_legal hf (legalIn_any _), settle_ok]

theorem exec_pmv (k : PNum) (hf : s.fault = false) : exec (.pmv k) s = .next (s.setP k s.r) := by
  simp only [exec, execPmv, command_legal hf (legalIn_any _), settle_ok]

/-- Settles O19, by what stands on `DIN`. -/
theorem loadsWriteOneParameter : Obligations.LoadsWriteOneParameter := by
  intro k s hf
  refine ⟨fun v rest hd => ?_, fun hd => ⟨Config.free s.draws, ?_⟩, exec_pmv k hf⟩
  · rw [exec_pld k hf, dinAt_of_offered (v := v) (by simp [hd])]
    rfl
  · rw [exec_pld k hf, dinAt_of_not_offered (by simp [hd])]
    rfl

/-! ### One sample through a buffer -/

theorem delayed_eq_tapval (db : Db) (tap : Tap) : delayed db tap = db.tapval tap := by
  unfold delayed
  by_cases h : tap.rp < 0
  · rw [if_pos h, Db.tapval_cold h]
  · rw [if_neg h, Db.tapval_warm (not_lt.mp h)]

theorem addDelayed_eq_addTap (acc : Num) (weight : Rat) (d : Option Num) :
    addDelayed acc weight d = addTap acc weight d := by
  cases d <;> rfl

/-- A pointer inside the buffer, or in warm-up, advances to the next one (R29). -/
theorem advance_eq_nextRp {len : Nat} {tap : Tap} (hl : 1 ≤ len) (h : TapOk len tap) :
    tap.advance len = ⟨tap.delay, nextRp len tap.rp⟩ := by
  obtain ⟨-, -, hlt⟩ := h
  unfold Tap.advance nextRp
  congr 1
  by_cases hcold : tap.rp < 0
  · rw [if_pos hcold, if_neg (by omega)]
  · rw [if_neg hcold]
    by_cases hlast : tap.rp + 1 = (len : Int)
    · rw [if_pos hlast, hlast, Int.emod_self]
    · rw [if_neg hlast, Int.emod_eq_of_lt (by omega) (by omega)]

/-- A write moves `wp` on, from the last cell to the first (R101). -/
theorem write_stored {p : Params} {db : Db} (h : DbOk p db) (v : Num) : Stored db (db.write v) v where
  len_eq := rfl
  cells := Db.write_cell h v
  canonical := (Db.write_ok h v).2.2.2.1
  wp_eq := by
    obtain ⟨-, -, hwp, -⟩ := h
    rw [Db.write_wp]
    by_cases hlast : db.wp + 1 = db.len
    · rw [if_pos hlast, hlast, Nat.mod_self]
    · rw [if_neg hlast, Nat.mod_eq_of_lt (by omega)]

theorem write_advance_pushed {p : Params} {db : Db} (h : DbOk p db) (v : Num) :
    Pushed db (db.write v).advance v where
  toStored :=
    have hw := write_stored h v
    ⟨hw.len_eq, hw.cells, hw.canonical, hw.wp_eq⟩
  taps_eq := by
    obtain ⟨hl, -, -, -, -, -, htaps⟩ := h
    exact List.map_congr_left fun tap ht => advance_eq_nextRp hl (htaps tap ht)

/-! ### `TICK` of the basic delay units -/

/-- A raw result put out through `clampS`, with `EXH` latched after it. -/
theorem clampS_out_clamped (s : State) (raw : Num) :
    Clamped { s with exh := s.port.srcExh } raw (clampSample s.params)
      ((s.clampS raw).1.out (s.clampS raw).2).latchExh := by
  cases raw with
  | val q => exact ⟨fun _ h => by cases h; rfl, nofun⟩
  | nan => exact ⟨nofun, fun _ => ⟨_, rfl⟩⟩

/-- `TICK` of a ready unit whose arm pushes one value through the effect buffer and clamps a raw result. -/
theorem exec_tick_of_push {src : Src} {s' : State} {x v raw : Num} {db : Db} (hf : s.fault = false)
    (hm : s.mode = .running) (hr : s.unitReady = true) (hok : DbOk s.params db) (hin : s.input src = (s', x))
    (harm : unitTick x s' = .ok ((s'.setDb effectDb (db.write v).advance).clampS raw)) :
    ∃ t db', exec (.tick src) s = .next t ∧ Pushed db db' v ∧
      Clamped { s' with dbs := s.dbs.set effectDb (some db'), exh := s.port.srcExh } raw (clampSample s.params) t := by
  obtain ⟨hstep, hdbs, -⟩ := input_keeps hin
  refine ⟨_, _, execTick_of_unitTick hf hm hr hin harm, write_advance_pushed hok v, ?_⟩
  rw [← hdbs, ← hstep.port, ← hstep.params]
  exact clampS_out_clamped _ raw

theorem tap_zero {db : Db} {tap : Tap} {rest : List Tap} (h : db.taps = tap :: rest) : db.tap 0 = .ok tap :=
  tap_ok_iff.mpr (by rw [h]; rfl)

theorem tap_one {db : Db} {tap0 tap1 : Tap} {rest : List Tap} (h : db.taps = tap0 :: tap1 :: rest) :
    db.tap 1 = .ok tap1 :=
  tap_ok_iff.mpr (by rw [h]; rfl)

theorem unitTick_sd {x : Num} {db : Db} {tap : Tap} (hk : s.unit.kind = .sd) (hd : s.dbs[effectDb] = some db)
    (ht : db.taps = [tap]) :
    unitTick x s = .ok ((s.setDb effectDb (db.write x).advance).clampS
      (addDelayed (times s.unit.dry x) s.unit.wet1 (delayed db tap))) := by
  simp only [unitTick, hk, tickSd, buffer_ok_iff.mpr hd, tap_zero ht, ok_bind, delayed_eq_tapval, addDelayed_eq_addTap]
  rfl

theorem unitTick_dd {x : Num} {db : Db} {tap0 tap1 : Tap} (hk : s.unit.kind = .dd) (hd : s.dbs[effectDb] = some db)
    (ht : db.taps = [tap0, tap1]) :
    unitTick x s = .ok ((s.setDb effectDb (db.write x).advance).clampS
      (addDelayed (addDelayed (times s.unit.dry x) s.unit.wet1 (delayed db tap0)) s.unit.wet2 (delayed db tap1))) := by
  simp only [unitTick, hk, tickDd, buffer_ok_iff.mpr hd, tap_zero ht, tap_one ht, ok_bind, delayed_eq_tapval,
    addDelayed_eq_addTap]
  rfl

theorem unitTick_fd {x : Num} {db : Db} {tap : Tap} (hk : s.unit.kind = .fd) (hd : s.dbs[effectDb] = some db)
    (ht : db.taps = [tap]) :
    unitTick x s = .ok ((s.setDb effectDb (db.write (addDelayed x s.unit.g (delayed db tap))).advance).clampS
      (times s.unit.gain (addDelayed x s.unit.g (delayed db tap)))) := by
  simp only [unitTick, hk, tickFd, buffer_ok_iff.mpr hd, tap_zero ht, ok_bind, delayed_eq_tapval, addDelayed_eq_addTap]
  rfl

/-- Settles O53: each kind is ready by its kind alone, and its arm pushes one value through the effect buffer. -/
theorem tickRunsDelayUnits : Obligations.TickRunsDelayUnits := by
  intro src s s' x db hf hm hd hok hin
  obtain ⟨hstep, hdbs, -⟩ := input_keeps hin
  rw [← hdbs] at hd
  refine ⟨fun tap hk ht => ?_, fun tap0 tap1 hk ht => ?_, fun tap hk ht => ?_⟩
  all_goals
    refine exec_tick_of_push hf hm (by simp only [State.unitReady, hk]) hok hin ?_
    rw [← hstep.unit] at hk ⊢
  · exact unitTick_sd hk hd ht
  · exact unitTick_dd hk hd ht
  · exact unitTick_fd hk hd ht

end Sys2Proof.Proofs
end

section
/-! PROOFS. The statements of the memory family: one sample through a filter primitive of each type (R163, R165,
R167). -/

namespace Sys2Proof.Proofs

open Sys2Proof.Machine Sys2Proof.Claims Sys2Proof.Safety

variable {s s' : State} {u : FuNum} {src : Src} {x : Num} {fu : Fu} {db : Db}

/-! ### The sample of each type, in the words of the statements -/

theorem apSample_fst (g : Rat) (d : Option Num) (x : Num) : (apSample g d x).1 = addDelayed x g d := by
  cases d <;> rfl

theorem apSample_snd_none (g : Rat) (x : Num) : (apSample g none x).2 = times (-g) x := rfl

theorem apSample_snd_some (g : Rat) (d x : Num) :
    (apSample g (some d) x).2 = (times (-g) (addDelayed x g (some d))).add d := rfl

theorem cbSample_eq (g : Rat) (d : Option Num) (x : Num) :
    cbSample g d x = (addDelayed x g d, times (-g) (addDelayed x g d)) := by
  cases d <;> rfl

theorem lpcSample_snd (g1 g2 : Rat) (d0 d1 : Option Num) (x : Num) :
    (lpcSample g1 g2 d0 d1 x).2 = times (-g1) (lpcSample g1 g2 d0 d1 x).1 := rfl

theorem sample_ap {tap : Tap} (hty : fu.type = .ap) (ht : db.taps[0]? = some tap) (x : Num) :
    fu.sample db x = .ok (apSample fu.g1 (delayed db tap) x) := by
  simp only [Fu.sample, tap_ok_iff.mpr ht, ok_bind, hty, delayed_eq_tapval]

theorem sample_cb {tap : Tap} (hty : fu.type = .cb) (ht : db.taps[0]? = some tap) (x : Num) :
    fu.sample db x = .ok (cbSample fu.g1 (delayed db tap) x) := by
  simp only [Fu.sample, tap_ok_iff.mpr ht, ok_bind, hty, delayed_eq_tapval]

theorem sample_lpc {tap0 tap1 : Tap} (hty : fu.type = .lpc) (ht0 : db.taps[0]? = some tap0)
    (ht1 : db.taps[1]? = some tap1) (x : Num) :
    fu.sample db x = .ok (lpcSample fu.g1 fu.g2 (delayed db tap0) (delayed db tap1) x) := by
  simp only [Fu.sample, tap_ok_iff.mpr ht0, tap_ok_iff.mpr ht1, ok_bind, hty, delayed_eq_tapval]

/-! ### The tick command of a filter unit -/

/-- A raw result put out through `clamp9999`. -/
theorem clampFilter_out_clamped (s : State) (raw : Num) :
    Clamped s raw cut ((s.clampFilter raw).1.out (s.clampFilter raw).2) := by
  cases raw with
  | val q => exact ⟨fun _ h => by cases h; rw [← clamp9999_eq_cut]; rfl, nofun⟩
  | nan => exact ⟨nofun, fun _ => ⟨_, rfl⟩⟩

theorem exec_tickOf (ty : FuType) (u : FuNum) (src : Src) (s : State) :
    exec (tickOf ty u src) s = s.command .data (tickOfType ty u src) := by
  cases ty <;> rfl

/-- The tick of a configured unit takes its input, ticks the unit on it and puts the result out (R162). -/
theorem exec_tickOf_of_futick {t : State} {y : Num} (hf : s.fault = false) (hm : s.mode = .running)
    (hu : s.fus[u] = some fu) (hin : s.input src = (s', x)) (htick : futick u x s' = .ok (t, y)) :
    exec (tickOf fu.type u src) s = .next (t.out y) := by
  simp only [exec_tickOf, command_data hf hm, tickOfType, filter_ok_iff.mpr hu, decide_true, require_true, ok_bind, hin,
    htick, settle_ok]

/-- The tick of a unit of whichever type: the stored value of its sample goes into its buffer, the raw one through the
clamp to the output (R74, R160). -/
theorem exec_tickOf_of_sample {r : Num × Num} (hf : s.fault = false) (hm : s.mode = .running)
    (hu : s.fus[u] = some fu) (hd : s.dbs[filterDb u] = some db) (hok : DbOk s.params db)
    (hin : s.input src = (s', x)) (hs : fu.sample db x = .ok r) :
    ∃ t db', exec (tickOf fu.type u src) s = .next t ∧ Pushed db db' r.1 ∧
      Clamped { s' with dbs := s.dbs.set (filterDb u) (some db') } r.2 cut t := by
  obtain ⟨hstep, hdbs, -⟩ := input_keeps hin
  have htick : futick u x s' = .ok ((s'.setDb (filterDb u) (db.write r.1).advance).clampFilter r.2) :=
    futick_ok_iff.mpr ⟨fu, db, r.1, r.2, by rw [hstep.fus, hu], by rw [hdbs, hd], hs, rfl⟩
  refine ⟨_, _, exec_tickOf_of_futick hf hm hu hin htick, write_advance_pushed hok r.1, ?_⟩
  rw [← hdbs]
  exact clampFilter_out_clamped _ r.2

/-- Settles O40: the two values of an Allpass sample, the raw one by whether the tap is warm. -/
theorem apTickRunsAllpass : Obligations.ApTickRunsAllpass := by
  intro u src s s' x fu db tap hf hm hu hty hd hok ht hin
  obtain ⟨t, db', hexec, hpush, hclamp⟩ := exec_tickOf_of_sample hf hm hu hd hok hin (sample_ap hty ht x)
  rw [hty] at hexec
  refine ⟨t, db', _, _, hexec, apSample_fst .., fun hcold => ?_, fun d hwarm => ?_, hpush, hclamp⟩
  · rw [hcold, apSample_snd_none]
  · rw [hwarm, apSample_fst, apSample_snd_some]

/-- Settles O41: a Comb puts out what it stores, with weight `-g`. -/
theorem cbTickRunsComb : Obligations.CbTickRunsComb := by
  intro u src s s' x fu db tap hf hm hu hty hd hok ht hin
  obtain ⟨t, db', hexec, hpush, hclamp⟩ := exec_tickOf_of_sample hf hm hu hd hok hin (sample_cb hty ht x)
  rw [hty] at hexec
  rw [cbSample_eq] at hpush hclamp
  exact ⟨t, db', _, hexec, rfl, hpush, hclamp⟩

/-- Settles O42: the value a LowPassComb stores, by which of its two taps are warm. -/
theorem lpcTickRunsLowPassComb : Obligations.LpcTickRunsLowPassComb := by
  intro u src s s' x fu db tap0 tap1 hf hm hu hty hd hok ht0 ht1 hin
  obtain ⟨t, db', hexec, hpush, hclamp⟩ := exec_tickOf_of_sample hf hm hu hd hok hin (sample_lpc hty ht0 ht1 x)
  rw [hty] at hexec
  rw [lpcSample_snd] at hclamp
  refine ⟨t, db', _, hexec, fun hcold => ?_, fun d0 hwarm hcold => ?_, fun d0 d1 hwarm0 hwarm1 => ?_, hpush, hclamp⟩
  · rw [hcold]; rfl
  · rw [hwarm, hcold]; rfl
  · rw [hwarm0, hwarm1]; rfl

end Sys2Proof.Proofs
end

section
/-! PROOFS. The statements of the encoding family: the decoder and the encoder undo each other (R83, R85, R87), the
illegal words are those whose fields are of no row (R86), an illegal word faults (R284), and the input sample (R84). -/

namespace Sys2Proof.Proofs

open Sys2Proof.Machine Sys2Proof.Claims

variable {w : CmdWord} {i : Instr} {s : State}

/-! ### The decoder gives back every command -/

/-- Whatever the command, its word carries the opcode of its row (R85). -/
theorem opcField_encode (i : Instr) : opcField (encode i) = Laws.OpcodeOf.opcode i := by
  cases i with
  | pld | pmv | mix => exact opcField_wordOfK ..
  | _ => exact opcField_wordOf ..

section
variable {o : BitVec 8}

theorem formatZ_wordOf : formatZ (wordOf o 0 0 0) i = .ok i :=
  formatZ_ok_iff.mpr ⟨by rw [opcField_wordOf], rfl⟩

theorem formatK_wordOfK {f : PNum → Instr} {k : PNum} : formatK (wordOfK o k 0) f = .ok (f k) :=
  formatK_ok_iff.mpr ⟨k, by rw [opcField_wordOfK], rfl⟩

theorem formatKS_wordOfK {f : PNum → Src → Instr} {k : PNum} {src : Src} :
    formatKS (wordOfK o k src.bit) f = .ok (f k src) :=
  formatKS_ok_iff.mpr ⟨k, src, by rw [opcField_wordOfK], rfl⟩

theorem formatA_wordOf {n : Nat} (hn : n ≤ 16) {f : Fin n → Instr} {x : Fin n} :
    formatA n (wordOf o (num4 x) 0 0) f = .ok (f x) :=
  (formatA_ok_iff hn).mpr ⟨x, by rw [opcField_wordOf], rfl⟩

theorem formatAB_wordOf {f : DbNum → TapNum → Instr} {b : DbNum} {t : TapNum} :
    formatAB (wordOf o (num4 b) (num4 t) 0) f = .ok (f b t) :=
  formatAB_ok_iff.mpr ⟨b, t, by rw [opcField_wordOf], rfl⟩

theorem formatABCount_wordOf {f : DbNum → TapCount → Instr} {b : DbNum} {nt : TapCount} :
    formatABCount (wordOf o (num4 b) (num4 nt) 0) f = .ok (f b nt) :=
  formatABCount_ok_iff.mpr ⟨b, nt, by rw [opcField_wordOf], rfl⟩

theorem formatAS_wordOf {n : Nat} (hn : n ≤ 16) {f : Fin n → Src → Instr} {x : Fin n} {src : Src} :
    formatAS n (wordOf o (num4 x) 0 src.bit) f = .ok (f x src) :=
  (formatAS_ok_iff hn).mpr ⟨x, src, by rw [opcField_wordOf], rfl⟩

theorem formatABS_wordOf {pad : Nat} {imm : BitVec 16} (himm : imm >>> pad = 0) {f : FuNum → FuNum → Instr}
    {a b : FuNum} (hab : a ≤ b) : formatABS pad (wordOf o (num4 a) (num4 b) imm) f = .ok (f a b) :=
  formatABS_ok_iff.mpr
    ⟨a, b, hab, by rw [immField_wordOf, himm], by rw [opcField_wordOf, immField_wordOf], rfl⟩

theorem formatS_wordOf {f : Src → Instr} {src : Src} : formatS (wordOf o 0 0 src.bit) f = .ok (f src) :=
  formatS_ok_iff.mpr ⟨src, by rw [opcField_wordOf], rfl⟩

theorem formatN_wordOf {f : BitVec 16 → Instr} {n : BitVec 16} : formatN (wordOf o 0 0 n) f = .ok (f n) :=
  formatN_ok_iff.mpr ⟨n, by rw [opcField_wordOf], rfl⟩

theorem formatG_wordOf {k : BitVec 4} (hk : (k, i) ∈ kindCommands) : formatG (wordOf o k 0 0) = .ok i :=
  formatG_ok_iff.mpr ⟨k, hk, by rw [opcField_wordOf]⟩

end

/-- Only the `S` bit of `IMM` is used by a command that takes an input sample. -/
theorem src_bit_shift (src : Src) : src.bit >>> 1 = 0 := by
  cases src <;> rfl

theorem engineImm_shift (src : Src) (c : Bool) : engineImm src c >>> 2 = 0 := by
  cases src <;> cases c <;> rfl

theorem encode_parTick (a b : FuNum) (src : Src) (c : Bool) :
    encode (.parTick a b src c) = wordOf 0x51 (num4 a) (num4 b) (engineImm src c) := rfl

/-- Settles O1: the opcode of the word picks the command's row, and the row's format reads its own operands back. -/
theorem decodeUndoesEncode : Obligations.DecodeUndoesEncode := by
  intro i hwf
  unfold decode
  rw [opcField_encode]
  cases i with
  | nop | reset | ctxSet | start | stop | ipCfg | mixSet => exact formatZ_wordOf
  | pld | pmv => exact formatK_wordOfK
  | mix => exact formatKS_wordOfK
  | dbAdv | dbPeek | ipLin | ipBl | ipRd | modCfg | modNext | apCfg | cbCfg | lpcCfg =>
    exact formatA_wordOf (by norm_num)
  | dbRd | dbMpos => exact formatAB_wordOf
  | dbAlloc => exact formatABCount_wordOf
  | dbWr | apTick | cbTick | lpcTick => exact formatAS_wordOf (by norm_num)
  | serTick a b src =>
    refine (formatABS_wordOf (src_bit_shift src) (of_decide_eq_true hwf)).trans ?_
    simp only [encode, srcField_wordOf]
  | parTick a b src c =>
    obtain ⟨hsrc, hclamp⟩ := engine_fields 0x51 (num4 a) (num4 b) src c
    refine (formatABS_wordOf (engineImm_shift src c) (of_decide_eq_true hwf)).trans ?_
    simp only [encode_parTick, hsrc, hclamp]
  | tick => exact formatS_wordOf
  | block => exact formatN_wordOf
  | cfgSd | cfgDd | cfgFd | cfgMc | cfgFc | cfgRv1 | cfgRv2 | cfgRv3 => exact formatG_wordOf (by decide)

/-! ### A legal word is its command's word -/

/-- The word a format asks for, with the opcode that picked the row. -/
theorem wordOf_of_opcode {o : BitVec 8} {a b : BitVec 4} {imm : BitVec 16} (ho : (opcField w).toNat = o.toNat)
    (hw : w = wordOf (opcField w) a b imm) : wordOf o a b imm = w := by
  rw [← BitVec.eq_of_toNat_eq ho, ← hw]

theorem wordOfK_of_opcode {o : BitVec 8} {k : PNum} {imm : BitVec 16} (ho : (opcField w).toNat = o.toNat)
    (hw : w = wordOfK (opcField w) k imm) : wordOfK o k imm = w := by
  rw [← BitVec.eq_of_toNat_eq ho, ← hw]

/-- The commands of format G are well formed, and their words carry their kinds (R37). -/
theorem encode_kindCommands {k : BitVec 4} (h : (k, i) ∈ kindCommands) :
    i.wf = true ∧ encode i = wordOf 0x60 k 0 0 := by
  have hall : ∀ p ∈ kindCommands, p.2.wf = true ∧ encode p.2 = wordOf 0x60 p.1 0 0 := by decide
  exact hall _ h

/-- Settles O2: the rows of the opcode map, format by format (case `h_n` is the `n`-th row of `decode`); each accepts only
the word put together from the operands it reads. -/
theorem legalWordIsItsCommandsWord : Obligations.LegalWordIsItsCommandsWord := by
  intro w i h
  unfold decode at h
  split at h
  case h_1 ho | h_2 ho | h_5 ho | h_6 ho | h_7 ho | h_14 ho | h_28 ho =>
    obtain ⟨hw, rfl⟩ := formatZ_ok_iff.mp h
    exact ⟨rfl, wordOf_of_opcode ho hw⟩
  case h_3 ho | h_4 ho =>
    obtain ⟨k, hw, rfl⟩ := formatK_ok_iff.mp h
    exact ⟨rfl, wordOfK_of_opcode ho hw⟩
  case h_29 ho =>
    obtain ⟨k, src, hw, rfl⟩ := formatKS_ok_iff.mp h
    exact ⟨rfl, wordOfK_of_opcode ho hw⟩
  case h_11 ho | h_12 ho | h_15 ho | h_16 ho | h_17 ho | h_18 ho | h_19 ho | h_20 ho | h_21 ho | h_22 ho =>
    obtain ⟨x, hw, rfl⟩ := (formatA_ok_iff (by norm_num)).mp h
    exact ⟨rfl, wordOf_of_opcode ho hw⟩
  case h_10 ho | h_13 ho =>
    obtain ⟨b, t, hw, rfl⟩ := formatAB_ok_iff.mp h
    exact ⟨rfl, wordOf_of_opcode ho hw⟩
  case h_8 ho =>
    obtain ⟨b, nt, hw, rfl⟩ := formatABCount_ok_iff.mp h
    exact ⟨rfl, wordOf_of_opcode ho hw⟩
  case h_9 ho | h_23 ho | h_24 ho | h_25 ho =>
    obtain ⟨x, src, hw, rfl⟩ := (formatAS_ok_iff (by norm_num)).mp h
    exact ⟨rfl, wordOf_of_opcode ho hw⟩
  case h_26 ho =>
    obtain ⟨a, b, hab, himm, hw, rfl⟩ := formatABS_ok_iff.mp h
    rw [bit_of_imm w himm] at hw
    exact ⟨decide_eq_true hab, wordOf_of_opcode ho hw⟩
  case h_27 ho =>
    obtain ⟨a, b, hab, himm, hw, rfl⟩ := formatABS_ok_iff.mp h
    rw [bits_of_imm w himm] at hw
    exact ⟨decide_eq_true hab, wordOf_of_opcode ho hw⟩
  case h_30 ho =>
    obtain ⟨k, hk, hw⟩ := formatG_ok_iff.mp h
    obtain ⟨hwf, henc⟩ := encode_kindCommands hk
    exact ⟨hwf, henc.trans (wordOf_of_opcode ho hw)⟩
  case h_31 ho =>
    obtain ⟨src, hw, rfl⟩ := formatS_ok_iff.mp h
    exact ⟨rfl, wordOf_of_opcode ho hw⟩
  case h_32 ho =>
    obtain ⟨n, hw, rfl⟩ := formatN_ok_iff.mp h
    exact ⟨rfl, wordOf_of_opcode ho hw⟩
  case h_33 => cases h

/-! ### Which words the decoder accepts, by their fields as numbers -/

@[simp] theorem isOk_ok : (Except.ok i : Except Illegal Instr).isOk = true := rfl

@[simp] theorem isOk_error (e : Illegal) : (Except.error e : Except Illegal Instr).isOk = false := rfl

theorem exists_error_iff {r : Except Illegal Instr} : (∃ e, r = .error e) ↔ ¬ r.isOk = true := by
  cases r <;> simp

theorem isOk_mbz {z : Bool} {next : Except Illegal Instr} : (mbz z next).isOk = true ↔ z = true ∧ next.isOk = true := by
  cases z <;> simp [mbz]

theorem isOk_dite {p : Prop} [Decidable p] {next : p → Except Illegal Instr} {e : Illegal} :
    (if h : p then next h else .error e).isOk = true ↔ ∃ h : p, (next h).isOk = true := by
  by_cases h : p <;> simp [h]

theorem isOk_ite {p : Prop} [Decidable p] {next : Except Illegal Instr} {e : Illegal} :
    (if p then next else .error e).isOk = true ↔ p ∧ next.isOk = true := by
  by_cases h : p <;> simp [h]

theorem isOk_withInstance {n : Nat} {x : BitVec 4} {next : Fin n → Except Illegal Instr} :
    (withInstance n x next).isOk = true ↔ ∃ h : x.toNat < n, (next ⟨x.toNat, h⟩).isOk = true :=
  isOk_dite

@[simp] theorem formatZ_isOk_iff : (formatZ w i).isOk = true ↔
    (aField w).toNat = 0 ∧ (bField w).toNat = 0 ∧ (immField w).toNat = 0 := by
  simp only [formatZ, isOk_mbz, isOk_ok, Bool.and_eq_true, beq_iff_eq, eq_zero_iff_toNat, and_true, and_assoc]

@[simp] theorem formatK_isOk_iff {f : PNum → Instr} :
    (formatK w f).isOk = true ↔ (aField w).toNat ≤ 1 ∧ (immField w).toNat = 0 := by
  simp only [formatK, isOk_mbz, isOk_ok, Bool.and_eq_true, beq_iff_eq, kPad_eq_zero_iff,
    eq_zero_iff_toNat (immField w), and_true]

@[simp] theorem formatKS_isOk_iff {f : PNum → Src → Instr} :
    (formatKS w f).isOk = true ↔ (aField w).toNat ≤ 1 ∧ (immField w).toNat < 2 ^ 1 := by
  simp only [formatKS, isOk_mbz, isOk_ok, Bool.and_eq_true, beq_iff_eq, kPad_eq_zero_iff, shift_eq_zero_iff, and_true]

@[simp] theorem formatA_isOk_iff {n : Nat} {f : Fin n → Instr} : (formatA n w f).isOk = true ↔
    (aField w).toNat < n ∧ (bField w).toNat = 0 ∧ (immField w).toNat = 0 := by
  simp only [formatA, isOk_mbz, isOk_withInstance, isOk_ok, Bool.and_eq_true, beq_iff_eq, eq_zero_iff_toNat,
    exists_prop, and_true]
  tauto

@[simp] theorem formatAB_isOk_iff {f : DbNum → TapNum → Instr} : (formatAB w f).isOk = true ↔
    (aField w).toNat < 8 ∧ (bField w).toNat < 3 ∧ (immField w).toNat = 0 := by
  simp only [formatAB, isOk_mbz, isOk_withInstance, isOk_dite, isOk_ok, beq_iff_eq, eq_zero_iff_toNat,
    exists_prop, and_true]
  tauto

@[simp] theorem formatABCount_isOk_iff {f : DbNum → TapCount → Instr} : (formatABCount w f).isOk = true ↔
    (aField w).toNat < 8 ∧ (bField w).toNat < 4 ∧ (immField w).toNat = 0 := by
  simp only [formatABCount, isOk_mbz, isOk_withInstance, isOk_dite, isOk_ok, beq_iff_eq, eq_zero_iff_toNat,
    exists_prop, and_true]
  tauto

@[simp] theorem formatAS_isOk_iff {n : Nat} {f : Fin n → Src → Instr} : (formatAS n w f).isOk = true ↔
    (aField w).toNat < n ∧ (bField w).toNat = 0 ∧ (immField w).toNat < 2 ^ 1 := by
  simp only [formatAS, isOk_mbz, isOk_withInstance, isOk_ok, Bool.and_eq_true, beq_iff_eq,
    eq_zero_iff_toNat (bField w), shift_eq_zero_iff, exists_prop, and_true]
  tauto

@[simp] theorem formatABS_isOk_iff {pad : Nat} {f : FuNum → FuNum → Instr} : (formatABS pad w f).isOk = true ↔
    (aField w).toNat ≤ (bField w).toNat ∧ (bField w).toNat < 7 ∧ (immField w).toNat < 2 ^ pad := by
  simp only [formatABS, isOk_mbz, isOk_withInstance, isOk_ite, isOk_ok, beq_iff_eq, shift_eq_zero_iff,
    Fin.mk_le_mk, exists_prop, and_true]
  generalize 2 ^ pad = bound
  omega

@[simp] theorem formatS_isOk_iff {f : Src → Instr} : (formatS w f).isOk = true ↔
    (aField w).toNat = 0 ∧ (bField w).toNat = 0 ∧ (immField w).toNat < 2 ^ 1 := by
  simp only [formatS, isOk_mbz, isOk_ok, Bool.and_eq_true, beq_iff_eq, eq_zero_iff_toNat (aField w),
    eq_zero_iff_toNat (bField w), shift_eq_zero_iff, and_true, and_assoc]

@[simp] theorem formatN_isOk_iff {f : BitVec 16 → Instr} :
    (formatN w f).isOk = true ↔ (aField w).toNat = 0 ∧ (bField w).toNat = 0 := by
  simp only [formatN, isOk_mbz, isOk_ok, Bool.and_eq_true, beq_iff_eq, eq_zero_iff_toNat, and_true]

@[simp] theorem formatG_isOk_iff : (formatG w).isOk = true ↔
    1 ≤ (aField w).toNat ∧ (aField w).toNat ≤ 8 ∧ (bField w).toNat = 0 ∧ (immField w).toNat = 0 := by
  simp only [formatG, isOk_mbz, Bool.and_eq_true, beq_iff_eq, eq_zero_iff_toNat]
  split
  case h_9 => -- `A` is no kind
    simp_all
    omega
  all_goals
    rename_i hk
    simp [hk]

/-- Opcode by opcode, one format's fields are the one disjunct of `legalFields` that is left (R82, R85, R86). -/
theorem decode_isOk_iff : (decode w).isOk = true ↔
    legalFields (opcField w).toNat (aField w).toNat (bField w).toNat (immField w).toNat := by
  unfold decode legalFields
  split
  case h_33 => simp_all -- an opcode of no row
  all_goals
    rename_i ho
    simp [ho, Nat.lt_succ_iff]

/-- Settles O3: a word is rejected when it is not accepted. -/
theorem illegalWordsExactly : Obligations.IllegalWordsExactly := by
  intro w
  rw [exists_error_iff, decode_isOk_iff, opcField_toNat, aField_toNat, bField_toNat, immField_toNat]

/-! ### Words written out -/

/-- Settles O4: each word is decoded by evaluation. -/
theorem writtenWordsDecode : Obligations.WrittenWordsDecode := by
  unfold Obligations.WrittenWordsDecode
  decide

/-! ### An illegal word, and the input sample -/

theorem illegal_of_no_fault (hf : s.fault = false) : s.illegal = .next (faulted s .illegalCmd) := by
  simp only [State.illegal, hf]
  rfl

/-- Settles O6: the event is taken, its word is rejected, and the fault is entered from the state it was taken in. -/
theorem illegalWordFaults : Obligations.IllegalWordFaults := by
  intro s ports rest e hf hp hd
  simp only [step, takeEvent_of_command hp, hd]
  exact illegal_of_no_fault hf

/-- Settles O23: `DIN` is read where `S` = 0, by whether the host offers a value. -/
theorem inputSampleBySource : Obligations.InputSampleBySource := by
  refine fun s => ⟨rfl, fun v rest hd => ?_, fun hd => ⟨Config.free s.draws, ?_⟩⟩
  · exact dinAt_of_offered (by simp [hd])
  · exact dinAt_of_not_offered (by simp [hd])

end Sys2Proof.Proofs
end

section
/-! PROOFS. The statements of the delay buffer family: the exact delay of a tap (R101, R110); what each `DB` command
does and when it faults (R102 to R108); what `CFG.SD`, `CFG.DD` and `CFG.FD` leave (R181, R184, R186, R188). -/

namespace Sys2Proof.Proofs

open Sys2Proof.Machine Sys2Proof.Claims Sys2Proof.Safety

variable {s : State} {b : DbNum} {db : Db}

/-! ### Samples through a fresh buffer -/

theorem pushes_append_singleton (db : Db) (xs : List Num) (x : Num) :
    pushes db (xs ++ [x]) = ((pushes db xs).write x).advance := by
  induction xs generalizing db with
  | nil => rfl
  | cons y ys ih => exact ih _

@[simp] theorem pushes_len (db : Db) (xs : List Num) : (pushes db xs).len = db.len := by
  induction xs generalizing db with
  | nil => rfl
  | cons x xs ih => exact ih _

theorem pushes_wf {db : Db} (h : Memory.wf db.mem = true) (xs : List Num) : Memory.wf (pushes db xs).mem = true := by
  induction xs generalizing db with
  | nil => exact h
  | cons x xs ih => exact ih (memWrite_wf h)

theorem advance_cold {len : Nat} {tap : Tap} (h : tap.rp < 0) : tap.advance len = ⟨tap.delay, tap.rp + 1⟩ := by
  simp only [Tap.advance, h, if_true]

theorem advance_warm {len : Nat} {tap : Tap} (h : 0 ≤ tap.rp) :
    tap.advance len = ⟨tap.delay, (tap.rp + 1) % len⟩ := by
  simp only [Tap.advance, not_lt.mpr h, if_false]

/-- Where the pointer of a tap of delay `d` stands after `n` samples (R29). -/
def rpAfter (len d n : Nat) : Int := if n < d then (n : Int) - d else ((n - d) % len : Nat)

theorem rpAfter_cold {d n : Nat} (len : Nat) (h : n < d) : rpAfter len d n = (n : Int) - d := if_pos h

theorem rpAfter_warm {d n : Nat} (len : Nat) (h : d ≤ n) : rpAfter len d n = ((n - d) % len : Nat) :=
  if_neg (not_lt.mpr h)

theorem rpAfter_zero (len d : Nat) : rpAfter len d 0 = -(d : Int) := by
  unfold rpAfter
  split
  · rw [Nat.cast_zero, zero_sub]
  · rw [Nat.zero_sub, Nat.zero_mod]
    omega

/-- A pointer climbs to 0 and from there goes round the buffer. -/
theorem advance_rpAfter (len d n : Nat) : Tap.advance len ⟨d, rpAfter len d n⟩ = ⟨d, rpAfter len d (n + 1)⟩ := by
  by_cases hcold : n < d
  · rw [rpAfter_cold len hcold, advance_cold (by dsimp only; omega)]
    congr 1
    by_cases hlast : n + 1 < d
    · rw [rpAfter_cold len hlast]
      push_cast
      ring
    · rw [rpAfter_warm len (by omega), show n + 1 - d = 0 by omega, Nat.zero_mod]
      dsimp only
      omega
  · have hwarm : d ≤ n := not_lt.mp hcold
    rw [rpAfter_warm len hwarm, rpAfter_warm len (by omega), advance_warm (Int.natCast_nonneg _),
      show n + 1 - d = n - d + 1 by omega]
    congr 1
    push_cast
    exact Int.emod_add_emod _ _ _

section
variable {len : Nat} {delays : List Nat}

theorem pushes_alloc_taps (xs : List Num) :
    (pushes (Db.alloc len delays) xs).taps = delays.map fun d => ⟨d, rpAfter len d xs.length⟩ := by
  induction xs using List.reverseRecOn with
  | nil =>
    exact List.map_congr_left fun d _ => congrArg (Tap.mk d) (rpAfter_zero len d).symm
  | append_singleton xs x ih =>
    rw [pushes_append_singleton, Db.advance_taps, Db.write_taps, ih, Db.write_len, pushes_len, Db.alloc_len,
      List.map_map, List.length_append]
    exact List.map_congr_left fun d _ => advance_rpAfter len d _

theorem pushes_alloc_wp (xs : List Num) : (pushes (Db.alloc len delays) xs).wp = xs.length % len := by
  induction xs using List.reverseRecOn with
  | nil => simp [pushes]
  | append_singleton xs x ih => simp [pushes_append_singleton, ih]

/-- One more sample lands in the cell of its own number, and every other cell stays. -/
theorem memRead_pushes_alloc_append (xs : List Num) (x : Num) (i : Nat) :
    memRead (pushes (Db.alloc len delays) (xs ++ [x])).mem i =
      if i = xs.length % len then x else memRead (pushes (Db.alloc len delays) xs).mem i := by
  rw [pushes_append_singleton, Db.advance_mem, Db.write_mem, ← pushes_alloc_wp xs]
  exact memRead_memWrite (pushes_wf memory_empty_wf xs)

/-- Each of the last `len` samples is still in its cell. -/
theorem memRead_pushes_alloc_recent {xs : List Num} {j : Nat} (hj : j < xs.length) (hrecent : xs.length ≤ j + len) :
    memRead (pushes (Db.alloc len delays) xs).mem (j % len) = xs.getD j .nan := by
  induction xs using List.reverseRecOn with
  | nil => cases hj
  | append_singleton xs x ih =>
    rw [List.length_append, List.length_singleton] at hj hrecent
    rw [memRead_pushes_alloc_append]
    by_cases hnew : j = xs.length
    · rw [hnew, if_pos rfl, List.getD_append_right _ _ _ _ le_rfl, Nat.sub_self]
      rfl
    · have hother : j % len ≠ xs.length % len := fun h =>
        absurd (Nat.le_of_dvd (by omega) ((Nat.modEq_iff_dvd' (by omega)).mp h)) (by omega)
      rw [if_neg hother, List.getD_append _ _ _ _ (by omega)]
      exact ih (by omega) (by omega)

/-- In the first round a cell not yet reached holds the 0 of the allocation. -/
theorem memRead_pushes_alloc_unreached {xs : List Num} {i : Nat} (hi : i < len) (hun : xs.length ≤ i) :
    memRead (pushes (Db.alloc len delays) xs).mem i = .val 0 := by
  induction xs using List.reverseRecOn with
  | nil => rfl
  | append_singleton xs x ih =>
    rw [List.length_append, List.length_singleton] at hun
    rw [memRead_pushes_alloc_append, Nat.mod_eq_of_lt (by omega), if_neg (by omega)]
    exact ih (by omega)

end

theorem delayed_rpAfter (db : Db) (len d n : Nat) :
    delayed db ⟨d, rpAfter len d n⟩ = if n < d then none else some (memRead db.mem ((n - d) % len)) := by
  rw [delayed_eq_tapval]
  by_cases hcold : n < d
  · rw [if_pos hcold, rpAfter_cold len hcold, Db.tapval_cold (by dsimp only; omega)]
  · rw [if_neg hcold, rpAfter_warm len (not_lt.mp hcold), Db.tapval_warm (Int.natCast_nonneg _), Int.toNat_natCast]

/-- Settles O29: the pointer of a tap stands at the cell of the sample `d` ticks before; a tap of delay 0 stands at the
cell written next, which holds the sample of the round before. -/
theorem exactDelay : Obligations.ExactDelay := by
  intro len delays k d xs hl hk hd
  refine ⟨⟨d, rpAfter len d xs.length⟩, by simp [pushes_alloc_taps, hk], ?_⟩
  rw [delayed_rpAfter]
  by_cases hzero : d = 0
  · subst hzero
    rw [if_neg (Nat.not_lt_zero _), if_pos rfl, Nat.sub_zero]
    by_cases hround : xs.length < len
    · rw [if_pos hround, Nat.mod_eq_of_lt hround, memRead_pushes_alloc_unreached hround le_rfl]
    · rw [if_neg hround, Nat.mod_eq_sub_mod (by omega), memRead_pushes_alloc_recent (by omega) (by omega)]
  · rw [if_neg hzero]
    by_cases hcold : xs.length < d
    · rw [if_pos hcold, if_pos hcold]
    · rw [if_neg hcold, if_neg hcold, memRead_pushes_alloc_recent (by omega) (by omega)]

/-! ### `DB.ALLOC` -/

theorem operand_of_invalid {v : Num} {ok : Rat → Bool} (h : ∀ q, v = .val q → ok q = false) :
    operand v ok = .error .badOperand := by
  cases v with
  | val q => simp only [operand, h q rfl, Bool.false_eq_true, if_false]
  | nan => rfl

/-- With every delay a number in range, the delays come out floored, in tap order (R102). -/
theorem allocDelays_of_valid {len : Nat} {ks : List Nat} {v : Nat → Num} {q : Nat → Rat}
    (h : ∀ k ∈ ks, v k = .val (q k) ∧ 0 ≤ q k ∧ (floorInt (q k)).toNat ≤ len) :
    allocDelays len (ks.map v) = .ok (ks.map fun k => (floorInt (q k)).toNat) := by
  induction ks with
  | nil => rfl
  | cons k ks ih =>
    obtain ⟨hv, h0, hle⟩ := h k List.mem_cons_self
    have hop : operand (v k) (fun q => decide (0 ≤ q)) = .ok (q k) := operand_ok_iff.mpr ⟨hv, decide_eq_true h0⟩
    simp only [List.map_cons, allocDelays, hop, ok_bind, hle, decide_true, require_true,
      ih fun j hj => h j (List.mem_cons_of_mem _ hj)]

/-- A list of delays that passes holds only numbers in range. -/
theorem mem_of_allocDelays_ok {len : Nat} {vs : List Num} {ds : List Nat} {v : Num} (h : allocDelays len vs = .ok ds)
    (hv : v ∈ vs) : ∃ q, v = .val q ∧ 0 ≤ q ∧ (floorInt q).toNat ≤ len := by
  induction vs generalizing ds with
  | nil => cases hv
  | cons w ws ih =>
    simp only [allocDelays, bind_ok_iff, operand_ok_iff, require_ok_iff, decide_eq_true_eq, exists_const] at h
    obtain ⟨q, ⟨hw, h0⟩, hle, ds', hrest, -⟩ := h
    obtain rfl | hv := List.mem_cons.mp hv
    · exact ⟨q, hw, h0, hle⟩
    · exact ih hrest hv

theorem allocDelays_of_invalid {len : Nat} {vs : List Num} {v : Num} (hv : v ∈ vs)
    (h : ∀ q, v = .val q → 0 ≤ q → len < (floorInt q).toNat) : allocDelays len vs = .error .badOperand := by
  cases hr : allocDelays len vs with
  | error c => rw [allocDelays_error hr]
  | ok ds =>
    obtain ⟨q, hq, h0, hle⟩ := mem_of_allocDelays_ok hr hv
    exact absurd (h q hq h0) (not_lt.mpr hle)

/-- The delay operands `P[1..nt]`. -/
theorem allocOperands_eq (s : State) (nt : TapCount) :
    [s.p[1], s.p[2], s.p[3]].take nt.val = (List.range nt.val).map fun k => reg s (1 + k) := by
  obtain ⟨n, hn⟩ := nt
  interval_cases n <;> rfl

theorem ownsEffectDb_iff {k : Kind} : k.ownsEffectDb = true ↔ k ∈ [Kind.sd, .dd, .fd, .mc, .fc] := by
  cases k <;> decide

theorem disown_filterDb (s : State) {b : DbNum} (hb : b.val < 7) : s.disown b = s.setFu ⟨b.val, hb⟩ none := dif_pos hb

theorem disown_effectDb (s : State) :
    s.disown 7 = if s.unit.kind.ownsEffectDb then s.setUnit { s.unit with kind := .none } else s := rfl

theorem lt_seven_or_eq (b : DbNum) : b.val < 7 ∨ b = 7 := b.le_last.lt_or_eq.imp_left id

theorem disown_frame (s : State) (b : DbNum) :
    s.disown b = { s with fus := (s.disown b).fus, unit := (s.disown b).unit } := by
  obtain hb | rfl := lt_seven_or_eq b
  · rw [disown_filterDb s hb]
    rfl
  · rw [disown_effectDb]
    split <;> rfl

theorem disown_fus (s : State) (b : DbNum) (u : FuNum) :
    (s.disown b).fus[u] = if u.val = b.val then none else s.fus[u] := by
  obtain hb | rfl := lt_seven_or_eq b
  · rw [disown_filterDb s hb, State.setFu_fus, file_get_set]
    simp only [Fin.ext_iff, eq_comm]
  · have hne : u.val ≠ (7 : DbNum).val := u.isLt.ne
    rw [disown_effectDb, if_neg hne]
    split <;> rfl

theorem disown_unit (s : State) (b : DbNum) : (s.disown b).unit =
    if b = 7 ∧ s.unit.kind ∈ [.sd, .dd, .fd, .mc, .fc] then { s.unit with kind := .none } else s.unit := by
  obtain hb | rfl := lt_seven_or_eq b
  · rw [disown_filterDb s hb, if_neg (by rintro ⟨rfl, -⟩; exact absurd hb (lt_irrefl 7))]
    rfl
  · simp only [disown_effectDb, true_and, ← ownsEffectDb_iff]
    split <;> rfl

/-- A capacity that is a number and at least 1 passes; then its size is tested, and then the delays (R102, R288). -/
theorem exec_dbAlloc {nt : TapCount} {cap : Rat} (hf : s.fault = false) (hm : s.mode = .stopped)
    (hp : s.p[0] = .val cap) (h1 : 1 ≤ cap) :
    exec (.dbAlloc b nt) s = s.settle (do
      require (decide (cap.floor.toNat ≤ s.params.lmax)) .resourceExhaustion
      let delays ← allocDelays cap.floor.toNat ((List.range nt.val).map fun k => reg s (1 + k))
      .ok ((s.setDb b (Db.alloc cap.floor.toNat delays)).disown b)) := by
  have hcap : operand s.p[0] (fun q => decide (1 ≤ q)) = .ok cap := operand_ok_iff.mpr ⟨hp, decide_eq_true h1⟩
  simp only [exec, execDbAlloc, command_cfg hf hm, hcap, ok_bind, allocOperands_eq]
  rfl

/-- Settles O21: the checks pass, and what is left is `disown` of the state with the buffer put in. -/
theorem dbAllocBuildsBuffer : Obligations.DbAllocBuildsBuffer := by
  intro b nt s cap q hf hm hp h1 hmax hq
  have hdelays := allocDelays_of_valid (len := cap.floor.toNat) (ks := List.range nt.val) (v := fun k => reg s (1 + k))
    (q := q) fun k hk => by
      obtain ⟨hreg, h0, hle⟩ := hq k (List.mem_range.mp hk)
      exact ⟨hreg, h0, Int.toNat_le_toNat hle⟩
  refine ⟨_, _, ?_, alloc_fresh _ _, disown_frame (s.setDb b _) b, disown_fus _ b, disown_unit _ b⟩
  rw [exec_dbAlloc hf hm hp h1, decide_eq_true (Int.toNat_le.mpr hmax), require_true, ok_bind, hdelays, ok_bind,
    settle_ok]
  rfl

/-- Settles O22, check by check. -/
theorem dbAllocFaultOrder : Obligations.DbAllocFaultOrder := by
  intro b nt s hf hm
  refine ⟨fun hbad => ?_, fun cap hp h1 hmax => ?_, fun cap k hp h1 hmax hk hbad => ?_⟩
  · have hcap : operand s.p[0] (fun q => decide (1 ≤ q)) = .error .badOperand :=
      operand_of_invalid fun q hq => decide_eq_false (not_le.mpr (hbad q hq))
    simp only [exec, execDbAlloc, command_cfg hf hm, hcap, error_bind]
    rfl
  · have hlarge : ¬ cap.floor.toNat ≤ s.params.lmax := fun h => absurd (Int.toNat_le.mp h) (not_le.mpr hmax)
    rw [exec_dbAlloc hf hm hp h1, decide_eq_false hlarge, require_false, error_bind]
    rfl
  · have hdelays : allocDelays cap.floor.toNat ((List.range nt.val).map fun k => reg s (1 + k)) =
        .error .badOperand := by
      refine allocDelays_of_invalid (List.mem_map_of_mem (List.mem_range.mpr hk)) fun q hreg h0 => ?_
      have hcap : 0 ≤ cap.floor := floorInt_nonneg (by linarith)
      have hq : cap.floor < q.floor := (hbad q hreg).resolve_left (not_lt.mpr h0)
      show cap.floor.toNat < q.floor.toNat
      omega
    rw [exec_dbAlloc hf hm hp h1, decide_eq_true (Int.toNat_le.mpr hmax), require_true, ok_bind, hdelays, error_bind]
    rfl

/-! ### The data commands of one buffer -/

/-- A command on an allocated buffer goes on with the buffer. -/
theorem command_buffer {cls : CmdClass} {body : State → Db → Except Cause State} (hf : s.fault = false)
    (hm : legalIn cls s.mode = true) (hd : s.dbs[b] = some db) :
    s.command cls (fun s => s.buffer b >>= body s) = s.settle (body s db) := by
  rw [command_legal hf hm, buffer_ok_iff.mpr hd, ok_bind]

/-- A command on a buffer that is not allocated raises NOT_READY. -/
theorem command_no_buffer {cls : CmdClass} {body : State → Db → Except Cause State} (hf : s.fault = false)
    (hm : legalIn cls s.mode = true) (hd : s.dbs[b] = none) :
    s.command cls (fun s => s.buffer b >>= body s) = .next (faulted s .notReady) := by
  rw [command_legal hf hm, buffer_error_iff.mpr ⟨hd, rfl⟩, error_bind]
  rfl

/-- A rule that goes on with a tap not in use raises NOT_READY. -/
theorem settle_no_tap {k : Nat} {body : Tap → Except Cause State} (ht : db.taps.length ≤ k) :
    s.settle (db.tap k >>= body) = .next (faulted s .notReady) := by
  rw [tap_error_iff.mpr ⟨ht, rfl⟩, error_bind]
  rfl

/-- Settles O24: reading the input sample touches no buffer, and the write is `write_stored`. -/
theorem dbWrStoresSample : Obligations.DbWrStoresSample := by
  intro b src s s' x hf hm hin
  have hl : legalIn .data s.mode = true := (legalIn_data _).mpr hm
  simp only [exec]
  refine ⟨fun db hd hok => ⟨db.write x, ?_, write_stored hok x, rfl⟩, command_no_buffer hf hl⟩
  obtain ⟨-, hdbs, -⟩ := input_keeps hin
  refine (command_buffer hf hl hd).trans ?_
  rw [hin, ← hdbs]
  rfl

/-- Settles O25, by whether the tap is warm. -/
theorem dbRdReadsTap : Obligations.DbRdReadsTap := by
  intro b k s hf hm
  have hl : legalIn .data s.mode = true := (legalIn_data _).mpr hm
  simp only [exec]
  refine ⟨fun db tap hd ht => ?_, command_no_buffer hf hl, fun db hd ht => ?_⟩
  · refine (command_buffer hf hl hd).trans ?_
    rw [tap_ok_iff.mpr ht, ok_bind, delayed_eq_tapval]
    by_cases hwarm : 0 ≤ tap.rp
    · rw [Db.tapval_warm hwarm, decide_eq_true hwarm]
      rfl
    · rw [Db.tapval_cold (not_le.mp hwarm), decide_eq_false hwarm]
      rfl
  · exact (command_buffer hf hl hd).trans (settle_no_tap ht)

/-- Settles O26: in a good buffer each pointer advances to the next one. -/
theorem dbAdvAdvancesTaps : Obligations.DbAdvAdvancesTaps := by
  intro b s hf hm
  have hl : legalIn .data s.mode = true := (legalIn_data _).mpr hm
  simp only [exec]
  refine ⟨fun db hd hok => ?_, command_no_buffer hf hl⟩
  obtain ⟨hlen, -, -, -, -, -, htaps⟩ := hok
  rw [← List.map_congr_left fun tap ht => advance_eq_nextRp hlen (htaps tap ht)]
  exact command_buffer hf hl hd

theorem indexMod_congr (a : Int) {len : Nat} (h : 1 ≤ len) : ∃ k : Int, a = indexMod a len + len * k :=
  ⟨a / len, by
    rw [indexMod, Int.toNat_of_nonneg (Int.emod_nonneg _ (by omega))]
    exact (Int.emod_add_mul_ediv a len).symm⟩

/-- Settles O27: the cell is `indexMod` of the floor, and the command is legal in either mode. -/
theorem dbPeekReadsCell : Obligations.DbPeekReadsCell := by
  intro b s hf
  have hl : legalIn .any s.mode = true := legalIn_any _
  simp only [exec]
  refine ⟨fun db q hd hp hlen => ⟨indexMod q.floor db.len, indexMod_lt _ hlen, indexMod_congr _ hlen, ?_⟩,
    command_no_buffer hf hl, fun db hd hp => ?_⟩
  · refine (command_buffer hf hl hd).trans ?_
    rw [hp, anyNumber_val, ok_bind]
    rfl
  · refine (command_buffer hf hl hd).trans ?_
    rw [hp, anyNumber_nan, error_bind]
    rfl

/-- Settles O28: the position is `floorMod` of the unwrapped one; the tap is looked up before the factor. -/
theorem dbMposGivesPosition : Obligations.DbMposGivesPosition := by
  intro b k s hf hm
  have hl : legalIn .data s.mode = true := (legalIn_data _).mpr hm
  simp only [exec]
  refine ⟨fun db tap q hd ht hp hlen => ⟨db.modulatedPos tap q, (floorMod_eq_iff hlen).mp rfl, ?_⟩,
    command_no_buffer hf hl, fun db hd ht => ?_, fun db hd ht hp => ?_⟩
  · refine (command_buffer hf hl hd).trans ?_
    rw [tap_ok_iff.mpr ht, ok_bind, hp, anyNumber_val, ok_bind]
    rfl
  · exact (command_buffer hf hl hd).trans (settle_no_tap ht)
  · refine (command_buffer hf hl hd).trans ?_
    rw [tap_ok ht, ok_bind, hp, anyNumber_nan, error_bind]
    rfl

/-! ### Configuration of the basic delay units -/

/-- A kind's rule that allocates the effect buffer, notes its range tests and sets the unit: with a rate and a capacity
that fits, the pool holds that buffer and nothing else (R188, R258, R259). -/
theorem configure_delayUnit {rule : State → Except Cause State} {maxMs : Rat} {ds : List Nat} {oks : List Bool}
    {anyDefault : Bool} (unitOf : ActiveUnit → ActiveUnit) (hf : s.fault = false) (hm : s.mode = .stopped)
    (hrate : s.srate ≠ 0) (hcap : effectCapacity s maxMs ≤ s.params.lmax)
    (hrule : rule s.clearPool = (do
      s.clearPool.needContext
      let t ← effalloc maxMs ds s.clearPool
      .ok ((t.noteSubst oks).setUnit (unitOf t.unit)))) (hany : oks.any not = anyDefault) :
    ∃ t db, s.configure rule = .next t ∧ Rebuilt s t anyDefault ∧ OnlyEffect s t db ∧
      Fresh db (effectCapacity s maxMs) ds ∧ t.unit = unitOf .idle := by
  have hcontext : s.clearPool.needContext = .ok () := needContext_ok_iff.mpr hrate
  have halloc := effalloc_ok_iff (s := s.clearPool) (ds := ds) |>.mpr ⟨hcap, rfl⟩
  have hexec : s.configure rule = .next (((s.clearPool.setDb effectDb (Db.alloc (effectCapacity s maxMs) ds)).noteSubst
      oks).setUnit (unitOf .idle)) := by
    rw [State.configure, command_cfg hf hm, hrule, hcontext, ok_bind, halloc, ok_bind, settle_ok]
    rfl
  exact ⟨_, _, hexec, hany ▸ rfl, ⟨rfl, rfl, rfl, rfl, rfl⟩, alloc_fresh _ _, rfl⟩

/-- The exchange into ascending order of `CFG.DD` (R184). -/
theorem exchanged_eq (ms1 ms2 : Rat) : (if ms2 < ms1 then (ms2, ms1) else (ms1, ms2)) = (min ms1 ms2, max ms1 ms2) := by
  split
  · rename_i h
    rw [min_eq_right h.le, max_eq_left h.le]
  · rename_i h
    rw [min_eq_left (not_lt.mp h), max_eq_right (not_lt.mp h)]

/-- Settles O49: each of the three rules has that form; that of a DoubleDelay once its delays are in order. -/
theorem cfgBuildsDelayUnits : Obligations.CfgBuildsDelayUnits := by
  intro s hf hm hrate
  simp only [exec, execCfgSd, execCfgDd, execCfgFd]
  refine ⟨fun hcap => ?_, fun ms1 ms2 hcap h1 h2 => ?_, fun hcap => ?_⟩
  · exact configure_delayUnit (fun u => { u with
      kind := .sd
      dry := validated s.p[0] (inCC 0 1) s.params.defs.sdDry
      wet1 := validated s.p[1] (inCC 0 1) s.params.defs.sdWet }) hf hm hrate hcap rfl (by simp [Bool.or_assoc])
  · refine configure_delayUnit (fun u => { u with
      kind := .dd
      dry := validated s.p[0] (inCC 0 1) s.params.defs.ddDry
      wet1 := validated s.p[1] (inCC 0 1) s.params.defs.ddWet1
      wet2 := validated s.p[2] (inCC 0 1) s.params.defs.ddWet2 }) hf hm hrate hcap
      (oks := [s.p[0].passes (inCC 0 1), s.p[1].passes (inCC 0 1), s.p[2].passes (inCC 0 1),
        s.p[3].passes (inCC 0 s.params.maxDd), s.p[4].passes (inCC 0 s.params.maxDd)]) ?_ (by simp [Bool.or_assoc])
    subst h1 h2
    simp only [configDd, exchanged_eq]
    rfl
  · exact configure_delayUnit (fun u => { u with
      kind := .fd
      gain := validated s.p[0] (inCC 0 1) s.params.defs.fdGain
      g := percent (validated s.p[1] (inCO 0 100) s.params.defs.fdDecay) }) hf hm hrate hcap rfl
      (by simp [Bool.or_assoc])

end Sys2Proof.Proofs
end

section
/-! PROOFS. The statements of the interpolator family: the linear read is exact at integral positions and between equal
neighbours (R122, R128); with equal integer frequencies the bandlimited read gives the cell (R123, R125); interpolator
reads, filter ticks and engine commands that are not ready fault (R122 to R127, R163 to R167, R221 to R223, R288). -/

namespace Sys2Proof.Proofs

open Sys2Proof.Machine Sys2Proof.Claims

variable {s : State} {b : DbNum} {db : Db}

/-! ### The linear read -/

/-- A position whose floor is congruent to a cell wraps to that cell, moved by the fraction of the position. -/
theorem wrapped_of_floor_congr {q : Rat} {f len : Nat} {k : Int} (hf : f < len) (hk : (f : Int) + len * k = q.floor) :
    Wrapped q len (f + (q - q.floor)) := by
  have hlow : (q.floor : Rat) ≤ q := floorInt_le q
  have hhigh : q < (q.floor : Rat) + 1 := lt_floorInt_add_one q
  have hcell : (f : Rat) + 1 ≤ len := by exact_mod_cast hf
  have hfloor : (f : Rat) + len * k = q.floor := by exact_mod_cast hk
  exact ⟨by linarith [f.cast_nonneg (α := Rat)], by linarith, k, by linarith⟩

theorem floor_natCast_add_fraction (f : Nat) (q : Rat) : (f + (q - q.floor) : Rat).floor = f := by
  have hlow : (q.floor : Rat) ≤ q := floorInt_le q
  have hhigh : q < (q.floor : Rat) + 1 := lt_floorInt_add_one q
  refine floorInt_eq_iff.mpr ?_
  rw [Int.cast_natCast]
  exact ⟨by linarith, by linarith⟩

/-- The line from cell `f`, `q` past an integer by its fraction. -/
theorem lineAt_natCast_add_fraction (db : Db) (f : Nat) (q : Rat) :
    lineAt db (f + (q - q.floor)) = (memRead db.mem f).add
      (times (q - q.floor) ((memRead db.mem ((f + 1) % db.len)).sub (memRead db.mem f))) := by
  simp only [lineAt, floor_natCast_add_fraction, Int.toNat_natCast, add_sub_cancel_left]

theorem exists_val_of_ne_nan {v : Num} (h : v ≠ .nan) : ∃ q, v = .val q := by
  cases v with
  | val q => exact ⟨q, rfl⟩
  | nan => exact absurd rfl h

/-- At the start of the line its end adds nothing, provided it is a number. -/
theorem add_times_zero_sub {y : Num} (v : Rat) (hy : y ≠ .nan) :
    (Num.val v).add (times 0 (y.sub (.val v))) = .val v := by
  obtain ⟨a, rfl⟩ := exists_val_of_ne_nan hy
  simp only [Num.sub, times, Num.mul, Num.add, zero_mul, add_zero]

/-- A line between two equal numbers is that number. -/
theorem add_times_sub_self (v t : Rat) : (Num.val v).add (times t ((Num.val v).sub (.val v))) = .val v := by
  simp only [Num.sub, times, Num.mul, Num.add, sub_self, mul_zero, add_zero]

/-- Settles O32: the read is the line from cell `f`; at an integral position it is at its start, and between equal
numbers it is flat. -/
theorem linearReadIsExact : Obligations.LinearReadIsExact := by
  intro b s db q v f hf hm hd hp hlen hv ⟨k, hk⟩ hexact
  have hread := (interpolatedReads b s db q _ hf hm hd hp (by omega) (wrapped_of_floor_congr hlen hk)).1
  rw [hread, lineAt_natCast_add_fraction, hv]
  obtain ⟨hint, hnext⟩ | hnext := hexact
  · rw [sub_eq_zero.mpr hint, add_times_zero_sub v hnext]
  · rw [hnext, add_times_sub_self]

/-! ### The bandlimited read with equal frequencies -/

/-- With equal non-zero integer frequencies the kernel is the unit impulse: `sinc` is 0 at every integer but 0. -/
theorem kernelAt_of_equal_frequencies {ip : Ip} {c : Int} (hc : c ≠ 0) (hstdf : ip.stdf = c) (hnewf : ip.newf = c)
    (i : Int) : kernelAt ip i = if i = 0 then 1 else 0 := by
  have hc' : (c : Rat) ≠ 0 := by exact_mod_cast hc
  unfold kernelAt
  rw [hstdf, hnewf, div_self hc', if_pos le_rfl, if_pos le_rfl, one_mul]
  by_cases hi : i = 0
  · rw [if_pos hi, hi, Int.cast_zero, mul_zero, sinc_zero]
  · rw [if_neg hi, ← Int.cast_mul, sinc_intCast (mul_ne_zero hc hi)]

theorem add_mul_val_zero {x : Num} (acc : Num) (hx : x ≠ .nan) : acc.add (x.mul (.val 0)) = acc := by
  obtain ⟨q, rfl⟩ := exists_val_of_ne_nan hx
  cases acc with
  | val a => simp only [Num.mul, Num.add, mul_zero, add_zero]
  | nan => rfl

theorem zero_add_mul_val_one (x : Num) : (Num.val 0).add (x.mul (.val 1)) = x := by
  cases x with
  | val q => simp only [Num.mul, Num.add, mul_one, zero_add]
  | nan => rfl

/-- A fold whose step does something at `a` only is one step there. -/
theorem foldl_of_idle_except {α β : Type} [DecidableEq β] {step : α → β → α} {a : β}
    (hidle : ∀ k, k ≠ a → ∀ acc, step acc k = acc) {ks : List β} (hks : ks.Nodup) (acc : α) :
    ks.foldl step acc = if a ∈ ks then step acc a else acc := by
  induction ks generalizing acc with
  | nil => rfl
  | cons k ks ih =>
    obtain ⟨hnot, hks⟩ := List.nodup_cons.mp hks
    rw [List.foldl_cons, ih hks]
    by_cases hk : k = a
    · subst hk
      rw [if_neg hnot, if_pos List.mem_cons_self]
    · simp only [hidle k hk, List.mem_cons, Ne.symm hk, false_or]

/-- Under a unit impulse only the term at offset 0 counts, and it is the cell itself. -/
theorem kernelSum_of_impulse {ip : Ip} {f : Nat} (hf : f < db.len) (hcells : ∀ i, memRead db.mem i ≠ .nan)
    (himpulse : ∀ i, kernelAt ip i = if i = 0 then 1 else 0) : kernelSum db ip f = memRead db.mem f := by
  have hcentre : (((f : Int) + ((255 : Nat) - 255)) % db.len).toNat = f := by
    rw [Nat.cast_ofNat, sub_self, add_zero, Int.emod_eq_of_lt (by omega) (by omega), Int.toNat_natCast]
  unfold kernelSum
  rw [foldl_of_idle_except (a := 255) ?_ List.nodup_range, if_pos (List.mem_range.mpr (by norm_num))]
  · dsimp only
    rw [hcentre, himpulse, if_pos (by norm_num), zero_add_mul_val_one]
  · intro k hk acc
    dsimp only
    rw [himpulse, if_neg (by omega), add_mul_val_zero acc (hcells _)]

/-- Settles O33: the kernel is the unit impulse, so its sum around a cell is the cell. -/
theorem equalFrequenciesReadTheCell : Obligations.EqualFrequenciesReadTheCell := by
  intro b s db q w c hf hm hd hp hlen hw hc hstdf hnewf hcells
  rw [(interpolatedReads b s db q w hf hm hd hp hlen hw).2.1]
  have hcell : w.floor.toNat < db.len := cell_lt hw.1 hw.2.1
  rw [kernelSum_of_impulse hcell hcells (kernelAt_of_equal_frequencies hc hstdf hnewf)]

/-! ### Commands that are not ready -/

/-- Each of the three reads takes the buffer, then the position, and puts out what it reads there. -/
theorem exec_read {i : Instr} (hi : i = .ipLin b ∨ i = .ipBl b ∨ i = .ipRd b) :
    ∃ read : State → Db → Rat → Num, ∀ s, exec i s = s.command .data fun s =>
      s.buffer b >>= fun db => anyNumber s.p[0] >>= fun pos => .ok (s.out (read s db pos)) := by
  obtain rfl | rfl | rfl := hi
  · exact ⟨fun _ db pos => db.linear pos, fun _ => rfl⟩
  · exact ⟨fun s db pos => db.bandlimited s.ip pos, fun _ => rfl⟩
  · exact ⟨fun s db pos => db.interp s.ip pos, fun _ => rfl⟩

theorem tickOfType_not_ready {u : FuNum} {ty : FuType} (src : Src) (hu : (s.fus[u]).map Fu.type ≠ some ty) :
    tickOfType ty u src s = .error .notReady := by
  unfold tickOfType
  cases hfu : s.fus[u] with
  | none => rw [filter_error_iff.mpr ⟨hfu, rfl⟩, error_bind]
  | some fu =>
    have hty : fu.type ≠ ty := by simpa [hfu] using hu
    rw [filter_ok_iff.mpr hfu, ok_bind, decide_eq_false hty, require_false, error_bind]

theorem ready_eq_false {a b u : FuNum} (ha : a ≤ u) (hb : u ≤ b) (hu : s.fus[u] = none) : s.ready a b = false := by
  rw [← Bool.not_eq_true, ready_iff]
  intro h
  simpa [hu] using h u ha hb

/-- A data command in RUNNING whose range is not ready raises NOT_READY. -/
theorem command_not_ready {a c : FuNum} {body : State → Except Cause State} (hf : s.fault = false)
    (hm : s.mode = .running) (hr : s.ready a c = false) :
    s.command .data (fun s => require (s.ready a c) .notReady >>= fun _ => body s) =
      .next (faulted s .notReady) := by
  rw [command_data hf hm, hr, require_false, error_bind]
  rfl

/-- Settles O43: the first check of each command fails, or for a position that is not a number the second. -/
theorem notReadyCommandsFault : Obligations.NotReadyCommandsFault := by
  intro s hf hm
  have hl : legalIn .data s.mode = true := (legalIn_data _).mpr hm
  refine ⟨fun b i hi => ?_, fun u src ty hu => ?_, fun a c u src clamp ha hc hu => ?_⟩
  · obtain ⟨read, hexec⟩ := exec_read hi
    rw [hexec]
    refine ⟨command_no_buffer hf hl, fun db hd hp => (command_buffer hf hl hd).trans ?_⟩
    rw [hp, anyNumber_nan, error_bind]
    rfl
  · rw [exec_tickOf, command_data hf hm, tickOfType_not_ready src hu]
    rfl
  · have hr := ready_eq_false ha hc hu
    simp only [exec, execSerTick, execParTick]
    exact ⟨command_not_ready hf hm hr, command_not_ready hf hm hr⟩

end Sys2Proof.Proofs
end

section
/-! PROOFS. The statements of the modulator family: the checks of `MOD.CFG`, of the filter configurations and of `CFG`,
in order (R141, R161, R188, R201, R206, R227, R229, R231, R288); `MOD.NEXT` reads the table round and round (R148, R149);
the ranges of the tables (R143 to R147). -/

namespace Sys2Proof.Proofs

open Sys2Proof.Machine Sys2Proof.Claims Sys2Proof.Safety

variable {s t : State}

/-! ### A configuration command that faults -/

theorem command_cfg_error {body : State → Except Cause State} {c : Cause} (hf : s.fault = false)
    (hm : s.mode = .stopped) (h : body s = .error c) : s.command .cfg body = .next (faulted s c) := by
  rw [command_cfg hf hm, h]
  rfl

/-- A fault in a kind's rule leaves the state from before the pool was cleared (R258, R286). -/
theorem configure_error {rule : State → Except Cause State} {c : Cause} (hf : s.fault = false)
    (hm : s.mode = .stopped) (h : rule s.clearPool = .error c) : s.configure rule = .next (faulted s c) :=
  command_cfg_error (body := fun s => rule s.clearPool) hf hm h

theorem fucfg_no_context {u : FuNum} {ty : FuType} {ms pct1 pct2 : Num} (h : s.srate = 0) :
    fucfg u ty ms pct1 pct2 s = .error .noContext :=
  fucfg_error_iff.mpr (.inl ⟨h, rfl⟩)

theorem modcfg_no_context {m : ModNum} {sh fr dp : Num} (h : s.srate = 0) :
    modcfg m sh fr dp s = .error .noContext :=
  modcfg_error_iff.mpr (.inl ⟨h, rfl⟩)

theorem bind_error {α β : Type} {x : Except Cause α} {f : α → Except Cause β} {c : Cause} (h : x = .error c) :
    (x >>= f) = .error c :=
  bind_error_iff.mpr (.inl h)

theorem needContext_bind_no_context {f : Unit → Except Cause State} (h : s.srate = 0) :
    (s.needContext >>= f) = .error .noContext :=
  bind_error (require_error_iff.mpr ⟨decide_eq_false (not_not.mpr h), rfl⟩)

theorem needContext_bind {f : Unit → Except Cause State} (h : s.srate ≠ 0) : (s.needContext >>= f) = f () := by
  rw [needContext_ok_iff.mpr h, ok_bind]

/-! ### The capacity of the effect buffer -/

/-- A rule whose first checks are the context and the capacity of the effect buffer raises RESOURCE_EXHAUSTION above
`LMAX` (R188). -/
theorem effalloc_rule_exhausted {maxMs : Rat} {f : State → Except Cause State} (ds : List Nat) (hrate : s.srate ≠ 0)
    (hcap : s.params.lmax < effectCapacity s maxMs) :
    (s.needContext >>= fun _ => effalloc maxMs ds s >>= f) = .error .resourceExhaustion := by
  rw [needContext_bind hrate]
  exact bind_error (effalloc_error_iff.mpr ⟨hcap, rfl⟩)

/-- With a capacity that fits, such a rule goes on with the buffer put in, and raises what it raises from there. -/
theorem effalloc_rule_error {maxMs : Rat} {f : State → Except Cause State} {c : Cause} (ds : List Nat)
    (hrate : s.srate ≠ 0) (hcap : effectCapacity s maxMs ≤ s.params.lmax)
    (h : f (s.setDb effectDb (Db.alloc (effectLen s maxMs) ds)) = .error c) :
    (s.needContext >>= fun _ => effalloc maxMs ds s >>= f) = .error c := by
  rw [needContext_bind hrate, effalloc_ok_iff.mpr ⟨hcap, rfl⟩, ok_bind, h]

/-! ### The filter units of a reverb -/

/-- `fucfg` of each unit of a list, in order: a unit's number, type, delay and two decays. -/
def fucfgEach : List (FuNum × FuType × Num × Num × Num) → State → Except Cause State
  | [], s => .ok s
  | (u, ty, ms, pct1, pct2) :: rest, s => fucfg u ty ms pct1 pct2 s >>= fucfgEach rest

/-- The filter units each reverb configures (R227, R229, R231). -/
def reverbUnits (p : Vector Num 32) : Instr → List (FuNum × FuType × Num × Num × Num)
  | .cfgRv1 => [(0, .ap, p[1], p[2], .zero), (1, .ap, p[3], p[4], .zero), (2, .ap, p[5], p[6], .zero),
      (3, .ap, p[7], p[8], .zero), (4, .ap, p[9], p[10], .zero)]
  | .cfgRv2 => [(0, .cb, p[1], p[2], .zero), (1, .cb, p[3], p[4], .zero), (2, .cb, p[5], p[6], .zero),
      (3, .cb, p[7], p[8], .zero), (4, .ap, p[9], p[10], .zero), (5, .ap, p[11], p[12], .zero)]
  | .cfgRv3 => [(0, .lpc, p[1], p[2], p[3]), (1, .lpc, p[4], p[5], p[6]), (2, .lpc, p[7], p[8], p[9]),
      (3, .lpc, p[10], p[11], p[12]), (4, .lpc, p[13], p[14], p[15]), (5, .lpc, p[16], p[17], p[18]),
      (6, .ap, p[19], p[20], .zero)]
  | _ => []

theorem configRv1_eq (s : State) :
    configRv1 s = fucfgEach (reverbUnits s.p .cfgRv1) s >>= fun t => .ok (t.finishReverb s.p[0] .rv1) := by
  simp only [configRv1, reverbUnits, fucfgEach, bind_assoc, ok_bind]

theorem configRv2_eq (s : State) :
    configRv2 s = fucfgEach (reverbUnits s.p .cfgRv2) s >>= fun t => .ok (t.finishReverb s.p[0] .rv2) := by
  simp only [configRv2, reverbUnits, fucfgEach, bind_assoc, ok_bind]

theorem configRv3_eq (s : State) :
    configRv3 s = fucfgEach (reverbUnits s.p .cfgRv3) s >>= fun t => .ok (t.finishReverb s.p[0] .rv3) := by
  simp only [configRv3, reverbUnits, fucfgEach, bind_assoc, ok_bind]

/-- Whichever unit is the first whose buffer does not fit, the cause is the same. -/
theorem fucfgEach_exhausted {us : List (FuNum × FuType × Num × Num × Num)} {ms : Num} (hrate : s.srate ≠ 0)
    (hms : ms ∈ us.map (·.2.2.1)) (hcap : s.params.lmax < filterDelay s ms + 1) :
    fucfgEach us s = .error .resourceExhaustion := by
  induction us generalizing s with
  | nil => cases hms
  | cons o us ih =>
    obtain ⟨u, ty, ms', pct1, pct2⟩ := o
    rw [fucfgEach]
    cases hr : fucfg u ty ms' pct1 pct2 s with
    | error c =>
      obtain ⟨h0, -⟩ | ⟨-, -, rfl⟩ := fucfg_error_iff.mp hr
      · exact absurd h0 hrate
      · rfl
    | ok t =>
      obtain ⟨-, hfits, rfl⟩ := fucfg_ok_iff.mp hr
      obtain rfl | hms := List.mem_cons.mp hms
      · exact absurd hfits (not_le.mpr hcap)
      · exact ih hrate hms hcap

/-- The registers `reverbDelays` names are those of the delays in the list of units. -/
theorem reverbUnits_delays (s : State) (i : Instr) :
    (reverbUnits s.p i).map (·.2.2.1) = (reverbDelays i).map (reg s) := by
  cases i <;> rfl

theorem reverb_of_mem_reverbDelays {i : Instr} {k : Nat} (hk : k ∈ reverbDelays i) :
    i = .cfgRv1 ∨ i = .cfgRv2 ∨ i = .cfgRv3 := by
  cases i <;> simp [reverbDelays] at hk ⊢

/-- `CFG` of a reverb starts with the units of its list. -/
theorem exec_reverb_error {i : Instr} {c : Cause} (hf : s.fault = false) (hm : s.mode = .stopped)
    (hi : i = .cfgRv1 ∨ i = .cfgRv2 ∨ i = .cfgRv3) (h : fucfgEach (reverbUnits s.p i) s.clearPool = .error c) :
    exec i s = .next (faulted s c) := by
  obtain rfl | rfl | rfl := hi
  · exact configure_error hf hm ((configRv1_eq _).trans (bind_error h))
  · exact configure_error hf hm ((configRv2_eq _).trans (bind_error h))
  · exact configure_error hf hm ((configRv3_eq _).trans (bind_error h))

/-! ### The table length -/

section
variable (hs : StateOk s) (hstep : ConfigStep s t)
include hs hstep

/-- The table length depends on the rate and the parameters only, which configuration keeps. -/
theorem tableLength_eq_of_configStep (fr : Num) : tableLength t fr = tableEntries s fr := by
  rw [← tableLength_eq_tableEntries hs]
  unfold tableLength
  rw [hstep.srate, hstep.params]

theorem modcfg_tableFault {m : ModNum} {sh fr dp : Num} {c : Cause} (hrate : s.srate ≠ 0) (h : TableFault s fr c) :
    modcfg m sh fr dp t = .error c := by
  refine modcfg_error_iff.mpr (.inr ⟨by rw [hstep.srate]; exact hrate, ?_⟩)
  rw [tableLength_eq_of_configStep hs hstep, hstep.params]
  obtain ⟨hlow, rfl⟩ | ⟨hhigh, rfl⟩ := h
  · exact .inl ⟨hlow, rfl⟩
  · exact .inr ⟨by omega, hhigh, rfl⟩

/-- Of the modulators in use, the first whose table does not fit decides the cause (R201). -/
theorem modcfgFirst_tableFault {ms : List (ModNum × Num × Num × Num)} {before after : List Num} {fr : Num} {c : Cause}
    (hrate : s.srate ≠ 0) (hms : ms.map (·.2.2.1) = before ++ fr :: after) (hb : ∀ f ∈ before, TableFits s f)
    (h : TableFault s fr c) : modcfgFirst ms t = .error c := by
  obtain ⟨before', rest, rfl, rfl, hrest⟩ := List.map_eq_append_iff.mp hms
  obtain ⟨⟨m, sh, fr', dp⟩, after', rfl, rfl, -⟩ := List.map_eq_cons_iff.mp hrest
  refine modcfgFirst_error_of (by rw [hstep.srate]; exact hrate) (fun o ho => ?_)
    (modcfg_tableFault hs hstep hrate h)
  rw [tableLength_eq_of_configStep hs hstep, hstep.params]
  exact hb _ (List.mem_map_of_mem ho)

end

/-- What a `CFG` has done when its effect buffer is in. -/
theorem clearPool_setDb_configStep (s : State) (b : DbNum) (db : Db) : ConfigStep s (s.clearPool.setDb b db) :=
  (clearPool_configStep s).trans (setDb_configStep _ b db)

theorem countOf_natCast (n : Nat) : countOf (.val n) = n := by
  simp [countOf]

/-- The modulators `CFG.MC` configures from its operands, in order (R201). -/
def chorusMods (q : McOperands) : List (ModNum × Num × Num × Num) :=
  [(0, q[7], q[8], q[9]), (1, q[10], q[11], q[12]), (2, q[13], q[14], q[15])]

theorem chorusMods_frequencies (q : McOperands) (n : Nat) :
    ((chorusMods q).take n).map (·.2.2.1) = [q[8], q[11], q[14]].take n :=
  List.map_take

/-! ### The order of the checks -/

/-- Each configuration of a filter unit is `fucfg` with the delay `P[0]`. -/
theorem exec_filterCfg_error {i : Instr} {u : FuNum} {c : Cause} (hf : s.fault = false) (hm : s.mode = .stopped)
    (hi : i = .apCfg u ∨ i = .cbCfg u ∨ i = .lpcCfg u)
    (h : ∀ ty pct2, fucfg u ty s.p[0] s.p[1] pct2 s = .error c) : exec i s = .next (faulted s c) := by
  obtain rfl | rfl | rfl := hi
  · exact command_cfg_error hf hm (h _ _)
  · exact command_cfg_error hf hm (h _ _)
  · exact command_cfg_error hf hm (h _ _)

/-- `MOD.CFG`, the filter configurations and every `CFG` check the context first (R141, R161, R164, R166, R181, R184,
R186, R201, R206, R226). -/
theorem exec_configuration_no_context {i : Instr} (hf : s.fault = false) (hm : s.mode = .stopped) (h0 : s.srate = 0)
    (hi : (∃ m, i = .modCfg m) ∨ (∃ u, i = .apCfg u) ∨ (∃ u, i = .cbCfg u) ∨ (∃ u, i = .lpcCfg u) ∨
      i = .cfgSd ∨ i = .cfgDd ∨ i = .cfgFd ∨ i = .cfgMc ∨ i = .cfgFc ∨ i = .cfgRv1 ∨ i = .cfgRv2 ∨ i = .cfgRv3) :
    exec i s = .next (faulted s .noContext) := by
  obtain ⟨m, rfl⟩ | ⟨u, rfl⟩ | ⟨u, rfl⟩ | ⟨u, rfl⟩ | rfl | rfl | rfl | rfl | rfl | hi := hi
  · exact command_cfg_error hf hm (modcfg_no_context h0)
  · exact command_cfg_error hf hm (fucfg_no_context h0)
  · exact command_cfg_error hf hm (fucfg_no_context h0)
  · exact command_cfg_error hf hm (fucfg_no_context h0)
  · exact configure_error hf hm (needContext_bind_no_context h0)
  · exact configure_error hf hm (needContext_bind_no_context h0)
  · exact configure_error hf hm (needContext_bind_no_context h0)
  · exact configure_error hf hm (needContext_bind_no_context h0)
  · exact configure_error hf hm (needContext_bind_no_context h0)
  · refine exec_reverb_error hf hm hi ?_
    obtain rfl | rfl | rfl := hi <;> exact bind_error (fucfg_no_context h0)

/-- The delay and chorus units check the capacity of the effect buffer next (R109, R188). -/
theorem exec_effectCfg_exhausted {i : Instr} {maxMs : Rat} (hf : s.fault = false) (hm : s.mode = .stopped)
    (hrate : s.srate ≠ 0) (hi : (i, maxMs) ∈ [(Instr.cfgSd, s.params.maxSd), (.cfgDd, s.params.maxDd),
      (.cfgFd, s.params.maxFd), (.cfgMc, s.params.maxMc), (.cfgFc, s.params.maxFc)])
    (hcap : s.params.lmax < effectCapacity s maxMs) : exec i s = .next (faulted s .resourceExhaustion) := by
  have hrule (ds : List Nat) (f : State → Except Cause State) :=
    effalloc_rule_exhausted (s := s.clearPool) (f := f) ds hrate hcap
  simp only [List.mem_cons, List.not_mem_nil, or_false, Prod.mk.injEq] at hi
  obtain ⟨rfl, rfl⟩ | ⟨rfl, rfl⟩ | ⟨rfl, rfl⟩ | ⟨rfl, rfl⟩ | ⟨rfl, rfl⟩ := hi
  · exact configure_error hf hm (hrule _ _)
  · refine configure_error hf hm ?_
    simp only [configDd, exchanged_eq]
    exact hrule _ _
  · exact configure_error hf hm (hrule _ _)
  · exact configure_error hf hm (hrule _ _)
  · exact configure_error hf hm (hrule _ _)

/-- `CFG.MC` checks the tables of the modulators in use after its capacity (R201). -/
theorem exec_cfgMc_tableFault {nm : Nat} {before after : List Num} {fr : Num} {c : Cause} (hs : StateOk s)
    (hf : s.fault = false) (hm : s.mode = .stopped) (hrate : s.srate ≠ 0)
    (hcap : effectCapacity s s.params.maxMc ≤ s.params.lmax) (hnm : (chorusOperands s)[6] = .val nm)
    (hfr : [(chorusOperands s)[8], (chorusOperands s)[11], (chorusOperands s)[14]].take nm = before ++ fr :: after)
    (hb : ∀ f ∈ before, TableFits s f) (h : TableFault s fr c) : exec .cfgMc s = .next (faulted s c) := by
  have hms : ((chorusMods (chorusOperands s)).take (countOf (chorusOperands s)[6])).map (·.2.2.1) =
      before ++ fr :: after := by
    rw [chorusMods_frequencies, hnm, countOf_natCast, hfr]
  exact configure_error hf hm (effalloc_rule_error _ hrate hcap
    (bind_error (modcfgFirst_tableFault hs (clearPool_setDb_configStep ..) hrate hms hb h)))

/-- `CFG.FC` checks the table of modulator 0 after its capacity (R206). -/
theorem exec_cfgFc_tableFault {c : Cause} (hs : StateOk s) (hf : s.fault = false) (hm : s.mode = .stopped)
    (hrate : s.srate ≠ 0) (hcap : effectCapacity s s.params.maxFc ≤ s.params.lmax) (h : TableFault s s.p[4] c) :
    exec .cfgFc s = .next (faulted s c) :=
  configure_error hf hm (effalloc_rule_error _ hrate hcap
    (bind_error (modcfg_tableFault hs (clearPool_setDb_configStep ..) hrate h)))

/-- Settles O35, check by check: context, capacity, table length. -/
theorem configurationFaultOrder : Obligations.ConfigurationFaultOrder := by
  intro s hf hm
  refine ⟨fun h0 i hi => exec_configuration_no_context hf hm h0 hi, fun hrate => ⟨fun hcap u i hi => ?_,
    fun i maxMs hi hcap => exec_effectCfg_exhausted hf hm hrate hi hcap, fun i k hk hcap => ?_⟩,
    fun hs hrate c => ⟨fun m h => ?_, fun hcap h => exec_cfgFc_tableFault hs hf hm hrate hcap h, ?_⟩⟩
  · exact exec_filterCfg_error hf hm hi fun ty pct2 => fucfg_error_iff.mpr (.inr ⟨hrate, hcap, rfl⟩)
  · refine exec_reverb_error hf hm (reverb_of_mem_reverbDelays hk) (fucfgEach_exhausted hrate ?_ hcap)
    rw [reverbUnits_delays]
    exact List.mem_map_of_mem hk
  · exact command_cfg_error hf hm (modcfg_tableFault hs (.refl s) hrate h)
  · rintro q nm before after fr hcap rfl hnm hfr hb h
    exact exec_cfgMc_tableFault hs hf hm hrate hcap hnm hfr hb h

/-! ### `MOD.NEXT` -/

/-- A modulator with its index moved on by one, modulo the length of its table (R148). -/
def advanced (md : Modulator) : Modulator := { md with idx := (md.idx + 1) % md.tab.length }

theorem exec_modNext {m : ModNum} {md : Modulator} {c : Rat} (hf : s.fault = false) (hm : s.mode = .running)
    (hmod : s.mods[m] = some md) (hc : md.tab[md.idx]? = some c) :
    exec (.modNext m) s = .next ((s.setMod m (advanced md)).out (.val c)) := by
  simp only [exec, execModNext, command_data hf hm, modnext_ok_iff.mpr ⟨md, hmod, hc, rfl⟩, ok_bind, settle_ok]
  rfl

/-- One more, modulo the length, is 0 after the last. -/
theorem succ_mod_eq_ite {i n : Nat} (h : i < n) : (i + 1) % n = if i + 1 = n then 0 else i + 1 := by
  split
  · rename_i hlast
    rw [hlast, Nat.mod_self]
  · exact Nat.mod_eq_of_lt (by omega)

/-- Settles O36: with the index inside the table `modnext` succeeds; without a modulator it is not ready. -/
theorem modNextGivesEntry : Obligations.ModNextGivesEntry := by
  intro m s hf hm
  refine ⟨fun md hmod hidx => ⟨_, List.getElem?_eq_getElem hidx, ?_⟩, fun hmod => ?_⟩
  · rw [exec_modNext hf hm hmod (List.getElem?_eq_getElem hidx), advanced, succ_mod_eq_ite hidx]
    rfl
  · simp only [exec, execModNext, command_data hf hm, modnext, hmod, error_bind]
    rfl

/-- The value the last of `n + 1` calls returns: the entry `n` places on, round the table. -/
theorem executes_modNext {m : ModNum} {md : Modulator} (n : Nat) (hf : s.fault = false) (hm : s.mode = .running)
    (hmod : s.mods[m] = some md) (hidx : md.idx < md.tab.length) :
    ∃ t c, executes (List.replicate (n + 1) (.modNext m)) s = some t ∧
      md.tab[(md.idx + n) % md.tab.length]? = some c ∧ t.r = .val c := by
  have hentry := List.getElem?_eq_getElem hidx
  induction n generalizing s md with
  | zero =>
    refine ⟨(s.setMod m (advanced md)).out (.val md.tab[md.idx]), md.tab[md.idx], ?_, ?_, rfl⟩
    · simp only [List.replicate, executes, exec_modNext hf hm hmod hentry]
    · rw [Nat.add_zero, Nat.mod_eq_of_lt hidx, hentry]
  | succ n ih =>
    have hidx' : (advanced md).idx < (advanced md).tab.length := Nat.mod_lt _ (Nat.zero_lt_of_lt hidx)
    obtain ⟨t, c, hrun, hc, hr⟩ := ih (s := (s.setMod m (advanced md)).out (.val md.tab[md.idx])) hf hm
      (file_get_set_self ..) hidx' (List.getElem?_eq_getElem hidx')
    refine ⟨t, c, ?_, ?_, hr⟩
    · rw [List.replicate_succ, executes, exec_modNext hf hm hmod hentry]
      exact hrun
    · rw [show md.idx + (n + 1) = md.idx + 1 + n by omega, ← Nat.mod_add_mod]
      exact hc

/-- Settles O37: the places `idx + k` and `idx + k + N` are the same, modulo N. -/
theorem modulatorIsPeriodic : Obligations.ModulatorIsPeriodic := by
  intro m s md k hf hm hmod hidx
  obtain ⟨t, c, hrun, hc, hr⟩ := executes_modNext k hf hm hmod hidx
  obtain ⟨u, c', hrun', hc', hr'⟩ := executes_modNext (k + md.tab.length) hf hm hmod hidx
  rw [Nat.add_right_comm] at hrun'
  rw [← Nat.add_assoc, Nat.add_mod_right, hc] at hc'
  cases hc'
  exact ⟨t, u, hrun, hrun', hr'.trans hr.symm⟩

/-! ### The tables -/

theorem built_depth_nonneg {sh fr dp : Num} {md : Modulator} (hs : StateOk s) (hb : Built s sh fr dp md) :
    0 ≤ md.depth := by
  obtain ⟨⟨-, -, -, -, -, -, -, -, -, -, -, -, -, -, -, ⟨-, hdepth⟩, -⟩, -⟩ := hs
  rw [hb.depth_eq]
  exact (validated_spec (good := inDepth) (fun _ => inCC_iff.mp) hdepth).1

theorem built_entry {sh fr dp : Num} {md : Modulator} {i : Nat} {c : Rat} (hb : Built s sh fr dp md)
    (hc : md.tab[i]? = some c) : i < md.tab.length ∧ c = wave s.params md.shape i md.tab.length md.depth := by
  obtain ⟨hi, -⟩ := List.getElem?_eq_some_iff.mp hc
  exact ⟨hi, Option.some.inj (hc.symm.trans (hb.entries i hi))⟩

theorem wave_entryOk {p : Params} {shape : Shape} {i n : Nat} {depth : Rat} (hi : i < n) (hd : 0 ≤ depth) :
    EntryOk shape depth (wave p shape i n depth) :=
  waveTable_entryOk hd (List.mem_of_getElem? (waveTable_getElem? p shape depth hi))

theorem tableSwing_of_ne_saw {shape : Shape} (h : shape ≠ .saw) : tableSwing shape = 1 := by
  cases shape
  case saw => exact absurd rfl h
  all_goals rfl

theorem sineWave_zero (n : Nat) (depth : Rat) : sineWave 0 n depth = 1 := by
  have hzero : sinPi 0 = 0 := sinPi_intCast 0
  rw [sineWave, Nat.cast_zero, mul_zero, zero_div, hzero, mul_zero, add_zero]

/-- Settles O38: an entry is the wave of its shape, which swings as far as `EntryOk` says. -/
theorem tableRanges : Obligations.TableRanges := by
  intro s sh fr dp md i c hs hb hc
  obtain ⟨hi, rfl⟩ := built_entry hb hc
  have hrange : EntryOk md.shape md.depth (wave s.params md.shape i md.tab.length md.depth) :=
    wave_entryOk hi (built_depth_nonneg hs hb)
  refine ⟨fun hsaw => ?_, fun hsaw => ?_, fun hsine hzero => ?_, fun hsquare => ?_⟩
  · rw [EntryOk, tableSwing_of_ne_saw hsaw, one_mul] at hrange
    exact hrange
  · rw [hsaw] at hrange ⊢
    exact hrange
  · rw [hsine, hzero]
    exact sineWave_zero _ _
  · rw [hsquare]
    rfl

end Sys2Proof.Proofs
end

section
/-! PROOFS. The statements of the basic delay family: the closed form of a SingleDelay (R182, R183). -/

namespace Sys2Proof.Proofs

open Sys2Proof.Machine Sys2Proof.Claims

variable {s t : State} {len d : Nat} {xs : List Rat}

/-! ### Streams of ticks -/

theorem ticks_append (xs ys : List Num) (s : State) : ticks (xs ++ ys) s = (ticks xs s).bind (ticks ys) := by
  induction xs generalizing s with
  | nil => rfl
  | cons x xs ih =>
    simp only [List.cons_append, ticks]
    split
    · exact ih _
    · rfl

theorem ticks_singleton {v : Num} (h : exec (.tick .din) { s with port := { s.port with din := [v] } } = .next t) :
    ticks [v] s = some t := by
  simp only [ticks, h]

/-! ### One sample through a SingleDelay -/

/-- `dry * x[n]`, from `n = D` on with `wet * x[n - D]` added to it (R183). -/
def sdRaw (u : ActiveUnit) (d : Nat) (xs : List Rat) (n : Nat) : Rat :=
  u.dry * xs.getD n 0 + if n < d then 0 else u.wet1 * xs.getD (n - d) 0

/-- A sample taken later changes no earlier result. -/
theorem sdRaw_append {u : ActiveUnit} {n : Nat} {x : Rat} (hn : n < xs.length) :
    sdRaw u d (xs ++ [x]) n = sdRaw u d xs n := by
  rw [sdRaw, sdRaw, List.getD_append _ _ _ _ hn, List.getD_append _ _ _ _ (by omega)]

/-- What a SingleDelay puts out for the samples `xs` (R183). -/
def sdOutputs (p : Params) (u : ActiveUnit) (d : Nat) (xs : List Rat) : List Num :=
  (List.range xs.length).map fun n => .val (clampSample p (sdRaw u d xs n))

theorem sdOutputs_append_singleton (p : Params) (u : ActiveUnit) (d : Nat) (xs : List Rat) (x : Rat) :
    sdOutputs p u d (xs ++ [x]) = sdOutputs p u d xs ++ [.val (clampSample p (sdRaw u d (xs ++ [x]) xs.length))] := by
  rw [sdOutputs, sdOutputs, List.length_append, List.length_singleton, List.range_succ, List.map_append]
  congr 1
  exact List.map_congr_left fun n hn => by rw [sdRaw_append (List.mem_range.mp hn)]

/-- The buffer holds what R110 says, so the raw result of one more sample is that of R183. -/
theorem addDelayed_pushes_alloc (u : ActiveUnit) (xs : List Rat) (x : Rat) (h1 : 1 ≤ d) (hd : d ≤ len) :
    ∃ tap, (pushes (Db.alloc len [d]) (xs.map .val)).taps = [tap] ∧
      addDelayed (times u.dry (.val x)) u.wet1 (delayed (pushes (Db.alloc len [d]) (xs.map .val)) tap) =
        .val (sdRaw u d (xs ++ [x]) xs.length) := by
  obtain ⟨tap, htap, hdelayed⟩ := exactDelay len [d] 0 d (xs.map .val) (h1.trans hd) rfl hd
  have htaps := pushes_alloc_taps (len := len) (delays := [d]) (xs.map .val)
  refine ⟨tap, ?_, ?_⟩
  · rw [htaps] at htap ⊢
    exact congrArg (fun tap => [tap]) (Option.some.inj htap)
  · have hlast : (xs ++ [x]).getD xs.length 0 = x := by simp
    rw [hdelayed, if_neg (by omega), List.length_map, sdRaw, hlast]
    by_cases hcold : xs.length < d
    · rw [if_pos hcold, if_pos hcold, add_zero]
      rfl
    · have hlt : xs.length - d < xs.length := by omega
      rw [if_neg hcold, if_neg hcold, List.getD_append _ _ _ _ hlt, List.getD_eq_getElem _ _ hlt,
        List.getD_eq_getElem _ _ (by rwa [List.length_map]), List.getElem_map]
      rfl

/-- `TICK` of a SingleDelay whose raw result is a number. -/
theorem exec_tick_sd {src : Src} {v : Num} {db : Db} {tap : Tap} {q : Rat} (hf : s.fault = false)
    (hm : s.mode = .running) (hk : s.unit.kind = .sd) (hb : s.dbs[effectDb] = some db) (ht : db.taps = [tap])
    (hin : s.input src = (s, v)) (hq : addDelayed (times s.unit.dry v) s.unit.wet1 (delayed db tap) = .val q) :
    exec (.tick src) s =
      .next ((s.setDb effectDb (db.write v).advance).out (.val (clampSample s.params q))).latchExh :=
  execTick_of_unitTick hf hm (by simp only [State.unitReady, hk]) hin (by rw [unitTick_sd hk hb ht, hq]; rfl)

/-! ### A stream through a SingleDelay -/

/-- A SingleDelay with a fresh buffer in `s` has taken the samples `xs`: its buffer holds them, and their outputs are
those of R183. -/
structure SdTook (s : State) (len d : Nat) (xs : List Rat) (t : State) : Prop where
  fault_eq : t.fault = false
  mode_eq : t.mode = .running
  unit_eq : t.unit = s.unit
  params_eq : t.params = s.params
  buffer_eq : t.dbs[effectDb] = some (pushes (Db.alloc len [d]) (xs.map .val))
  dout_eq : t.dout = s.dout ++ sdOutputs s.params s.unit d xs

theorem SdTook.tick (h : SdTook s len d xs t) (hk : s.unit.kind = .sd) (h1 : 1 ≤ d) (hd : d ≤ len) (x : Rat) :
    ∃ u, ticks [.val x] t = some u ∧ SdTook s len d (xs ++ [x]) u := by
  obtain ⟨tap, htap, hraw⟩ := addDelayed_pushes_alloc t.unit xs x h1 hd
  rw [← h.unit_eq] at hk
  refine ⟨_, ticks_singleton (exec_tick_sd h.fault_eq h.mode_eq hk h.buffer_eq htap rfl hraw),
    { h with buffer_eq := ?_, dout_eq := ?_ }⟩
  · rw [List.map_append, List.map_singleton, pushes_append_singleton]
    exact file_get_set_self _ _ _
  · rw [sdOutputs_append_singleton, ← List.append_assoc, ← h.dout_eq, ← h.params_eq, ← h.unit_eq]
    rfl

theorem sdTook_ticks (h : SdTook s len d [] s) (hk : s.unit.kind = .sd) (h1 : 1 ≤ d) (hd : d ≤ len) (xs : List Rat) :
    ∃ t, ticks (xs.map .val) s = some t ∧ SdTook s len d xs t := by
  induction xs using List.reverseRecOn with
  | nil => exact ⟨s, rfl, h⟩
  | append_singleton xs x ih =>
    obtain ⟨t, hrun, ht⟩ := ih
    obtain ⟨u, htick, hu⟩ := ht.tick hk h1 hd x
    refine ⟨u, ?_, hu⟩
    rw [List.map_append, ticks_append, hrun]
    exact htick

/-- Settles O59, by induction on the stream: with every sample the buffer holds the samples so far. -/
theorem singleDelayClosedForm : Obligations.SingleDelayClosedForm := by
  intro s len d xs hf hm hk hb h1 hd
  have hstart : SdTook s len d [] s := ⟨hf, hm, rfl, rfl, hb, (List.append_nil _).symm⟩
  obtain ⟨t, hrun, ht⟩ := sdTook_ticks hstart hk h1 hd xs
  exact ⟨t, hrun, ht.dout_eq⟩

end Sys2Proof.Proofs
end

section
/-! PROOFS. The statements of the modulated delay family: what `CFG.MC` and `CFG.FC` leave (R201, R206, R258, R259);
`TICK` of a MultiChorus and of a FeedbackChorus (R200, R202, R203, R207). -/

namespace Sys2Proof.Proofs

open Sys2Proof.Machine Sys2Proof.Claims Sys2Proof.Safety

variable {s s' t : State} {db : Db} {md : Modulator} {q : McOperands} {nt nm : Nat} {src : Src} {x : Num}

/-- The state with other modulators. -/
def withMods (s : State) (mods : Vector (Option Modulator) 3) : State := { s with mods := mods }

@[simp] theorem withMods_ip (s : State) (mods : Vector (Option Modulator) 3) : (withMods s mods).ip = s.ip := rfl

@[simp] theorem withMods_buffer (s : State) (mods : Vector (Option Modulator) 3) (b : DbNum) :
    (withMods s mods).buffer b = s.buffer b := rfl

/-! ### The modulators a configuration builds -/

/-- A file of modulators with those of a list of operands built into it, in order (R141, R201). -/
def modsBuilt (s : State) (mods : Vector (Option Modulator) 3) (ms : List (ModNum × Num × Num × Num)) :
    Vector (Option Modulator) 3 :=
  ms.foldl (fun mods (m, sh, fr, dp) => mods.set m (some (modulatorOf s sh fr dp))) mods

/-- The range tests of the modulators of a list of operands. -/
def modsTests (ms : List (ModNum × Num × Num × Num)) : List Bool :=
  ms.flatMap fun (_, sh, fr, dp) => modTests sh fr dp

theorem modsTests_any_not (ms : List (ModNum × Num × Num × Num)) :
    (modsTests ms).any not = (ms.map fun (_, sh, fr, dp) => modInRange sh fr dp).any not := by
  simp only [modsTests, List.any_flatMap, modTests_any_not, List.any_map, Function.comp_def]

theorem noteSubst_nil (s : State) : s.noteSubst [] = s := by
  simp only [State.noteSubst, List.any_nil, Bool.or_false]

theorem noteSubst_noteSubst (s : State) (oks oks' : List Bool) :
    (s.noteSubst oks).noteSubst oks' = s.noteSubst (oks ++ oks') := by
  simp only [State.noteSubst, List.any_append, Bool.or_assoc]

/-- In a state with the rate and the parameters of `s`, with tables that fit, one modulator after the other is built. -/
theorem modcfgFirst_of_fits {ms : List (ModNum × Num × Num × Num)} (hs : StateOk s) (hrate : s.srate ≠ 0)
    (hstep : ConfigStep s t) (hfit : ∀ o ∈ ms, TableFits s o.2.2.1) :
    modcfgFirst ms t = .ok ((withMods t (modsBuilt s t.mods ms)).noteSubst (modsTests ms)) := by
  induction ms generalizing t with
  | nil => exact congrArg Except.ok (noteSubst_nil t).symm
  | cons o ms ih =>
    obtain ⟨m, sh, fr, dp⟩ := o
    have hlen := tableLength_eq_of_configStep hs hstep fr
    obtain ⟨hlow, hhigh⟩ : TableFits s fr := hfit _ List.mem_cons_self
    have hmod : modulatorOf t sh fr dp = modulatorOf s sh fr dp := by
      simp only [modulatorOf, hstep.params, hstep.srate]
    have hone : modcfg m sh fr dp t = .ok ((t.noteSubst (modTests sh fr dp)).setMod m (modulatorOf s sh fr dp)) :=
      modcfg_ok_iff.mpr ⟨by rwa [hstep.srate], by rwa [hlen], by rwa [hlen, hstep.params], by rw [hmod]⟩
    have hrest := ih (hstep.trans (modcfg_configStep hone)) fun o ho => hfit o (List.mem_cons_of_mem _ ho)
    rw [modcfgFirst, hone, ok_bind, hrest]
    exact congrArg Except.ok (noteSubst_noteSubst (withMods t (modsBuilt s t.mods ((m, sh, fr, dp) :: ms))) _ _)

theorem modcfgFirst_singleton (m : ModNum) (sh fr dp : Num) (s : State) :
    modcfgFirst [(m, sh, fr, dp)] s = modcfg m sh fr dp s :=
  bind_pure _

/-! ### Configuration of a chorus unit -/

/-- What `CFG` of a chorus unit leaves: a fresh effect buffer and the modulators of its operands in an empty pool, `IP`
and the unit set, `DEFSUB` as the range tests have it (R38, R258, R259). -/
def chorusState (s : State) (len : Nat) (ds : List Nat) (ms : List (ModNum × Num × Num × Num)) (ip : Ip)
    (unit : ActiveUnit) (anyDefault : Bool) : State :=
  { s with
    dbs := onlyEffect (Db.alloc len ds), mods := modsBuilt s (Vector.replicate 3 none) ms
    fus := Vector.replicate 7 none, ip := ip, unit := unit, defsub := s.defsub || anyDefault }

theorem chorusState_rebuilt (s : State) (len : Nat) (ds : List Nat) (ms : List (ModNum × Num × Num × Num)) (ip : Ip)
    (unit : ActiveUnit) (anyDefault : Bool) : Rebuilt s (chorusState s len ds ms ip unit anyDefault) anyDefault := rfl

/-- A kind's rule that allocates the effect buffer, builds modulators, notes its range tests and sets the unit and
`IP`, with a rate, a capacity and tables that fit (R188, R201, R206, R258). -/
theorem configure_chorus {rule : State → Except Cause State} {maxMs : Rat} {ds : List Nat}
    {ms : List (ModNum × Num × Num × Num)} {oks : List Bool} {ip : Ip} {anyDefault : Bool}
    (unitOf : ActiveUnit → ActiveUnit) (hs : StateOk s) (hf : s.fault = false) (hm : s.mode = .stopped)
    (hrate : s.srate ≠ 0) (hcap : effectCapacity s maxMs ≤ s.params.lmax) (hfit : ∀ o ∈ ms, TableFits s o.2.2.1)
    (hrule : rule s.clearPool = (do
      s.clearPool.needContext
      let t ← effalloc maxMs ds s.clearPool
      let t ← modcfgFirst ms t
      .ok { (t.noteSubst oks).setUnit (unitOf t.unit) with ip := ip }))
    (hany : (modsTests ms ++ oks).any not = anyDefault) :
    s.configure rule = .next (chorusState s (effectCapacity s maxMs) ds ms ip (unitOf .idle) anyDefault) := by
  have halloc : effalloc maxMs ds s.clearPool =
      .ok (s.clearPool.setDb effectDb (Db.alloc (effectCapacity s maxMs) ds)) := effalloc_ok_iff.mpr ⟨hcap, rfl⟩
  have hmods := modcfgFirst_of_fits hs hrate
    (clearPool_setDb_configStep s effectDb (Db.alloc (effectCapacity s maxMs) ds)) hfit
  rw [State.configure, command_cfg hf hm, hrule, needContext_bind (s := s.clearPool) hrate, halloc, ok_bind, hmods,
    ok_bind, settle_ok, noteSubst_noteSubst, ← hany]
  simp only [chorusState, State.setUnit, State.noteSubst, withMods, State.setDb, State.clearPool, onlyEffect]
  rfl

/-- Settles O51: the rule of that form with modulator 0 alone. -/
theorem cfgFcBuildsFeedbackChorus : Obligations.CfgFcBuildsFeedbackChorus := by
  intro s hs hf hm hrate hcap hfit
  refine ⟨_, _, _, configure_chorus (ms := [(0, s.p[3], s.p[4], s.p[5])])
    (oks := [s.p[0].passes (inCC 0 1), s.p[1].passes (inCO 0 100), s.p[2].passes (inCC 0 s.params.maxFc)] ++
      ipTests s.p[6] s.p[7] s.p[8])
    (ip := ipOf s.params.defs s.p[6] s.p[7] s.p[8])
    (fun u => { u with
      kind := .fc
      gain := validated s.p[0] (inCC 0 1) s.params.defs.fcGain
      g := percent (validated s.p[1] (inCO 0 100) s.params.defs.fcDecay) }) hs hf hm hrate hcap
    (List.forall_mem_singleton.mpr hfit) ?_ ?_, chorusState_rebuilt .., rfl, rfl, modulatorOf_built hs hfit, rfl, rfl,
    ipOf_ipSet s .., alloc_fresh .., rfl⟩
  · simp only [modcfgFirst_singleton]
    rfl
  · rw [List.any_append, modsTests_any_not, List.any_append, ipTests_any_not]
    simp only [List.map, List.any, Bool.not_and, Bool.or_false]
    ac_rfl

/-! ### The operands of a MultiChorus -/

/-- The counts `CFG.MC` goes by are from 1 to 3 (R201). -/
theorem chorusOperands_counts (hv : s.params.Valid) (hq : q = chorusOperands s) (hnt : q[2] = .val nt)
    (hnm : q[6] = .val nm) : (1 ≤ nt ∧ nt ≤ 3) ∧ 1 ≤ nm ∧ nm ≤ 3 := by
  have hcounts : q.countsOk = true := hq ▸ mcOperands_counts hv
  obtain ⟨ht, hm⟩ := (Bool.and_eq_true _ _).mp hcounts
  have ht := countOf_of_isInt ht
  have hm := countOf_of_isInt hm
  rw [hnt, countOf_natCast] at ht
  rw [hnm, countOf_natCast] at hm
  exact ⟨ht, hm⟩

theorem insertAscending_perm (v : Rat) (l : List Rat) : (insertAscending v l).Perm (v :: l) := by
  induction l with
  | nil => exact .refl _
  | cons w ws ih =>
    unfold insertAscending
    split
    · exact .refl _
    · exact (ih.cons w).trans (.swap v w ws)

theorem sortAscending_perm (l : List Rat) : (sortAscending l).Perm l := by
  induction l with
  | nil => exact .refl _
  | cons v vs ih => exact (insertAscending_perm v _).trans (ih.cons v)

/-- The three delays in milliseconds of a MultiChorus, in use or not (R201). -/
def chorusDelays (s : State) (q : McOperands) : List Rat :=
  [validated q[3] (inCC 0 s.params.maxMc) s.params.defs.mcDelay[0],
    validated q[4] (inCC 0 s.params.maxMc) s.params.defs.mcDelay[1],
    validated q[5] (inCC 0 s.params.maxMc) s.params.defs.mcDelay[2]]

/-- The range tests of `CFG.MC` but those of its modulators. -/
def chorusTests (s : State) (q : McOperands) (nt : Nat) : List Bool :=
  [s.p[2].passes (isInt 1 3) && s.p[6].passes (isInt 1 3), q[0].passes (inCC 0 100), q[1].passes (inCC 0 100)] ++
    [q[3].passes (inCC 0 s.params.maxMc), q[4].passes (inCC 0 s.params.maxMc),
      q[5].passes (inCC 0 s.params.maxMc)].take nt ++ ipTests q[16] q[17] q[18]

/-- The unit record of a MultiChorus from its operands. -/
def chorusUnit (s : State) (q : McOperands) (nt nm : Nat) (u : ActiveUnit) : ActiveUnit :=
  { u with
    kind := .mc
    dry := percent (validated q[0] (inCC 0 100) s.params.defs.mcDry)
    wet1 := percent (validated q[1] (inCC 0 100) s.params.defs.mcWet)
    nt := nt
    nm := nm }

/-- The rule of a MultiChorus over the cleared pool, with its operands and their counts named. -/
theorem configMc_clearPool (hq : q = chorusOperands s) (hnt : q[2] = .val nt) (hnm : q[6] = .val nm) :
    configMc s.clearPool = (do
      s.clearPool.needContext
      let t ← effalloc s.params.maxMc ((sortAscending ((chorusDelays s q).take nt)).map (samples s)) s.clearPool
      let t ← modcfgFirst ((chorusMods q).take nm) t
      .ok { (t.noteSubst (chorusTests s q nt)).setUnit (chorusUnit s q nt nm t.unit) with
        ip := ipOf s.params.defs q[16] q[17] q[18] }) := by
  have ht : nt = countOf q[2] := by rw [hnt, countOf_natCast]
  have hm : nm = countOf q[6] := by rw [hnm, countOf_natCast]
  subst ht hm hq
  rfl

/-- The tests of the first so many of three values, at least one of them. -/
theorem take_any_not {n : Nat} (h1 : 1 ≤ n) (h3 : n ≤ 3) (a b c : Bool) :
    ([a, b, c].take n).any not = !(a && (decide (n < 2) || b) && (decide (n < 3) || c)) := by
  interval_cases n <;> simp [Bool.or_assoc]

theorem chorusTests_any_not (h1 : 1 ≤ nt) (h3 : nt ≤ 3) :
    (chorusTests s q nt).any not = !(s.p[2].passes (isInt 1 3) && s.p[6].passes (isInt 1 3) &&
      q[0].passes (inCC 0 100) && q[1].passes (inCC 0 100) && (q[3].passes (inCC 0 s.params.maxMc) &&
        (decide (nt < 2) || q[4].passes (inCC 0 s.params.maxMc)) &&
        (decide (nt < 3) || q[5].passes (inCC 0 s.params.maxMc))) && ipInRange q[16] q[17] q[18]) := by
  rw [chorusTests, List.any_append, List.any_append, take_any_not h1 h3, ipTests_any_not]
  simp only [List.any, Bool.not_and, Bool.or_false, Bool.or_assoc]

theorem chorusMods_any_not (h1 : 1 ≤ nm) (h3 : nm ≤ 3) :
    (modsTests ((chorusMods q).take nm)).any not = !(modInRange q[7] q[8] q[9] &&
      (decide (nm < 2) || modInRange q[10] q[11] q[12]) && (decide (nm < 3) || modInRange q[13] q[14] q[15])) := by
  rw [modsTests_any_not, List.map_take]
  exact take_any_not h1 h3 _ _ _

theorem chorusMods_fit (h0 : TableFits s q[8]) (h1 : 2 ≤ nm → TableFits s q[11]) (h2 : 3 ≤ nm → TableFits s q[14]) :
    ∀ o ∈ (chorusMods q).take nm, TableFits s o.2.2.1 := by
  intro o ho
  obtain ⟨i, hi, rfl⟩ := List.mem_take_iff_getElem.mp ho
  obtain ⟨hnm, h3⟩ : i < nm ∧ i < 3 := lt_min_iff.mp hi
  interval_cases i
  · exact h0
  · exact h1 hnm
  · exact h2 hnm

/-- The first `nm` modulators are built and the others are not (R201). -/
theorem modsBuilt_chorusMods (h1 : 1 ≤ nm) (h3 : nm ≤ 3) :
    modsBuilt s (Vector.replicate 3 none) ((chorusMods q).take nm) = #v[some (modulatorOf s q[7] q[8] q[9]),
      if 2 ≤ nm then some (modulatorOf s q[10] q[11] q[12]) else none,
      if 3 ≤ nm then some (modulatorOf s q[13] q[14] q[15]) else none] := by
  interval_cases nm <;> rfl

theorem built_of_used {used : Prop} [Decidable used] {sh fr dp : Num} (hs : StateOk s) (hfit : used → TableFits s fr) :
    if used then ∃ md, (if used then some (modulatorOf s sh fr dp) else none) = some md ∧ Built s sh fr dp md
      else (if used then some (modulatorOf s sh fr dp) else none) = none := by
  split
  · exact ⟨_, rfl, modulatorOf_built hs (hfit ‹_›)⟩
  · rfl

/-- Settles O50: the rule of that form once its operands and their counts, from 1 to 3, are known. -/
theorem cfgMcBuildsMultiChorus : Obligations.CfgMcBuildsMultiChorus := by
  intro s q nt nm hs hf hm hrate hcap hq hnt hnm h0 h1 h2
  obtain ⟨⟨hnt1, hnt3⟩, hnm1, hnm3⟩ := chorusOperands_counts hs.1 hq hnt hnm
  refine ⟨_, _, _, configure_chorus _ hs hf hm hrate hcap (chorusMods_fit h0 h1 h2) (configMc_clearPool hq hnt hnm) ?_,
    chorusState_rebuilt .., rfl, rfl, rfl, ipOf_ipSet s .., alloc_fresh .., sortAscending_sorted _,
    sortAscending_perm _, ?_⟩
  · rw [List.any_append, chorusMods_any_not hnm1 hnm3, chorusTests_any_not hnt1 hnt3, ← Bool.not_and]
    ac_rfl
  · simp only [chorusState, modsBuilt_chorusMods hnm1 hnm3]
    exact ⟨⟨_, rfl, modulatorOf_built hs h0⟩, built_of_used hs h1, built_of_used hs h2, rfl⟩

/-! ### The modulated read of a tap -/

/-- The modulated position of a tap is in the buffer, a multiple of the length away from `wp - D c` (R108). -/
theorem modulatedPos_wrapped (hl : 1 ≤ db.len) (tap : Tap) (c : Rat) :
    Wrapped ((db.wp : Rat) - tap.delay * c) db.len (db.modulatedPos tap c) :=
  (floorMod_eq_iff hl).mp rfl

theorem wrapped_self {p w : Rat} {len : Nat} (h : Wrapped p len w) : Wrapped w len w := by
  obtain ⟨hlow, hhigh, -⟩ := h
  exact ⟨hlow, hhigh, 0, by rw [Int.cast_zero, mul_zero, add_zero]⟩

/-- The position a tap is read at is wrapped already, so the read does not move it (R127, R200). -/
theorem mread_eq_readAt (hl : 1 ≤ db.len) (ip : Ip) (tap : Tap) (c : Rat) :
    db.mread ip tap c = readAt db ip (db.modulatedPos tap c) :=
  interp_of_wrapped hl (wrapped_self (modulatedPos_wrapped hl tap c))

/-! ### The modulators a tick reads -/

/-- A modulator with its index moved on by one, from the last entry to the first (R148). -/
def movedOn (md : Modulator) : Modulator := { md with idx := if md.idx + 1 = md.tab.length then 0 else md.idx + 1 }

theorem modnext_of_entry {m : ModNum} {c : Rat} (hm : s.mods[m] = some md) (hc : md.tab[md.idx]? = some c) :
    modnext m s = .ok (s.setMod m (movedOn md), c) := by
  obtain ⟨hidx, -⟩ := List.getElem?_eq_some_iff.mp hc
  refine modnext_ok_iff.mpr ⟨md, hm, hc, ?_⟩
  rw [succ_mod_eq_ite hidx]
  rfl

/-- A file of modulators with those of a list moved on. -/
def modsMovedOn (ms : List ModNum) (mods : Vector (Option Modulator) 3) : Vector (Option Modulator) 3 :=
  mods.mapFinIdx fun m md h => if ⟨m, h⟩ ∈ ms then md.map movedOn else md

theorem modsMovedOn_get (ms : List ModNum) (mods : Vector (Option Modulator) 3) (m : ModNum) :
    (modsMovedOn ms mods)[m] = if m ∈ ms then mods[m].map movedOn else mods[m] := by
  simp [modsMovedOn]

theorem modsMovedOn_nil (mods : Vector (Option Modulator) 3) : modsMovedOn [] mods = mods :=
  Vector.ext fun i hi => modsMovedOn_get [] mods ⟨i, hi⟩

/-- Moving one modulator on and then others is moving all of them on. -/
theorem modsMovedOn_set {m : ModNum} {ms : List ModNum} {mods : Vector (Option Modulator) 3} (hm : mods[m] = some md)
    (hnot : m ∉ ms) : modsMovedOn ms (mods.set m (some (movedOn md))) = modsMovedOn (m :: ms) mods := by
  refine Vector.ext fun i hi => ?_
  change (modsMovedOn ms _)[(⟨i, hi⟩ : ModNum)] = (modsMovedOn (m :: ms) mods)[(⟨i, hi⟩ : ModNum)]
  rw [modsMovedOn_get, modsMovedOn_get, file_get_set]
  by_cases hk : m = ⟨i, hi⟩
  · rw [← hk, if_pos rfl, if_neg hnot, if_pos List.mem_cons_self, hm]
    rfl
  · simp only [if_neg hk, List.mem_cons, Ne.symm hk, false_or]

/-- Different modulators, read one after the other, each give the entry they stand at (R203). -/
theorem coefficients_of_entries {ms : List ModNum} {c : Nat → Rat} (hnd : ms.Nodup)
    (h : ∀ m ∈ ms, ∃ md, s.mods[m] = some md ∧ md.tab[md.idx]? = some (c m)) :
    coefficients ms s = .ok (withMods s (modsMovedOn ms s.mods), ms.map fun m : ModNum => c m) := by
  induction ms generalizing s with
  | nil => rw [modsMovedOn_nil]; rfl
  | cons m ms ih =>
    obtain ⟨hnot, hnd⟩ := List.nodup_cons.mp hnd
    obtain ⟨md, hm, hc⟩ := h m List.mem_cons_self
    have hrest : ∀ k ∈ ms, ∃ md', (s.setMod m (movedOn md)).mods[k] = some md' ∧ md'.tab[md'.idx]? = some (c k) := by
      intro k hk
      have hne : m ≠ k := fun e => hnot (e ▸ hk)
      rw [State.setMod_mods, file_get_set, if_neg hne]
      exact h k (List.mem_cons_of_mem _ hk)
    simp only [coefficients, modnext_of_entry hm hc, ok_bind, ih hnd hrest, State.setMod_mods, modsMovedOn_set hm hnot]
    rfl

/-- The modulators of a MultiChorus with `nm` of them, as its tick reads them (R203). -/
abbrev usedMods (nm : Nat) : List ModNum := ([0, 1, 2] : List ModNum).take nm

theorem usedMods_nodup (nm : Nat) : (usedMods nm).Nodup := (List.take_sublist _ _).nodup (by decide)

theorem mem_usedMods {m : ModNum} : m ∈ usedMods nm ↔ m.val < nm := by
  by_cases h : nm < 3
  · interval_cases nm <;> revert m <;> decide
  · rw [usedMods, List.take_of_length_le (not_lt.mp h)]
    exact iff_of_true (by revert m; decide) (m.isLt.trans_le (not_lt.mp h))

theorem coefficientOf_usedMods (c : Nat → Rat) (h1 : 1 ≤ nm) (h3 : nm ≤ 3) (k : Nat) :
    coefficientOf ((usedMods nm).map fun m : ModNum => c m) k = .ok (c (k % nm)) := by
  have hcs : (usedMods nm).map (fun m : ModNum => c m) = (List.range nm).map c := by
    interval_cases nm <;> rfl
  have hk : k % nm < nm := Nat.mod_lt _ h1
  simp [coefficientOf, hcs, hk]

/-! ### `TICK` of the chorus units -/

theorem effectDb_dbOk (hs : StateOk s) (hd : s.dbs[effectDb] = some db) : DbOk s.params db := by
  obtain ⟨-, -, -, ⟨hdbs, -⟩, -⟩ := hs
  exact hdbs effectDb db hd

/-- `TICK` of a ready unit whose arm reads modulators, pushes one value through the effect buffer and clamps a raw
result. -/
theorem exec_tick_of_mods_push {v raw : Num} {mods : Vector (Option Modulator) 3} (hf : s.fault = false)
    (hm : s.mode = .running) (hr : s.unitReady = true) (hok : DbOk s.params db) (hin : s.input src = (s', x))
    (harm : unitTick x s' = .ok (((withMods s' mods).setDb effectDb (db.write v).advance).clampS raw)) :
    ∃ t db', exec (.tick src) s = .next t ∧ Pushed db db' v ∧
      Clamped { s' with dbs := s.dbs.set effectDb (some db'), exh := s.port.srcExh, mods := mods } raw
        (clampSample s.params) t := by
  obtain ⟨hstep, hdbs, -⟩ := input_keeps hin
  refine ⟨_, _, execTick_of_unitTick hf hm hr hin harm, write_advance_pushed hok v, ?_⟩
  rw [← hdbs, ← hstep.port, ← hstep.params]
  exact clampS_out_clamped _ raw

theorem unitTick_fc {tap : Tap} {c : Rat} (hk : s.unit.kind = .fc) (hd : s.dbs[effectDb] = some db)
    (hl : 1 ≤ db.len) (ht : db.taps[0]? = some tap) (hm : s.mods[(0 : ModNum)] = some md)
    (hc : md.tab[md.idx]? = some c) :
    unitTick x s = .ok (((s.setMod 0 (movedOn md)).setDb effectDb
      (db.write (x.add (times s.unit.g (readAt db s.ip (db.modulatedPos tap c))))).advance).clampS
        (times s.unit.gain (x.add (times s.unit.g (readAt db s.ip (db.modulatedPos tap c)))))) := by
  have hd' : (s.setMod 0 (movedOn md)).dbs[effectDb] = some db := hd
  simp only [unitTick, hk, tickFc, modnext_of_entry hm hc, buffer_ok_iff.mpr hd', tap_ok_iff.mpr ht, ok_bind,
    mread_eq_readAt hl]
  rfl

/-- Settles O55: the arm reads modulator 0, then the tap, and pushes the sum through the effect buffer. -/
theorem tickRunsFeedbackChorus : Obligations.TickRunsFeedbackChorus := by
  intro src s s' x db md c tap hs hf hm hk hd ht hin hmod hc
  obtain ⟨hstep, hdbs, hmods⟩ := input_keeps hin
  have hok := effectDb_dbOk hs hd
  have harm := unitTick_fc (s := s') (x := x) (by rw [hstep.unit, hk]) (by rw [hdbs, hd]) hok.1 ht
    (by rw [hmods]; exact hmod) hc
  rw [hstep.unit, hstep.ip] at harm
  obtain ⟨t, db', hexec, hpush, hclamp⟩ :=
    exec_tick_of_mods_push hf hm (by simp only [State.unitReady, hk]) hok hin harm
  rw [hmods] at hclamp
  exact ⟨t, db', _, hexec, modulatedPos_wrapped hok.1 tap c, hpush, hclamp⟩

/-- Where a MultiChorus reads tap `k`, with the coefficient of modulator `k mod nm` (R202). -/
def chorusPos (db : Db) (c : Nat → Rat) (nm k : Nat) : Rat := db.modulatedPos (db.taps.getD k default) (c (k % nm))

theorem chorusPos_of_tap {k : Nat} {tap : Tap} (c : Nat → Rat) (nm : Nat) (ht : db.taps[k]? = some tap) :
    chorusPos db c nm k = db.modulatedPos tap (c (k % nm)) := by
  rw [chorusPos, List.getD_eq_getElem?_getD, ht]
  rfl

theorem sumTaps_eq_foldl {ip : Ip} {cs : List Rat} {c : Nat → Rat} {ks : List Nat} (hl : 1 ≤ db.len)
    (hcs : ∀ k, coefficientOf cs k = .ok (c (k % nm))) (hks : ∀ k ∈ ks, k < db.taps.length) (acc : Num) :
    sumTaps db ip cs ks acc = .ok (ks.foldl (fun acc k => acc.add (readAt db ip (chorusPos db c nm k))) acc) := by
  induction ks generalizing acc with
  | nil => rfl
  | cons k ks ih =>
    have hk : k < db.taps.length := hks k List.mem_cons_self
    rw [sumTaps, tap_ok hk, ok_bind, hcs, ok_bind, ih (fun j hj => hks j (List.mem_cons_of_mem _ hj)),
      mread_eq_readAt hl, List.foldl_cons, chorusPos_of_tap c nm (List.getElem?_eq_getElem hk)]

/-- A MultiChorus has from 1 to 3 modulators (R37). -/
theorem multiChorus_nm (hs : StateOk s) (hk : s.unit.kind = .mc) : 1 ≤ s.unit.nm ∧ s.unit.nm ≤ 3 := by
  obtain ⟨-, -, -, -, -, -, -, -, hmax, hmin⟩ := hs
  exact ⟨(hmin hk).2, hmax⟩

theorem unitTick_mc {c : Nat → Rat} (hs : StateOk s) (hk : s.unit.kind = .mc) (hd : s.dbs[effectDb] = some db)
    (hc : ∀ m : ModNum, m.val < s.unit.nm → ∃ md, s.mods[m] = some md ∧ md.tab[md.idx]? = some (c m)) :
    unitTick x s = .ok (((withMods s (modsMovedOn (usedMods s.unit.nm) s.mods)).setDb effectDb
      (db.write x).advance).clampS ((times s.unit.dry x).add (times s.unit.wet1
        ((List.range s.unit.nt).foldl
          (fun acc k => acc.add (readAt db s.ip (chorusPos db c s.unit.nm k))) (.val 0))))) := by
  obtain ⟨db', hd', htaps⟩ := effect_ok (n := s.unit.nt) hs (by simp only [kindTaps, hk])
  cases hd.symm.trans hd'
  have hcoef := coefficients_of_entries (usedMods_nodup s.unit.nm) fun m hm => hc m (mem_usedMods.mp hm)
  obtain ⟨hnm1, hnm3⟩ := multiChorus_nm hs hk
  have hsum := sumTaps_eq_foldl (ip := s.ip) (effectDb_dbOk hs hd).1 (coefficientOf_usedMods c hnm1 hnm3)
    (ks := List.range s.unit.nt) (fun k hk => by rw [htaps]; exact List.mem_range.mp hk) .zero
  simp only [unitTick, hk, tickMc, hcoef, withMods_buffer, withMods_ip, buffer_ok_iff.mpr hd, hsum, ok_bind]
  rfl

/-- Settles O54: the arm reads the used modulators, then sums the reads of the taps, and pushes the raw input. -/
theorem tickRunsMultiChorus : Obligations.TickRunsMultiChorus := by
  intro src s s' x db c hs hf hm hk hd hin hc
  obtain ⟨hstep, hdbs, hmods⟩ := input_keeps hin
  have hok := effectDb_dbOk hs hd
  have harm := unitTick_mc (s := s') (x := x) (dataStep_inv hstep hs) (by rw [hstep.unit, hk]) (by rw [hdbs, hd])
    (by rw [hstep.unit, hmods]; exact hc)
  rw [hstep.unit, hstep.ip, hmods] at harm
  obtain ⟨t, db', hexec, hpush, hclamp⟩ :=
    exec_tick_of_mods_push hf hm (by simp only [State.unitReady, hk]) hok hin harm
  refine ⟨t, db', chorusPos db c s.unit.nm, hexec, hpush, fun k tap ht => ?_, ?_⟩
  · rw [chorusPos_of_tap c _ ht]
    exact modulatedPos_wrapped hok.1 tap _
  · simp only [modsMovedOn, mem_usedMods] at hclamp
    exact hclamp

end Sys2Proof.Proofs
end

section
/-! PROOFS. The statements of the reverb and composition family: the mixer (R224, R225); the engines as the tick
commands of their units (R221 to R223); a reverb tick as its engine commands and `MIX` (R228 to R234); when `TICK` and
`BLOCK` run (R260, R261); what the reverbs' `CFG` leaves (R226, R227, R229, R231). -/

namespace Sys2Proof.Proofs

open Sys2Proof.Machine Sys2Proof.Claims Sys2Proof.Safety

variable {s s' t : State} {a b u : FuNum} {us : List FuNum} {src : Src} {x v w y : Num}

/-! ### The mixer -/

theorem mixcfg_of_inRange {q : Rat} (h0 : 0 ≤ q) (h1 : q ≤ 100) (s : State) :
    s.mixcfg (.val q) = { s with mixr := q / 100 } := by
  have hok : inCC 0 100 q = true := inCC_iff.mpr ⟨h0, h1⟩
  simp [State.mixcfg, State.noteSubst, Num.passes, validated, percent, hok]

theorem mixcfg_of_outOfRange (h : ∀ q, v = .val q → q < 0 ∨ 100 < q) (s : State) :
    s.mixcfg v = { s with mixr := 1 / 2, defsub := true } := by
  have hmixr : percent Config.defMix = 1 / 2 := by norm_num [percent, Config.defMix]
  cases v with
  | nan => simp [State.mixcfg, State.noteSubst, Num.passes, validated, hmixr]
  | val q =>
    have hok : inCC 0 100 q = false := by
      rw [← Bool.not_eq_true, inCC_iff, not_and_or, not_le, not_le]
      exact h q rfl
    simp [State.mixcfg, State.noteSubst, Num.passes, validated, hok, hmixr]

theorem exec_mixSet (hf : s.fault = false) (hm : s.mode = .stopped) : exec .mixSet s = .next (s.mixcfg s.p[0]) :=
  command_cfg hf hm fun s => .ok (s.mixcfg s.p[0])

/-- Settles O46, by whether the operand is in range. -/
theorem mixSetSetsRatio : Obligations.MixSetSetsRatio := by
  intro s hf hm
  rw [exec_mixSet hf hm]
  exact ⟨fun q hq h0 h1 => by rw [hq, mixcfg_of_inRange h0 h1], fun h => by rw [mixcfg_of_outOfRange h]⟩

/-- A raw result put out through `clampS`, `EXH` being kept. -/
theorem clampS_out_clamped_unlatched (s : State) (raw : Num) :
    Clamped s raw (clampSample s.params) ((s.clampS raw).1.out (s.clampS raw).2) := by
  cases raw with
  | val q => exact ⟨fun _ h => by cases h; rfl, nofun⟩
  | nan => exact ⟨nofun, fun _ => ⟨_, rfl⟩⟩

theorem exec_mix (k : PNum) (hf : s.fault = false) (hm : s.mode = .running) (hin : s.input src = (s', x)) :
    exec (.mix k src) s = .next ((s'.mix s'.p[k] x).1.out (s'.mix s'.p[k] x).2) := by
  simp only [exec, execMix, command_data hf hm, hin, settle_ok]

/-- Settles O47: taking the input changes neither `P` nor `MIXR`, and the blend goes through the clamp. -/
theorem mixBlendsDryAndWet : Obligations.MixBlendsDryAndWet := by
  intro k src s s' x hf hm hin
  obtain ⟨hstep, -, -⟩ := input_keeps hin
  refine ⟨_, exec_mix k hf hm hin, ?_⟩
  rw [← hstep.p, ← hstep.mixr, ← hstep.params]
  exact clampS_out_clamped_unlatched _ _

/-! ### The engines as the tick commands of their units -/

/-- The range of a statement is the range the engines run over. -/
theorem finRange_filter_eq_unitRange (a b : FuNum) :
    (List.finRange 7).filter (fun u => a ≤ u ∧ u ≤ b) = unitRange a b := rfl

/-- A unit's own tick command, its input offered on `DIN`, does what the unit's sample does and leaves it in `R`. -/
theorem tickOn_of_futick (hf : s.fault = false) (hm : s.mode = .running) (h : futick u x s = .ok (t, y)) :
    tickOn u x s = some { t with r := y } := by
  obtain ⟨fu, -, -, -, hu, -⟩ := futick_ok_iff.mp h
  have htick := exec_tickOf_of_futick (s := { s with port := { s.port with din := [x] } }) (src := .din) hf hm hu rfl
    (futick_withOutputs h s.r s.dout { s.port with din := [x] } s.exh)
  have hstep := futick_dataStep h
  simp only [tickOn, hu, htick]
  rw [← hstep.port, ← hstep.dout, ← hstep.exh]
  rfl

/-- A data path leaves the ports and `EXH`, so putting back those it started with changes nothing. -/
theorem withOutputs_of_dataStep (h : DataStep s t) (r : Num) (dout : List Num) :
    t.withOutputs r dout s.port s.exh = { t with r := r, dout := dout } := by
  rw [← h.port, ← h.exh]

/-- Units in series run the same whatever was put out before them. -/
theorem serUnits_of_outputs (h : serUnits us x s = .ok (t, y)) (r : Num) (dout : List Num) :
    serUnits us x { s with r := r, dout := dout } = .ok ({ t with r := r, dout := dout }, y) := by
  rw [← withOutputs_of_dataStep (serUnits_dataStep h)]
  exact serUnits_withOutputs h r dout s.port s.exh

/-- Units in parallel run the same whatever was put out before them. -/
theorem parUnits_of_outputs (h : parUnits x us v s = .ok (t, y)) (r : Num) (dout : List Num) :
    parUnits x us v { s with r := r, dout := dout } = .ok ({ t with r := r, dout := dout }, y) := by
  rw [← withOutputs_of_dataStep (parUnits_dataStep h)]
  exact parUnits_withOutputs h r dout s.port s.exh

/-- A unit ticks the same whatever was put out before it. -/
theorem futick_of_outputs (h : futick u x s = .ok (t, y)) (r : Num) (dout : List Num) :
    futick u x { s with r := r, dout := dout } = .ok ({ t with r := r, dout := dout }, y) := by
  rw [← withOutputs_of_dataStep (futick_dataStep h)]
  exact futick_withOutputs h r dout s.port s.exh

/-- The blend is the same whatever was put out before it. -/
theorem mix_of_outputs (h : s.mix x w = (t, y)) (r : Num) (dout : List Num) :
    State.mix { s with r := r, dout := dout } x w = ({ t with r := r, dout := dout }, y) := by
  have hstep : DataStep s t := by simpa only [h] using mix_dataStep s x w
  rw [← withOutputs_of_dataStep hstep]
  exact mix_withOutputs h r dout s.port s.exh

/-- Units in series: their tick commands one after the other leave what the engine leaves, but for `R`. -/
theorem seriesOn_of_serUnits (hf : s.fault = false) (hm : s.mode = .running) (h : serUnits us x s = .ok (t, y)) :
    ∃ r, seriesOn us x s = some (y, { t with r := r }) := by
  induction us generalizing s x t with
  | nil => cases h; exact ⟨s.r, rfl⟩
  | cons u us ih =>
    simp only [serUnits, bind_ok_iff, Prod.exists] at h
    obtain ⟨s1, y1, h1, h2⟩ := h
    have hstep := futick_dataStep h1
    obtain ⟨r, hr⟩ := ih (s := { s1 with r := y1 }) (hstep.fault.trans hf) (hstep.mode.trans hm)
      (serUnits_of_outputs h2 y1 s1.dout)
    refine ⟨r, ?_⟩
    rw [seriesOn, tickOn_of_futick hf hm h1, Option.bind_some, hr, ← (serUnits_dataStep h2).dout]

/-- Units in parallel: their tick commands on one input leave what the engine leaves, but for `R`. -/
theorem parallelOn_of_parUnits (hf : s.fault = false) (hm : s.mode = .running)
    (h : parUnits x us v s = .ok (t, y)) : ∃ r, parallelOn x us v s = some (y, { t with r := r }) := by
  induction us generalizing s v t with
  | nil => cases h; exact ⟨s.r, rfl⟩
  | cons u us ih =>
    simp only [parUnits, bind_ok_iff, Prod.exists] at h
    obtain ⟨s1, y1, h1, h2⟩ := h
    have hstep := futick_dataStep h1
    obtain ⟨r, hr⟩ := ih (s := { s1 with r := y1 }) (hstep.fault.trans hf) (hstep.mode.trans hm)
      (parUnits_of_outputs h2 y1 s1.dout)
    refine ⟨r, ?_⟩
    rw [parallelOn, tickOn_of_futick hf hm h1, Option.bind_some, hr, ← (parUnits_dataStep h2).dout]

theorem exec_serTick (hf : s.fault = false) (hm : s.mode = .running) (hr : s.ready a b = true)
    (hin : s.input src = (s', x)) (h : ser a b x s' = .ok (t, y)) :
    exec (.serTick a b src) s = .next (t.out y) := by
  simp only [exec, execSerTick, command_data hf hm, hr, require_true, ok_bind, hin, h, settle_ok]

/-- Settles O44: on a ready range the engine runs, and its units' tick commands leave what it leaves. -/
theorem serTickIsChainOfTicks : Obligations.SerTickIsChainOfTicks := by
  intro a b src s s' x hs hf hm hu hin
  obtain ⟨hin', -, -⟩ := input_keeps hin
  have hr := ready_iff.mpr hu
  obtain ⟨⟨t, y⟩, h⟩ := ser_ok (dataStep_inv hin' hs) (ready_mono hr hin'.fus (le_refl a) (le_refl b)) x
  obtain ⟨r, hseries⟩ := seriesOn_of_serUnits (hin'.fault.trans hf) (hin'.mode.trans hm) h
  rw [finRange_filter_eq_unitRange]
  refine ⟨y, _, hseries, ?_⟩
  rw [exec_serTick hf hm hr hin h, ← hin'.dout, ← (serUnits_dataStep h).dout]
  rfl

theorem exec_parTick (hf : s.fault = false) (hm : s.mode = .running) (hr : s.ready a b = true)
    (hin : s.input src = (s', x)) (h : par a b x s' = .ok (t, y)) :
    exec (.parTick a b src false) s = .next (t.out y) := by
  simp only [exec, execParTick, command_data hf hm, hr, require_true, ok_bind, hin, h]
  rfl

/-- With `C` = 1 the sum goes through `clampS`. -/
theorem exec_parTick_clamp (hf : s.fault = false) (hm : s.mode = .running) (hr : s.ready a b = true)
    (hin : s.input src = (s', x)) (h : par a b x s' = .ok (t, y)) :
    exec (.parTick a b src true) s = .next ((t.clampS y).1.out (t.clampS y).2) := by
  simp only [exec, execParTick, command_data hf hm, hr, require_true, ok_bind, hin, h]
  rfl

/-- Settles O45: on a ready range the engine runs, its units' tick commands leave what it leaves, and their sum is what
it puts out or clamps. -/
theorem parTickIsSumOfTicks : Obligations.ParTickIsSumOfTicks := by
  intro a b src c s s' x hs hf hm hu hin
  obtain ⟨hin', -, -⟩ := input_keeps hin
  have hr := ready_iff.mpr hu
  obtain ⟨⟨t, y⟩, h⟩ := par_ok (dataStep_inv hin' hs) (ready_mono hr hin'.fus (le_refl a) (le_refl b)) x
  obtain ⟨r, hparallel⟩ := parallelOn_of_parUnits (hin'.fault.trans hf) (hin'.mode.trans hm) h
  have hstep := hin'.trans (parUnits_dataStep h)
  rw [finRange_filter_eq_unitRange]
  cases c with
  | false =>
    refine ⟨y, _, _, hparallel, exec_parTick hf hm hr hin h, fun _ => ?_, nofun⟩
    rw [← hstep.dout]
    rfl
  | true =>
    refine ⟨y, _, _, hparallel, exec_parTick_clamp hf hm hr hin h, nofun, fun _ => ?_⟩
    rw [← hstep.params]
    exact clampS_out_clamped_unlatched t y

/-! ### A reverb tick as its commands -/

theorem executes_cons {i : Instr} (h : exec i s = .next t) (is : List Instr) :
    executes (i :: is) s = executes is t := by
  simp only [executes, h]

theorem executes_append (is js : List Instr) (s : State) :
    executes (is ++ js) s = (executes is s).bind (executes js) := by
  induction is generalizing s with
  | nil => rfl
  | cons i is ih =>
    obtain ⟨t, h⟩ := exec_next i s
    rw [List.cons_append, executes_cons h, executes_cons h, ih]

/-- The commands before the `MIX` of a reverb leave the state `t` the reverb's filters leave, the wet sample `w` in `R`;
the tick goes on with the blend. -/
structure ReverbChain (is : List Instr) (s : State) (x : Num) (t : State) (w : Num) : Prop where
  run : ∃ dout, executes is s = some { t with r := w, dout := dout }
  step : DataStep s t
  tick : unitTick x s = .ok (t.mix x w)

/-- Then `MIX` on the dry sample leaves what the tick leaves, but for what `DOUT` presented and for `EXH`. -/
theorem ReverbChain.mix {is : List Instr} (h : ReverbChain is s x t w) (k : PNum) (hf : s.fault = false)
    (hm : s.mode = .running) (hr : s.unitReady = true) (hin : s.input .din = (s, x)) (hp : s.p[k] = x) :
    ∃ u, executes (is ++ [.mix k .r]) s = some u ∧
      exec (.tick .din) s = .next { u with dout := s.dout ++ [u.r], exh := s.port.srcExh } := by
  obtain ⟨⟨dout, hrun⟩, hstep, htick⟩ := h
  have hdry : t.p[k] = x := (congrArg (·[k]) hstep.p).trans hp
  rcases hmixed : t.mix x w with ⟨u, y⟩
  rw [hmixed] at htick
  have hmix := exec_mix (s := { t with r := w, dout := dout }) (src := .r) k (hstep.fault.trans hf)
    (hstep.mode.trans hm) rfl
  simp only [hdry, mix_of_outputs hmixed] at hmix
  have hu := unitTick_dataStep htick
  refine ⟨_, by rw [executes_append, hrun, Option.bind_some, executes_cons hmix]; rfl, ?_⟩
  rw [← hu.port, ← hu.dout]
  exact execTick_of_unitTick hf hm hr hin htick

section
variable (hs : StateOk s) (hf : s.fault = false) (hm : s.mode = .running) (hr : s.unitReady = true)
  (hin : s.input .din = (s, x))
include hs hf hm hr hin

/-- Reverb1 (R228, R234). -/
theorem reverbChain_rv1 (hk : s.unit.kind = .rv1) : ∃ t w, ReverbChain [.serTick 0 4 .din] s x t w := by
  have hready : s.ready 0 4 = true := by simpa only [State.unitReady, hk] using hr
  obtain ⟨⟨t, w⟩, hser⟩ := ser_ok hs hready x
  refine ⟨t, w, ⟨_, executes_cons (exec_serTick hf hm hready hin hser) []⟩, serUnits_dataStep hser, ?_⟩
  simp only [unitTick, hk, tickRv1, hser, ok_bind]

/-- Reverb2 (R230, R234). -/
theorem reverbChain_rv2 (hk : s.unit.kind = .rv2) :
    ∃ t w, ReverbChain [.parTick 0 3 .din false, .serTick 4 5 .r] s x t w := by
  have hready : s.ready 0 5 = true := by simpa only [State.unitReady, hk] using hr
  have hready03 : s.ready 0 3 = true := ready_mono hready rfl (le_refl 0) (by decide)
  obtain ⟨⟨t, v⟩, hpar⟩ := par_ok hs hready03 x
  have hstep := parUnits_dataStep hpar
  have hready45 : t.ready 4 5 = true := ready_mono hready hstep.fus (by decide) (le_refl 5)
  obtain ⟨⟨u, w⟩, hser⟩ := ser_ok (dataStep_inv hstep hs) hready45 v
  have hserTick := exec_serTick (s := t.out v) (src := .r) (hstep.fault.trans hf) (hstep.mode.trans hm) hready45 rfl
    (serUnits_of_outputs hser v (t.dout ++ [v]))
  have hrun := (executes_cons (exec_parTick hf hm hready03 hin hpar) _).trans (executes_cons hserTick [])
  refine ⟨u, w, ⟨_, hrun⟩, hstep.trans (serUnits_dataStep hser), ?_⟩
  simp only [unitTick, hk, tickRv2, hpar, hser, ok_bind]

/-- Reverb3 (R232, R234). -/
theorem reverbChain_rv3 {fu : Fu} (hk : s.unit.kind = .rv3) (hfu : s.fus[(6 : FuNum)] = some fu) (hty : fu.type = .ap) :
    ∃ t w, ReverbChain [.parTick 0 5 .din true, .apTick 6 .r] s x t w := by
  have hready : s.ready 0 6 = true := by simpa only [State.unitReady, hk] using hr
  have hready05 : s.ready 0 5 = true := ready_mono hready rfl (le_refl 0) (by decide)
  obtain ⟨⟨t, v⟩, hpar⟩ := par_ok hs hready05 x
  have hstep := (parUnits_dataStep hpar).trans (clampS_dataStep t v)
  have hparTick := exec_parTick_clamp hf hm hready05 hin hpar
  rcases hclamp : t.clampS v with ⟨t', v'⟩
  rw [hclamp] at hstep hparTick
  obtain ⟨⟨u, w⟩, htick⟩ := futick_ok (u := 6) (hstep.poolOk hs) (by rw [hstep.fus, hfu]; rfl) v'
  have hapTick := exec_tickOf_of_futick (s := t'.out v') (u := 6) (src := .r) (hstep.fault.trans hf)
    (hstep.mode.trans hm) (by rw [State.out_fus, hstep.fus, hfu]) rfl (futick_of_outputs htick v' (t'.dout ++ [v']))
  rw [hty] at hapTick
  have hrun := (executes_cons hparTick _).trans (executes_cons hapTick [])
  refine ⟨u, w, ⟨_, hrun⟩, hstep.trans (futick_dataStep htick), ?_⟩
  simp only [unitTick, hk, tickRv3, hpar, hclamp, htick, ok_bind]

end

/-- Settles O56: for each reverb its chain, then the `MIX`. -/
theorem reverbTickIsCommandChain : Obligations.ReverbTickIsCommandChain := by
  intro k s x hs hf hm hdin hp hr is his
  have hin : s.input .din = (s, x) := dinAt_of_offered (by simp [hdin])
  obtain ⟨hk, rfl⟩ | ⟨hk, rfl⟩ | ⟨hk, ⟨fu, hfu, hty⟩, rfl⟩ := his
  · obtain ⟨t, w, h⟩ := reverbChain_rv1 hs hf hm hr hin hk
    exact h.mix k hf hm hr hin hp
  · obtain ⟨t, w, h⟩ := reverbChain_rv2 hs hf hm hr hin hk
    exact h.mix k hf hm hr hin hp
  · obtain ⟨t, w, h⟩ := reverbChain_rv3 hs hf hm hr hin hk hfu hty
    exact h.mix k hf hm hr hin hp

/-! ### When `TICK` and `BLOCK` run -/

theorem exec_tick_not_ready (hf : s.fault = false) (hm : s.mode = .running) (hr : s.unitReady = false) (src : Src) :
    exec (.tick src) s = .next (faulted s .notReady) := by
  simp only [exec, execTick, command_data hf hm, hr, require_false, error_bind]
  rfl

theorem exec_block_not_ready (hf : s.fault = false) (hm : s.mode = .running) (hr : s.unitReady = false)
    (n : BitVec 16) : exec (.block n) s = .next (faulted s .notReady) := by
  simp only [exec, execBlock, command_data hf hm, hr, require_false, error_bind]
  rfl

/-- No unit, or a reverb with a filter unit missing (R260). -/
theorem unitReady_eq_false (h : s.unit.kind = .none ∨
    (s.unit.kind = .rv1 ∧ ∃ u : FuNum, u.val ≤ 4 ∧ s.fus[u] = none) ∨
    (s.unit.kind = .rv2 ∧ ∃ u : FuNum, u.val ≤ 5 ∧ s.fus[u] = none) ∨
    (s.unit.kind = .rv3 ∧ ∃ u : FuNum, s.fus[u] = none)) : s.unitReady = false := by
  unfold State.unitReady
  obtain hk | ⟨hk, u, hu, hnone⟩ | ⟨hk, u, hu, hnone⟩ | ⟨hk, u, hnone⟩ := h
  · rw [hk]
  · rw [hk]; exact ready_eq_false (Fin.zero_le u) (show u.val ≤ 4 from hu) hnone
  · rw [hk]; exact ready_eq_false (Fin.zero_le u) (show u.val ≤ 5 from hu) hnone
  · rw [hk]; exact ready_eq_false (Fin.zero_le u) (Fin.le_last u) hnone

/-- `TICK` on a ready unit of a good state (R260). -/
theorem exec_tick_ready (hs : StateOk s) (hf : s.fault = false) (hm : s.mode = .running) (hr : s.unitReady = true)
    (src : Src) : ∃ t, exec (.tick src) s = .next t ∧ t.fault = false ∧ t.exh = s.port.srcExh := by
  have hin := input_dataStep s src
  obtain ⟨⟨t, y⟩, htick⟩ := unitTick_ok (dataStep_inv hin hs) (hin.unitReady.trans hr) (s.input src).2
  have hstep := hin.trans (unitTick_dataStep htick)
  exact ⟨_, execTick_of_unitTick hf hm hr rfl htick, hstep.fault.trans hf, congrArg Ports.srcExh hstep.port⟩

theorem exec_block_of_loop {n : BitVec 16} (hf : s.fault = false) (hm : s.mode = .running) (hr : s.unitReady = true)
    (h : blockLoop n.toNat 0 s = .ok t) : exec (.block n) s = .next t.latchExh := by
  simp only [exec, execBlock, command_data hf hm, hr, require_true, ok_bind, h, settle_ok]

/-- `BLOCK` on a ready unit of a good state (R261). -/
theorem exec_block_ready (hs : StateOk s) (hf : s.fault = false) (hm : s.mode = .running) (hr : s.unitReady = true)
    (n : BitVec 16) : ∃ t, exec (.block n) s = .next t ∧ t.fault = false ∧ t.exh = s.port.srcExh := by
  obtain ⟨t, hloop⟩ := blockLoop_ok (n := n.toNat) (i := 0) hs hr
  obtain ⟨u, ys, hstep, rfl, -⟩ := blockLoop_dataStep hloop
  exact ⟨_, exec_block_of_loop hf hm hr hloop, hstep.fault.trans hf, congrArg Ports.srcExh hstep.port⟩

/-- Settles O57, by whether the unit is ready. -/
theorem readyUnitNeverFaults : Obligations.ReadyUnitNeverFaults := by
  intro s hf hm
  refine ⟨fun hs hr => ⟨exec_tick_ready hs hf hm hr, exec_block_ready hs hf hm hr⟩, fun h => ?_⟩
  have hr := unitReady_eq_false h
  exact ⟨exec_tick_not_ready hf hm hr, exec_block_not_ready hf hm hr⟩

/-! ### Numbers through the filter units -/

theorem val_ne_nan (q : Rat) : Num.val q ≠ .nan := nofun

theorem add_ne_nan (hx : x ≠ .nan) (hy : y ≠ .nan) : x.add y ≠ .nan := by
  obtain ⟨p, rfl⟩ := exists_val_of_ne_nan hx
  obtain ⟨q, rfl⟩ := exists_val_of_ne_nan hy
  exact val_ne_nan _

theorem scale_ne_nan (q : Rat) (hx : x ≠ .nan) : Num.scale q x ≠ .nan := by
  obtain ⟨p, rfl⟩ := exists_val_of_ne_nan hx
  exact val_ne_nan _

theorem tapval_ne_nan {db : Db} {tap : Tap} (hcells : ∀ i, memRead db.mem i ≠ .nan) :
    ∀ d ∈ db.tapval tap, d ≠ .nan := by
  intro d hd
  unfold Db.tapval at hd
  split at hd
  · cases hd; exact hcells _
  · cases hd

section
variable {d d0 d1 : Option Num} (hx : x ≠ .nan)
include hx

theorem apSample_ne_nan (g : Rat) (hd : ∀ v ∈ d, v ≠ .nan) :
    (apSample g d x).1 ≠ .nan ∧ (apSample g d x).2 ≠ .nan := by
  cases d with
  | none => exact ⟨hx, scale_ne_nan _ hx⟩
  | some v =>
    have hv := hd v rfl
    have hstored := add_ne_nan hx (scale_ne_nan g hv)
    exact ⟨hstored, add_ne_nan (scale_ne_nan _ hstored) hv⟩

theorem cbSample_ne_nan (g : Rat) (hd : ∀ v ∈ d, v ≠ .nan) :
    (cbSample g d x).1 ≠ .nan ∧ (cbSample g d x).2 ≠ .nan := by
  have hstored : (cbSample g d x).1 ≠ .nan := by
    cases d with
    | none => exact hx
    | some v => exact add_ne_nan hx (scale_ne_nan g (hd v rfl))
  exact ⟨hstored, scale_ne_nan _ hstored⟩

theorem lpcSample_ne_nan (g1 g2 : Rat) (hd0 : ∀ v ∈ d0, v ≠ .nan) (hd1 : ∀ v ∈ d1, v ≠ .nan) :
    (lpcSample g1 g2 d0 d1 x).1 ≠ .nan ∧ (lpcSample g1 g2 d0 d1 x).2 ≠ .nan := by
  have hstored : (lpcSample g1 g2 d0 d1 x).1 ≠ .nan := by
    cases d0 with
    | none => exact hx
    | some v0 =>
      have hv0 := hd0 v0 rfl
      cases d1 with
      | none => exact add_ne_nan hx (scale_ne_nan g1 hv0)
      | some v1 => exact add_ne_nan hx (scale_ne_nan g1 (add_ne_nan hv0 (scale_ne_nan g2 (hd1 v1 rfl))))
  exact ⟨hstored, scale_ne_nan _ hstored⟩

/-- A unit of any type stores and puts out a number when its cells and its input are numbers. -/
theorem sample_ne_nan {fu : Fu} {db : Db} {r : Num × Num} (hcells : ∀ i, memRead db.mem i ≠ .nan)
    (h : fu.sample db x = .ok r) : r.1 ≠ .nan ∧ r.2 ≠ .nan := by
  simp only [Fu.sample, bind_ok_iff] at h
  obtain ⟨tap0, -, h⟩ := h
  split at h
  · cases h; exact apSample_ne_nan hx _ (tapval_ne_nan hcells)
  · cases h; exact cbSample_ne_nan hx _ (tapval_ne_nan hcells)
  · simp only [bind_ok_iff] at h
    obtain ⟨tap1, -, h⟩ := h
    cases h
    exact lpcSample_ne_nan hx _ _ (tapval_ne_nan hcells) (tapval_ne_nan hcells)

end

theorem numeric_setDb {c : DbNum} {db : Db} (hn : Numeric s) (hcells : ∀ i, memRead db.mem i ≠ .nan) :
    Numeric (s.setDb c db) := by
  intro c' db' hd
  rw [State.setDb_dbs, file_get_set] at hd
  split at hd
  · cases hd; exact hcells
  · exact hn c' db' hd

theorem numeric_push {c : DbNum} {db : Db} (hs : StateOk s) (hn : Numeric s) (hd : s.dbs[c] = some db)
    (hv : v ≠ .nan) : Numeric (s.setDb c (db.write v).advance) := by
  obtain ⟨-, -, -, ⟨hdbs, -, -⟩, -⟩ := hs
  refine numeric_setDb hn fun i => ?_
  rw [Db.advance_mem, Db.write_cell (hdbs c db hd)]
  split
  · exact hv
  · exact hn c db hd i

/-- What numbers become in a data path whose cells are numbers: the cells stay numbers, and so is the result. -/
structure NumericStep (s t : State) (y : Num) : Prop where
  step : DataStep s t
  numeric : Numeric t
  result : y ≠ .nan

theorem NumericStep.trans (h1 : NumericStep s s' x) (h2 : NumericStep s' t y) : NumericStep s t y :=
  ⟨h1.step.trans h2.step, h2.numeric, h2.result⟩

theorem futick_numeric (hs : StateOk s) (hn : Numeric s) (hx : x ≠ .nan) (h : futick u x s = .ok (t, y)) :
    NumericStep s t y := by
  obtain ⟨fu, db, stored, raw, -, hd, hsample, hclamp⟩ := futick_ok_iff.mp h
  obtain ⟨hstored, hraw⟩ := sample_ne_nan hx (hn _ db hd) hsample
  obtain ⟨q, rfl⟩ := exists_val_of_ne_nan hraw
  cases hclamp
  exact ⟨futick_dataStep h, numeric_push hs hn hd hstored, val_ne_nan _⟩

theorem serUnits_numeric (hs : StateOk s) (hn : Numeric s) (hx : x ≠ .nan) (h : serUnits us x s = .ok (t, y)) :
    NumericStep s t y := by
  induction us generalizing s x with
  | nil => cases h; exact ⟨.refl _, hn, hx⟩
  | cons u us ih =>
    simp only [serUnits, bind_ok_iff, Prod.exists] at h
    obtain ⟨s1, y1, h1, h2⟩ := h
    have hfirst := futick_numeric hs hn hx h1
    exact hfirst.trans (ih (dataStep_inv hfirst.step hs) hfirst.numeric hfirst.result h2)

theorem parUnits_numeric (hs : StateOk s) (hn : Numeric s) (hx : x ≠ .nan) (hv : v ≠ .nan)
    (h : parUnits x us v s = .ok (t, y)) : NumericStep s t y := by
  induction us generalizing s v with
  | nil => cases h; exact ⟨.refl _, hn, hv⟩
  | cons u us ih =>
    simp only [parUnits, bind_ok_iff, Prod.exists] at h
    obtain ⟨s1, y1, h1, h2⟩ := h
    have hfirst := futick_numeric hs hn hx h1
    exact hfirst.trans (ih (dataStep_inv hfirst.step hs) hfirst.numeric (add_ne_nan hv hfirst.result) h2)

theorem clampS_numeric (hn : Numeric s) (hv : v ≠ .nan) : NumericStep s (s.clampS v).1 (s.clampS v).2 := by
  obtain ⟨q, rfl⟩ := exists_val_of_ne_nan hv
  exact ⟨.refl s, hn, val_ne_nan _⟩

/-- A reverb's tick blends its input with a number (R228, R230, R232). -/
theorem reverbTick_numeric (hs : StateOk s) (hn : Numeric s) (hx : x ≠ .nan) (hk : s.unit.kind ∈ [.rv1, .rv2, .rv3])
    (h : unitTick x s = .ok (t, y)) : ∃ u w, NumericStep s u w ∧ u.mix x w = (t, y) := by
  simp only [List.mem_cons, List.not_mem_nil, or_false] at hk
  obtain hk | hk | hk := hk
  · simp only [unitTick, hk, tickRv1, bind_ok_iff, Prod.exists, Except.ok.injEq] at h
    obtain ⟨u, w, hser, hmix⟩ := h
    exact ⟨u, w, serUnits_numeric hs hn hx hser, hmix⟩
  · simp only [unitTick, hk, tickRv2, bind_ok_iff, Prod.exists, Except.ok.injEq] at h
    obtain ⟨s1, v, hpar, u, w, hser, hmix⟩ := h
    have h1 := parUnits_numeric hs hn hx (val_ne_nan 0) hpar
    exact ⟨u, w, h1.trans (serUnits_numeric (dataStep_inv h1.step hs) h1.numeric h1.result hser), hmix⟩
  · simp only [unitTick, hk, tickRv3, bind_ok_iff, Prod.exists, Except.ok.injEq] at h
    obtain ⟨s1, v, hpar, u, w, htick, hmix⟩ := h
    have hsum := parUnits_numeric hs hn hx (val_ne_nan 0) hpar
    have h1 := hsum.trans (clampS_numeric hsum.numeric hsum.result)
    exact ⟨u, w, h1.trans (futick_numeric (dataStep_inv h1.step hs) h1.numeric h1.result htick), hmix⟩

theorem mix_of_mixr_zero (hz : s.mixr = 0) (q : Rat) (hw : w ≠ .nan) :
    s.mix (.val q) w = (s, .val (clampSample s.params q)) := by
  obtain ⟨p, rfl⟩ := exists_val_of_ne_nan hw
  simp [State.mix, hz, Num.scale, Num.mul, Num.add, State.clampS]

/-- Settles O60: the wet sample is a number, so its weight 0 leaves the dry one. -/
theorem mixZeroReturnsDry : Obligations.MixZeroReturnsDry := by
  intro s x hs hf hm hr hk hdin hz hn
  have hin : s.input .din = (s, .val x) := dinAt_of_offered (by simp [hdin])
  obtain ⟨⟨t, y⟩, htick⟩ := unitTick_ok hs hr (.val x)
  obtain ⟨u, w, hu, hmix⟩ := reverbTick_numeric hs hn (val_ne_nan x) hk htick
  rw [mix_of_mixr_zero (hu.step.mixr.trans hz) x hu.result, hu.step.params] at hmix
  cases hmix
  exact ⟨_, execTick_of_unitTick hf hm hr hin htick, rfl⟩

/-! ### What the reverbs' `CFG` leaves -/

/-- `FilterSet` reads the rate and the parameters only. -/
theorem filterSet_congr {ty : FuType} {ms pct1 pct2 : Num} {fu : Option Fu} {db : Option Db}
    (h : FilterSet t ty ms pct1 pct2 fu db) (hrate : t.srate = s.srate) (hparams : t.params = s.params) :
    FilterSet s ty ms pct1 pct2 fu db := by
  obtain ⟨hunit, hbuffer⟩ := h
  simp only [filterDelay, hrate, hparams] at hunit hbuffer
  exact ⟨hunit, hbuffer⟩

/-- The operands of every unit of a list are in range. -/
def unitsInRange (s : State) (os : List (FuNum × FuType × Num × Num × Num)) : Bool :=
  os.all fun o => filterInRange s o.2.1 o.2.2.1 o.2.2.2.1 o.2.2.2.2

/-- Of the two files, the units of a list are configured from their operands, and the rest is as in `s`. -/
structure UnitsSet (s : State) (os : List (FuNum × FuType × Num × Num × Num)) (dbs : Vector (Option Db) 8)
    (fus : Vector (Option Fu) 7) : Prop where
  units : ∀ o ∈ os, FilterSet s o.2.1 o.2.2.1 o.2.2.2.1 o.2.2.2.2 fus[o.1] dbs[filterDb o.1]
  others : ∀ u, u ∉ os.map (·.1) → fus[u] = s.fus[u] ∧ dbs[filterDb u] = s.dbs[filterDb u]
  effect : dbs[effectDb] = s.dbs[effectDb]

/-- With a rate and capacities that fit, distinct units are all configured. -/
theorem fucfgEach_of_fits {os : List (FuNum × FuType × Num × Num × Num)} (hrate : s.srate ≠ 0)
    (hcap : ∀ o ∈ os, filterDelay s o.2.2.1 + 1 ≤ s.params.lmax) (hnd : (os.map (·.1)).Nodup) :
    ∃ dbs fus, UnitsSet s os dbs fus ∧ fucfgEach os s = .ok { s with
      dbs := dbs, fus := fus, defsub := s.defsub || !unitsInRange s os } := by
  induction os generalizing s with
  | nil => exact ⟨s.dbs, s.fus, ⟨nofun, fun _ _ => ⟨rfl, rfl⟩, rfl⟩, by simp [fucfgEach, unitsInRange]⟩
  | cons o os ih =>
    obtain ⟨u, ty, ms, pct1, pct2⟩ := o
    obtain ⟨hu, hnd⟩ := List.nodup_cons.mp hnd
    obtain ⟨hcap0, hcap⟩ := List.forall_mem_cons.mp hcap
    obtain ⟨fu, db, hset, hcfg⟩ := fucfg_of_fits u ty (pct1 := pct1) (pct2 := pct2) hrate hcap0
    obtain ⟨dbs, fus, hrest, hrun⟩ := ih (s := { s with
      dbs := s.dbs.set (filterDb u) db, fus := s.fus.set u fu
      defsub := s.defsub || !filterInRange s ty ms pct1 pct2 }) hrate hcap hnd
    refine ⟨dbs, fus, ⟨List.forall_mem_cons.mpr ⟨?_, ?_⟩, fun w hw => ?_, ?_⟩, ?_⟩
    · obtain ⟨hfu, hdb⟩ := hrest.others u hu
      rw [hfu, hdb, file_get_set_self, file_get_set_self]
      exact hset
    · exact fun o ho => filterSet_congr (hrest.units o ho) rfl rfl
    · obtain ⟨hne, hw⟩ := List.ne_and_not_mem_of_not_mem_cons hw
      obtain ⟨hfu, hdb⟩ := hrest.others w hw
      rw [hfu, hdb, file_get_set, file_get_set, if_neg hne.symm, if_neg fun h => hne (filterDb_injective h).symm]
      exact ⟨rfl, rfl⟩
    · rw [hrest.effect, file_get_set, if_neg (filterDb_ne_effectDb u)]
    · rw [fucfgEach, hcfg, ok_bind, hrun]
      simp only [unitsInRange, List.all_cons, Bool.not_and, Bool.or_assoc]
      rfl

/-- What `CFG` of a reverb leaves, its filter units being in `dbs` and `fus` (R226). -/
def reverbState (s : State) (kind : Kind) (dbs : Vector (Option Db) 8) (fus : Vector (Option Fu) 7) (inRange : Bool) :
    State :=
  { s with
    dbs := dbs, fus := fus, mods := .replicate 3 none, mixr := validated s.p[0] (inCC 0 100) 50 / 100
    unit := ⟨kind, 0, 0, 0, 0, 0, 0, 0⟩, defsub := s.defsub || !(s.p[0].passes (inCC 0 100) && inRange) }

/-- The end of a reverb's rule on the cleared pool with its filter units put in. -/
theorem finishReverb_eq_reverbState (s : State) (kind : Kind) (dbs : Vector (Option Db) 8)
    (fus : Vector (Option Fu) 7) (inRange : Bool) :
    State.finishReverb { s.clearPool with dbs := dbs, fus := fus, defsub := s.defsub || !inRange } s.p[0] kind =
      reverbState s kind dbs fus inRange := by
  have hdefsub : (s.defsub || !inRange || [s.p[0].passes (inCC 0 100)].any not) =
      (s.defsub || !(s.p[0].passes (inCC 0 100) && inRange)) := by
    simp [Bool.or_assoc, Bool.or_comm (!inRange)]
  rw [reverbState, ← hdefsub]
  rfl

/-- The command that configures each kind of reverb. -/
abbrev CfgOfReverb (i : Instr) (kind : Kind) : Prop :=
  (i = .cfgRv1 ∧ kind = .rv1) ∨ (i = .cfgRv2 ∧ kind = .rv2) ∨ (i = .cfgRv3 ∧ kind = .rv3)

/-- `CFG` of a reverb: its units from the cleared pool, then the mix ratio and the kind. -/
theorem exec_reverb_ok {i : Instr} {kind : Kind} (hf : s.fault = false) (hm : s.mode = .stopped)
    (hi : CfgOfReverb i kind) (h : fucfgEach (reverbUnits s.p i) s.clearPool = .ok t) :
    exec i s = .next (t.finishReverb s.p[0] kind) := by
  have hrule {rule : State → Except Cause State} (hr : rule s.clearPool = .ok (t.finishReverb s.p[0] kind)) :
      s.configure rule = .next (t.finishReverb s.p[0] kind) := by
    rw [State.configure, command_cfg hf hm, hr, settle_ok]
  obtain ⟨rfl, rfl⟩ | ⟨rfl, rfl⟩ | ⟨rfl, rfl⟩ := hi
  · exact hrule (by rw [configRv1_eq, State.clearPool_p, h, ok_bind])
  · exact hrule (by rw [configRv2_eq, State.clearPool_p, h, ok_bind])
  · exact hrule (by rw [configRv3_eq, State.clearPool_p, h, ok_bind])

/-- The first `count` filter units, with the types `ty` and their operands in the registers from `first` on. -/
def unitsFrom (s : State) (count : Nat) (ty : Nat → FuType) (first : Nat → Nat) :
    List (FuNum × FuType × Num × Num × Num) :=
  ((List.finRange 7).filter fun u => u.val < count).map fun u =>
    (u, ty u, reg s (first u), reg s (first u + 1), reg s (first u + 2))

section
variable {count : Nat} {ty : Nat → FuType} {first : Nat → Nat}

theorem unitsFrom_units (s : State) :
    (unitsFrom s count ty first).map (·.1) = (List.finRange 7).filter fun u => u.val < count := by
  simp [unitsFrom, Function.comp_def]

theorem forall_mem_unitsFrom {p : FuNum × FuType × Num × Num × Num → Prop} :
    (∀ o ∈ unitsFrom s count ty first, p o) ↔ ∀ u : FuNum, u.val < count →
      p (u, ty u, reg s (first u), reg s (first u + 1), reg s (first u + 2)) := by
  simp [unitsFrom]

theorem unitsInRange_unitsFrom (hcount : count ≤ 7) (s : State) :
    unitsInRange s (unitsFrom s count ty first) = (List.range count).all fun j =>
      filterInRange s (ty j) (reg s (first j)) (reg s (first j + 1)) (reg s (first j + 2)) := by
  rw [Bool.eq_iff_iff, unitsInRange, List.all_eq_true, forall_mem_unitsFrom, List.all_eq_true]
  simp only [List.mem_range]
  exact ⟨fun h j hj => h ⟨j, by omega⟩ hj, fun h u hu => h u hu⟩

end

/-- Settles O52: the units of each reverb are those the statement numbers; they are configured from the cleared pool,
then the mix ratio and the kind are set. A unit that is no LowPassComb does not look at the register of a second
decay. -/
theorem cfgRvBuildsReverb : Obligations.CfgRvBuildsReverb := by
  intro s i kind count ty first hf hm hrate hi hcap
  obtain ⟨hcount, hkind, hunits⟩ : count ≤ 7 ∧ CfgOfReverb i kind ∧
      fucfgEach (reverbUnits s.p i) = fucfgEach (unitsFrom s count ty first) := by
    obtain ⟨rfl, rfl, rfl, rfl, rfl⟩ | ⟨rfl, rfl, rfl, rfl, rfl⟩ | ⟨rfl, rfl, rfl, rfl, rfl⟩ := hi
    · exact ⟨by norm_num, .inl ⟨rfl, rfl⟩, rfl⟩
    · exact ⟨by norm_num, .inr (.inl ⟨rfl, rfl⟩), rfl⟩
    · exact ⟨by norm_num, .inr (.inr ⟨rfl, rfl⟩), rfl⟩
  obtain ⟨dbs, fus, hset, hrun⟩ := fucfgEach_of_fits (s := s.clearPool) (os := unitsFrom s count ty first) hrate
    (forall_mem_unitsFrom.mpr fun u hu => hcap u hu)
    (by rw [unitsFrom_units]; exact (List.nodup_finRange 7).filter _)
  have hexec := exec_reverb_ok hf hm hkind (hunits ▸ hrun)
  rw [State.clearPool_defsub, finishReverb_eq_reverbState] at hexec
  refine ⟨_, hexec, ?_, fun u => ?_, ?_, rfl, rfl, rfl, rfl⟩
  · rw [← unitsInRange_unitsFrom hcount]
    rfl
  · split
    next hu => exact filterSet_congr (forall_mem_unitsFrom.mp hset.units u hu) rfl rfl
    next hu =>
      have hnone := hset.others u (by simpa [unitsFrom_units] using hu)
      rw [State.clearPool_fus, State.clearPool_dbs, file_get_replicate, file_get_replicate] at hnone
      exact hnone
  · exact hset.effect.trans (file_get_replicate _ _)

end Sys2Proof.Proofs
end

section
/-! PROOFS. The statements of the facade and system family: `NOP`, `START` and `STOP` (R250, R254, R255); `CTX.SET`
(R256); a block as the ticks of its samples (R261). -/

namespace Sys2Proof.Proofs

open Sys2Proof.Machine Sys2Proof.Claims Sys2Proof.Safety

variable {s t : State}

/-! ### `NOP`, `START` and `STOP` -/

/-- In the fault state `NOP` is ignored, outside it there is nothing to do (R250, R287). -/
theorem exec_nop (s : State) : exec .nop s = .next s := by
  cases hf : s.fault with
  | true => exact command_ignored hf
  | false => exact command_legal hf (legalIn_any _)

theorem exec_start (hf : s.fault = false) : exec .start s = .next (s.setMode .running) := by
  simp only [exec, execStart, command_legal hf (legalIn_any _), settle_ok]

theorem exec_stop (hf : s.fault = false) : exec .stop s = .next (s.setMode .stopped) := by
  simp only [exec, execStop, command_legal hf (legalIn_any _), settle_ok]

/-- Settles O18, command by command. -/
theorem nopStartStop : Obligations.NopStartStop :=
  fun s => ⟨exec_nop s, fun hf => ⟨exec_start hf, exec_stop hf⟩⟩

/-! ### `CTX.SET` -/

theorem exec_ctxSet {q : Rat} (hf : s.fault = false) (hm : s.mode = .stopped) (hp : s.p[0] = .val q) (h1 : 1 ≤ q) :
    exec .ctxSet s = .next { s with srate := q } := by
  have hrate : operand s.p[0] (fun q => decide (1 ≤ q)) = .ok q := operand_ok_iff.mpr ⟨hp, decide_eq_true h1⟩
  simp only [exec, execCtxSet, command_cfg hf hm, hrate, ok_bind, settle_ok]

theorem exec_ctxSet_badOperand (hf : s.fault = false) (hm : s.mode = .stopped) (h : ∀ q, s.p[0] = .val q → q < 1) :
    exec .ctxSet s = .next (faulted s .badOperand) := by
  have hrate : operand s.p[0] (fun q => decide (1 ≤ q)) = .error .badOperand :=
    operand_of_invalid fun q hq => decide_eq_false (not_le.mpr (h q hq))
  simp only [exec, execCtxSet, command_cfg hf hm, hrate, error_bind]
  rfl

/-- Settles O20, by whether the operand passes its test. -/
theorem ctxSetSetsRate : Obligations.CtxSetSetsRate :=
  fun _ hf hm => ⟨fun _ hp h1 => exec_ctxSet hf hm hp h1, exec_ctxSet_badOperand hf hm⟩

/-! ### A block as the ticks of its samples -/

/-- `TICK` with `x` offered on `DIN`, whatever the other ports and `EXH` were. -/
theorem exec_tick_of_unitTick {x y : Num} (hf : s.fault = false) (hm : s.mode = .running) (hr : s.unitReady = true)
    (h : unitTick x s = .ok (t, y)) (port : Ports) (exh : Bool) :
    exec (.tick .din) { s with port := { port with din := [x] }, exh := exh } =
      .next { t.out y with port := { port with din := [x] }, exh := port.srcExh } := by
  have htick := execTick_of_unitTick (s := { s with port := { port with din := [x] }, exh := exh }) (src := .din)
    hf hm hr rfl (unitTick_withOutputs h s.r s.dout { port with din := [x] } exh)
  rw [State.out_eq_withOutputs t, (unitTick_dataStep h).dout]
  exact htick

/-- The loop of `BLOCK` from the `i`-th value on leaves what the ticks on the values from there on leave, but for the
ports, which each tick has its own of, and for `EXH`, which each tick latches. -/
theorem ticks_of_blockLoop {xs : List Num} {i : Nat} (hf : s.fault = false) (hm : s.mode = .running)
    (hr : s.unitReady = true) (hdin : s.port.din.drop i = xs) (h : blockLoop xs.length i s = .ok t) (port : Ports)
    (exh : Bool) :
    ∃ port' exh', ticks xs { s with port := port, exh := exh } = some { t with port := port', exh := exh' } := by
  induction xs generalizing s i port exh with
  | nil => cases h; exact ⟨port, exh, rfl⟩
  | cons x xs ih =>
    have hx : s.port.din[i]? = some x := by rw [← List.head?_drop, hdin, List.head?_cons]
    have hxs : s.port.din.drop (i + 1) = xs := by rw [← List.tail_drop, hdin, List.tail_cons]
    simp only [List.length_cons, blockLoop, dinAt_of_offered hx, bind_ok_iff, Prod.exists] at h
    obtain ⟨u, y, htick, hloop⟩ := h
    have hstep := unitTick_dataStep htick
    obtain ⟨port', exh', hticks⟩ := ih (s := u.out y) (hstep.fault.trans hf) (hstep.mode.trans hm)
      (hstep.unitReady.trans hr) (by rw [State.out_port, hstep.port, hxs]) hloop { port with din := [x] } port.srcExh
    refine ⟨port', exh', ?_⟩
    simp only [ticks, exec_tick_of_unitTick hf hm hr htick]
    exact hticks

theorem blockLoop_port {left i : Nat} (h : blockLoop left i s = .ok t) : t.port = s.port := by
  obtain ⟨u, ys, hstep, rfl, -⟩ := blockLoop_dataStep h
  exact hstep.port

/-- Settles O58: the loop runs, and the ticks on the values of `DIN` leave what it leaves but for the ports and `EXH`,
which the statement puts back and `BLOCK` latches. -/
theorem blockIsTicks : Obligations.BlockIsTicks := by
  intro n s hs hf hm hr hlen
  obtain ⟨t, hloop⟩ := blockLoop_ok (n := n.toNat) (i := 0) hs hr
  obtain ⟨port', exh', hticks⟩ := ticks_of_blockLoop hf hm hr List.drop_zero (hlen ▸ hloop) s.port s.exh
  refine ⟨_, hticks, ?_⟩
  rw [exec_block_of_loop hf hm hr hloop, ← blockLoop_port hloop]
  rfl

end Sys2Proof.Proofs
end

section
/-! PROOFS. The statements of the exceptions, reset and hazards family: the fault state up to the first `RESET` (R287);
the mode check (R292, R293); what a command that faults changes, and the causes it can raise (R285, R286, R300); the
commands that leave the result alone (R323). -/

namespace Sys2Proof.Proofs

open Sys2Proof.Machine Sys2Proof.Claims

variable {s t u : State} {i : Instr}

/-! ### A command in the fault state -/

theorem decode_reset_iff {w : CmdWord} : decode w = .ok .reset ↔ w = 0x01000000 := by
  constructor
  · intro h
    exact (legalWordIsItsCommandsWord w .reset h).2.symm
  · rintro rfl
    exact decodeUndoesEncode .reset rfl

theorem exec_ignored (hi : i ≠ .reset) (hf : s.fault = true) : exec i s = .next s := by
  obtain ⟨t, h⟩ := exec_next i s
  obtain ⟨-, rfl⟩ | ⟨hf', -⟩ | ⟨hf', -⟩ | ⟨hf', -⟩ := (exec_ends hi h).cases
  · exact h
  all_goals exact absurd hf (by simp [hf'])

theorem illegal_ignored (hf : s.fault = true) : s.illegal = .next s := if_pos hf

/-- A word other than `RESET`'s, legal or not, is taken off the stream and does nothing more (R287). -/
theorem step_ignored_command {ports : Ports} {rest : List HostEvent} (hf : s.fault = true)
    (hp : s.pending = .command ports :: rest) (hw : ports.word ≠ 0x01000000) :
    step s = .next { s with port := ports, pending := rest, dout := [] } := by
  cases hd : decode ports.word with
  | ok i =>
    have hi : i ≠ .reset := by
      rintro rfl
      exact hw (decode_reset_iff.mp hd)
    rw [stepRunsDecodedCommand s ports rest i hp hd]
    exact exec_ignored hi hf
  | error e =>
    simp only [step, takeEvent_of_command hp, hd]
    exact illegal_ignored hf

theorem step_of_no_event (hp : s.pending = []) : step s = .next s := by
  simp only [step, State.takeEvent, hp]

/-! ### The fault state over any number of steps -/

/-- No event of the stream leaves the fault state (R287, R310). -/
abbrev NoReset (events : List HostEvent) : Prop :=
  ∀ e ∈ events, e ≠ .hardwareReset ∧ ∀ ports, e = .command ports → ports.word ≠ 0x01000000

/-- Up to `n` events were taken off the stream, and otherwise only the ports changed, with nothing new on `DOUT`. -/
structure Ignored (n : Nat) (s t : State) : Prop where
  state_eq : t = { s with pending := s.pending.drop n, port := t.port, dout := t.dout }
  dout_eq : t.dout = s.dout ∨ t.dout = []

theorem Ignored.pending {n : Nat} (h : Ignored n s t) : t.pending = s.pending.drop n := by
  rw [h.state_eq]

theorem Ignored.fault {n : Nat} (h : Ignored n s t) : t.fault = s.fault := by
  rw [h.state_eq]

theorem Ignored.statusPort {n : Nat} (h : Ignored n s t) : t.statusPort = s.statusPort := by
  rw [h.state_eq]
  rfl

theorem Ignored.zero (s : State) : Ignored 0 s s := ⟨rfl, .inl rfl⟩

theorem Ignored.succ {n : Nat} (h1 : Ignored 1 s t) (h2 : Ignored n t u) : Ignored (n + 1) s u where
  state_eq := by
    have hdrop : t.pending.drop n = s.pending.drop (n + 1) := by
      rw [h1.pending, List.drop_drop, Nat.add_comm]
    rw [h2.state_eq, hdrop, h1.state_eq]
  dout_eq := by
    obtain h | h := h2.dout_eq
    · rw [h]
      exact h1.dout_eq
    · exact .inr h

theorem step_ignored (hf : s.fault = true) (hq : NoReset s.pending) : ∃ t, step s = .next t ∧ Ignored 1 s t := by
  match hp : s.pending with
  | [] =>
    have hdrop : s.pending.drop 1 = s.pending := by rw [hp]; rfl
    exact ⟨s, step_of_no_event hp, by rw [hdrop], .inl rfl⟩
  | .command ports :: rest =>
    have hw := (hq (.command ports) (by simp [hp])).2 ports rfl
    exact ⟨_, step_ignored_command hf hp hw, by rw [hp]; rfl, .inr rfl⟩
  | .hardwareReset :: rest => exact absurd rfl (hq .hardwareReset (by simp [hp])).1

theorem steps_ignored (n : Nat) (hf : s.fault = true) (hq : NoReset s.pending) :
    ∃ t, steps n s = some t ∧ Ignored n s t := by
  induction n generalizing s with
  | zero => exact ⟨s, rfl, .zero s⟩
  | succ n ih =>
    obtain ⟨t, hstep, h1⟩ := step_ignored hf hq
    have hq' : NoReset t.pending := fun e he => hq e (List.mem_of_mem_drop (h1.pending ▸ he))
    obtain ⟨u, hsteps, h2⟩ := ih (h1.fault.trans hf) hq'
    exact ⟨u, by simp only [steps, hstep, hsteps], h1.succ h2⟩

/-- Settles O8: by induction on the steps every event is ignored, and a word that is `RESET`'s decodes to `RESET`, which
leaves the reset state. -/
theorem faultStateIsTerminal : Obligations.FaultStateIsTerminal := by
  refine ⟨fun n s hf hq => ?_, fun s ports rest hp hw => ?_⟩
  · obtain ⟨t, hsteps, h⟩ := steps_ignored n hf hq
    exact ⟨t, hsteps, h.state_eq, h.statusPort, h.dout_eq⟩
  · obtain ⟨hstatus, hfcmd⟩ := Prod.mk.inj (toReset_statusPort { s with port := ports, pending := rest, dout := [] })
    exact ⟨_, stepRunsDecodedCommand s ports rest .reset hp (decode_reset_iff.mpr hw), rfl, hstatus, hfcmd⟩

/-! ### The mode check and the faults a command can raise -/

theorem exec_wrong_mode (hf : s.fault = false) (hm : legalIn i.cls s.mode = false) :
    exec i s = .next (faulted s .modeViolation) := by
  have hi : i ≠ .reset := by
    rintro rfl
    simp [Instr.cls] at hm
  obtain ⟨t, h⟩ := exec_next i s
  obtain ⟨hf', -⟩ | ⟨-, -, rfl⟩ | ⟨-, hm', -⟩ | ⟨-, hm', -⟩ := (exec_ends hi h).cases
  · exact absurd hf' (by simp [hf])
  · exact h
  all_goals exact absurd hm' (by simp [hm])

/-- A command that enters the fault state failed the mode check or raised a cause of its own, and changed nothing
else (R286, R288). -/
theorem exec_fault_cases (hf : s.fault = false) (h : exec i s = .next t) (ht : t.fault = true) :
    (legalIn i.cls s.mode = false ∧ t = faulted s .modeViolation) ∨ ∃ c ∈ i.ownCauses, t = faulted s c := by
  by_cases hi : i = .reset
  · subst hi
    cases h
    cases ht
  obtain ⟨hf', -⟩ | ⟨-, hm, ht'⟩ | ⟨-, -, hown⟩ | ⟨-, -, he⟩ := (exec_ends hi h).cases
  · exact absurd hf' (by simp [hf])
  · exact .inl ⟨hm, ht'⟩
  · exact .inr hown
  · exact absurd ht (by simp [he.fault, hf])

/-- The mode check is no cause of a command's own (R300). -/
theorem modeViolation_notMem_ownCauses (i : Instr) : Cause.modeViolation ∉ i.ownCauses := by
  cases i <;> simp [Instr.ownCauses]

theorem cls_ne_any_of_illegal {m : Mode} (h : legalIn i.cls m = false) : i.cls ≠ .any := by
  intro hc
  simp [hc] at h

/-- Settles O9: the two wrong modes fail the mode check; a command of class any passes it, and its own causes do not
hold MODE_VIOLATION. -/
theorem wrongModeFaults : Obligations.WrongModeFaults := by
  refine fun i s hf => ⟨fun hc hm => ?_, fun hc hm => ?_, fun hc t h ht hcause => ?_⟩
  · exact exec_wrong_mode hf (by rw [hc, hm]; rfl)
  · exact exec_wrong_mode hf (by rw [hc, hm]; rfl)
  · obtain ⟨hm, -⟩ | ⟨c, hmem, rfl⟩ := exec_fault_cases hf h ht
    · exact cls_ne_any_of_illegal hm hc
    · cases hcause
      exact modeViolation_notMem_ownCauses i hmem

/-- Settles O10: neither MODE_VIOLATION nor a cause of a command's own is 0. -/
theorem faultsAreAllOrNothing : Obligations.FaultsAreAllOrNothing := by
  intro i s t hf h ht
  obtain ⟨-, rfl⟩ | ⟨c, hmem, rfl⟩ := exec_fault_cases hf h ht
  · exact ⟨.modeViolation, nofun, rfl⟩
  · exact ⟨c, ne_none_of_mem_ownCauses hmem, rfl⟩

/-- Settles O11: a command that fails the mode check is not of class any. -/
theorem onlyListedFaultsAreRaised : Obligations.OnlyListedFaultsAreRaised := by
  intro i s t hf h ht
  obtain ⟨hm, rfl⟩ | ⟨c, hmem, rfl⟩ := exec_fault_cases hf h ht
  · exact .inl ⟨cls_ne_any_of_illegal hm, rfl⟩
  · exact .inr hmem

/-! ### The commands that keep the result -/

theorem writesR_of_cfg (h : i.cls = .cfg) : i.writesR = false := by
  cases i <;> cases h <;> rfl

theorem ne_reset_of_cfg (h : i.cls = .cfg) : i ≠ .reset := by
  rintro rfl
  cases h

/-- Whether it is ignored, faults or takes effect, a command that writes no `R` presents nothing on `DOUT` (R16). -/
theorem exec_keeps_result (h : exec i s = .next t) (hi : i ≠ .reset) (hr : i.writesR = false) :
    t.r = s.r ∧ t.dout = s.dout := by
  obtain ⟨-, rfl⟩ | ⟨-, -, rfl⟩ | ⟨-, -, c, -, rfl⟩ | ⟨-, -, he⟩ := (exec_ends hi h).cases
  · exact ⟨rfl, rfl⟩
  · exact ⟨rfl, rfl⟩
  · exact ⟨rfl, rfl⟩
  · exact he.r hr

/-- Settles O13: none of these commands is `RESET`, and none writes `R`. -/
theorem commandsThatKeepTheResult : Obligations.CommandsThatKeepTheResult := by
  intro i s t h hkeeps
  obtain rfl | ⟨k, rfl⟩ | ⟨k, rfl⟩ | rfl | rfl | hc | ⟨b, x, rfl⟩ | ⟨b, rfl⟩ := hkeeps
  · exact exec_keeps_result h nofun rfl
  · exact exec_keeps_result h nofun rfl
  · exact exec_keeps_result h nofun rfl
  · exact exec_keeps_result h nofun rfl
  · exact exec_keeps_result h nofun rfl
  · exact exec_keeps_result h (ne_reset_of_cfg hc) (writesR_of_cfg hc)
  · exact exec_keeps_result h nofun rfl
  · exact exec_keeps_result h nofun rfl

end Sys2Proof.Proofs
end
